-- ==== Sys2Proof/Word.lean ====
section
/-!
DEFINITION. The words of the TDM voice engine: the widths that the spec gives to what it treats as bits.
-/

namespace Sys2Proof

/-- The command word and the response data: 32 bits (30_encoding.md R80, R83). -/
abbrev Word := BitVec 32

/-- One byte: a parameter value, a note byte, a key byte (10_state.md R30, R33). -/
abbrev Byte := BitVec 8

/-- An i16 in two's complement: an audio sample, a filter state word (00_scope.md R7; 20_memory.md R71). -/
abbrev Sample := BitVec 16

/-- A voice index v, 0..15 (30_encoding.md R81). -/
abbrev VoiceIx := BitVec 4

/-- A pattern index p or q, 0..15 (30_encoding.md R81). -/
abbrev PatternIx := BitVec 4

/-- A step slot of a pattern, 0..63 (30_encoding.md R81). -/
abbrev StepIx := BitVec 6

/-- A step of the trigger grid, 0..15 (30_encoding.md R81, R87). -/
abbrev GridIx := BitVec 4

/-- A logical parameter id as encoded, 0..31; 27..31 are reserved (10_state.md R30). -/
abbrev ParamId := BitVec 5

/-- A pool index or the sentinel, u16 (10_state.md R35). -/
abbrev PoolIx := BitVec 16

end Sys2Proof
end

