-- ==== Sys2Proof/Syntax.lean ====
section
/-!
DEFINITION. The commands of TDM-VE 1.0: one constructor for each row of spec/opcode_table.json, operands in the order of
the assembler's syntax column (30_encoding.md R85, R86, R91), each with the width of its field.
-/

namespace Sys2Proof

/-- A command word that decode step (1) and (2) of 30_encoding.md R84 accept. An operand may still be out of range
(step (3)); `wellFormed` says which are. -/
inductive Instr where
  /-- `NOP` (43_sequencer_cmds.md R140). -/
  | nop
  /-- `PARAM_WR v, id, val` (41_params_locks.md R110). -/
  | paramWr (v : VoiceIx) (id : ParamId) (val : Byte)
  /-- `PARAM_RD v, id` (41_params_locks.md R111). -/
  | paramRd (v : VoiceIx) (id : ParamId)
  /-- `RESOLVE v, p, s, id` (41_params_locks.md R114). -/
  | resolve (v : VoiceIx) (p : PatternIx) (st : StepIx) (id : ParamId)
  /-- `LOCK_ST v, p, s, id, val` (41_params_locks.md R116). -/
  | lockSt (v : VoiceIx) (p : PatternIx) (st : StepIx) (id : ParamId) (val : Byte)
  /-- `LOCK_CLR v, p` (41_params_locks.md R117). -/
  | lockClr (v : VoiceIx) (p : PatternIx)
  /-- `LOCK_RMS v, p, s` (41_params_locks.md R118). -/
  | lockRms (v : VoiceIx) (p : PatternIx) (st : StepIx)
  /-- `LOCK_CPY v, p, q` (41_params_locks.md R119). -/
  | lockCpy (v : VoiceIx) (p : PatternIx) (q : PatternIx)
  /-- `LOCK_HAS v, p, s` (41_params_locks.md R120). -/
  | lockHas (v : VoiceIx) (p : PatternIx) (st : StepIx)
  /-- `NOTE_SET v, p, s, val` (42_patterns.md R127). -/
  | noteSet (v : VoiceIx) (p : PatternIx) (st : StepIx) (val : Byte)
  /-- `KEY_SET v, p, s, val` (42_patterns.md R128). -/
  | keySet (v : VoiceIx) (p : PatternIx) (st : StepIx) (val : Byte)
  /-- `NOTE_GET v, p, s` (42_patterns.md R129). -/
  | noteGet (v : VoiceIx) (p : PatternIx) (st : StepIx)
  /-- `PLEN_SET v, p, val` (42_patterns.md R130). -/
  | plenSet (v : VoiceIx) (p : PatternIx) (val : Byte)
  /-- `PRATE_SET v, p, val` (42_patterns.md R131). -/
  | prateSet (v : VoiceIx) (p : PatternIx) (val : Byte)
  /-- `PAT_DBL v, p` (42_patterns.md R132). -/
  | patDbl (v : VoiceIx) (p : PatternIx)
  /-- `PAT_CPY v, p, q` (42_patterns.md R133). -/
  | patCpy (v : VoiceIx) (p : PatternIx) (q : PatternIx)
  /-- `PAT_INFO v, p, sel` (42_patterns.md R134). -/
  | patInfo (v : VoiceIx) (p : PatternIx) (sel : BitVec 1)
  /-- `TYPE_SET v, val` (43_sequencer_cmds.md R141). -/
  | typeSet (v : VoiceIx) (val : Byte)
  /-- `PAT_SEL v, p` (43_sequencer_cmds.md R142). -/
  | patSel (v : VoiceIx) (p : PatternIx)
  /-- `GRID_TRIG v, s, m` (43_sequencer_cmds.md R143). -/
  | gridTrig (v : VoiceIx) (g : GridIx) (m : BitVec 2)
  /-- `GRID_NOTE v, s, val` (43_sequencer_cmds.md R144). -/
  | gridNote (v : VoiceIx) (g : GridIx) (val : Byte)
  /-- `GRID_RD v, s` (43_sequencer_cmds.md R145). -/
  | gridRd (v : VoiceIx) (g : GridIx)
  /-- `VOICE_RD v, sel` (43_sequencer_cmds.md R146). -/
  | voiceRd (v : VoiceIx) (sel : BitVec 2)
  /-- `PLAY on` (43_sequencer_cmds.md R148). -/
  | play (on : BitVec 1)
  /-- `SEL_VOICE v` (43_sequencer_cmds.md R149). -/
  | selVoice (v : VoiceIx)
  /-- `MODE_SET m` (43_sequencer_cmds.md R150). -/
  | modeSet (m : BitVec 3)
  /-- `TEMPO_SET bpm` (43_sequencer_cmds.md R151). -/
  | tempoSet (bpm : BitVec 16)
  /-- `NOTE_REQ note` (43_sequencer_cmds.md R152). -/
  | noteReq (note : Byte)
  /-- `SEQ_RD sel` (43_sequencer_cmds.md R153). -/
  | seqRd (sel : BitVec 2)
  /-- `POOL_RD i, w` (40_pool.md R105). -/
  | poolRd (ix : PoolIx) (w : BitVec 1)
  /-- `POOL_STAT` (40_pool.md R106). -/
  | poolStat
  /-- `DIAG_RD` (43_sequencer_cmds.md R154). -/
  | diagRd
  /-- `DIAG_CLR mask` (43_sequencer_cmds.md R155). -/
  | diagClr (mask : BitVec 4)
  /-- `SOFT_RESET` (43_sequencer_cmds.md R156). -/
  | softReset
  deriving DecidableEq, Repr

end Sys2Proof
end

