-- ==== Sys2Proof/Decode.lean ====
section
/-!
DEFINITION. Decoding a command word and encoding a command (30_encoding.md R81 to R89). `decode` is total on the 2^32
words and rejects by name; `encode` is written from the field pictures of R81 and R82. A word is one command word;
`wordOfPortBytes` is the only place where bytes appear, for a byte-serial link (20_memory.md R62).
-/

namespace Sys2Proof

/-- One row of the opcode map (30_encoding.md R85, R86): a word `w` is this command exactly when
`w &&& mask = bits`. -/
structure Row where
  mnemonic : String
  bits : Word
  mask : Word
  deriving DecidableEq, Repr

/-- Why a word is illegal (30_encoding.md R88 (a)): what decode step (1) or (2) of R84 found. -/
inductive Illegal where
  /-- `op` in 0x17..0x1E. -/
  | noSuchOpcode (op : BitVec 5)
  /-- `op` = 0x1F with `fn` in 11..15. -/
  | noSuchFunction (fn : BitVec 4)
  /-- A bit under the command's mask is wrong: a reserved field is not zero, or `SOFT_RESET` has the wrong key. -/
  | reservedBits (mnemonic : String)
  deriving DecidableEq, Repr

/-! The rows of 30_encoding.md R85 and R86, in the table's order. -/

/-- `NOP`, R140. -/
def rowNop : Row := ⟨"NOP", 0x00000000#32, 0xFFFFFFFF#32⟩

/-- `PARAM_WR v, id, val`, R110. -/
def rowParamWr : Row := ⟨"PARAM_WR", 0x08000000#32, 0xF87FE000#32⟩

/-- `PARAM_RD v, id`, R111. -/
def rowParamRd : Row := ⟨"PARAM_RD", 0x10000000#32, 0xF87FE0FF#32⟩

/-- `RESOLVE v, p, s, id`, R114. -/
def rowResolve : Row := ⟨"RESOLVE", 0x18000000#32, 0xF80000FF#32⟩

/-- `LOCK_ST v, p, s, id, val`, R116. -/
def rowLockSt : Row := ⟨"LOCK_ST", 0x20000000#32, 0xF8000000#32⟩

/-- `LOCK_CLR v, p`, R117. -/
def rowLockClr : Row := ⟨"LOCK_CLR", 0x28000000#32, 0xF807FFFF#32⟩

/-- `LOCK_RMS v, p, s`, R118. -/
def rowLockRms : Row := ⟨"LOCK_RMS", 0x30000000#32, 0xF8001FFF#32⟩

/-- `LOCK_CPY v, p, q`, R119. -/
def rowLockCpy : Row := ⟨"LOCK_CPY", 0x38000000#32, 0xF8061FFF#32⟩

/-- `LOCK_HAS v, p, s`, R120. -/
def rowLockHas : Row := ⟨"LOCK_HAS", 0x40000000#32, 0xF8001FFF#32⟩

/-- `NOTE_SET v, p, s, val`, R127. -/
def rowNoteSet : Row := ⟨"NOTE_SET", 0x48000000#32, 0xF8001F00#32⟩

/-- `KEY_SET v, p, s, val`, R128. -/
def rowKeySet : Row := ⟨"KEY_SET", 0x50000000#32, 0xF8001F00#32⟩

/-- `NOTE_GET v, p, s`, R129. -/
def rowNoteGet : Row := ⟨"NOTE_GET", 0x58000000#32, 0xF8001FFF#32⟩

/-- `PLEN_SET v, p, val`, R130. -/
def rowPlenSet : Row := ⟨"PLEN_SET", 0x60000000#32, 0xF807FF00#32⟩

/-- `PRATE_SET v, p, val`, R131. -/
def rowPrateSet : Row := ⟨"PRATE_SET", 0x68000000#32, 0xF807FF00#32⟩

/-- `PAT_DBL v, p`, R132. -/
def rowPatDbl : Row := ⟨"PAT_DBL", 0x70000000#32, 0xF807FFFF#32⟩

/-- `PAT_CPY v, p, q`, R133. -/
def rowPatCpy : Row := ⟨"PAT_CPY", 0x78000000#32, 0xF8061FFF#32⟩

/-- `PAT_INFO v, p, sel`, R134. -/
def rowPatInfo : Row := ⟨"PAT_INFO", 0x80000000#32, 0xF807FEFF#32⟩

/-- `TYPE_SET v, val`, R141. -/
def rowTypeSet : Row := ⟨"TYPE_SET", 0x88000000#32, 0xF87FFF00#32⟩

/-- `PAT_SEL v, p`, R142. -/
def rowPatSel : Row := ⟨"PAT_SEL", 0x90000000#32, 0xF807FFFF#32⟩

/-- `GRID_TRIG v, s, m`, R143. -/
def rowGridTrig : Row := ⟨"GRID_TRIG", 0x98000000#32, 0xF87E1FFC#32⟩

/-- `GRID_NOTE v, s, val`, R144. -/
def rowGridNote : Row := ⟨"GRID_NOTE", 0xA0000000#32, 0xF87E1F00#32⟩

/-- `GRID_RD v, s`, R145. -/
def rowGridRd : Row := ⟨"GRID_RD", 0xA8000000#32, 0xF87E1FFF#32⟩

/-- `VOICE_RD v, sel`, R146. -/
def rowVoiceRd : Row := ⟨"VOICE_RD", 0xB0000000#32, 0xF87FFCFF#32⟩

/-- `PLAY on`, R148. -/
def rowPlay : Row := ⟨"PLAY", 0xF8000000#32, 0xFFFFFFFE#32⟩

/-- `SEL_VOICE v`, R149. -/
def rowSelVoice : Row := ⟨"SEL_VOICE", 0xF8800000#32, 0xFFFFFFF0#32⟩

/-- `MODE_SET m`, R150. -/
def rowModeSet : Row := ⟨"MODE_SET", 0xF9000000#32, 0xFFFFFFF8#32⟩

/-- `TEMPO_SET bpm`, R151. -/
def rowTempoSet : Row := ⟨"TEMPO_SET", 0xF9800000#32, 0xFFFF0000#32⟩

/-- `NOTE_REQ note`, R152. -/
def rowNoteReq : Row := ⟨"NOTE_REQ", 0xFA000000#32, 0xFFFFFF00#32⟩

/-- `SEQ_RD sel`, R153. -/
def rowSeqRd : Row := ⟨"SEQ_RD", 0xFA800000#32, 0xFFFFFFFC#32⟩

/-- `POOL_RD i, w`, R105. -/
def rowPoolRd : Row := ⟨"POOL_RD", 0xFB000000#32, 0xFFFE0000#32⟩

/-- `POOL_STAT`, R106. -/
def rowPoolStat : Row := ⟨"POOL_STAT", 0xFB800000#32, 0xFFFFFFFF#32⟩

/-- `DIAG_RD`, R154. -/
def rowDiagRd : Row := ⟨"DIAG_RD", 0xFC000000#32, 0xFFFFFFFF#32⟩

/-- `DIAG_CLR mask`, R155. -/
def rowDiagClr : Row := ⟨"DIAG_CLR", 0xFC800000#32, 0xFFFFFFF0#32⟩

/-- `SOFT_RESET`, R156. -/
def rowSoftReset : Row := ⟨"SOFT_RESET", 0xFD05A5A5#32, 0xFFFFFFFF#32⟩

/-- The opcode map (30_encoding.md R85, R86). -/
def opcodeRows : List Row :=
  [rowNop, rowParamWr, rowParamRd, rowResolve, rowLockSt, rowLockClr, rowLockRms, rowLockCpy, rowLockHas, rowNoteSet, rowKeySet, rowNoteGet]
  ++ [rowPlenSet, rowPrateSet, rowPatDbl, rowPatCpy, rowPatInfo, rowTypeSet, rowPatSel, rowGridTrig, rowGridNote, rowGridRd, rowVoiceRd]
  ++ [rowPlay, rowSelVoice, rowModeSet, rowTempoSet, rowNoteReq, rowSeqRd, rowPoolRd, rowPoolStat, rowDiagRd, rowDiagClr, rowSoftReset]

/-- `op` = w[31:27] (30_encoding.md R81). -/
def fieldOp (w : Word) : BitVec 5 := w.extractLsb' 27 5

/-- `v` = w[26:23] (30_encoding.md R81). -/
def fieldV (w : Word) : VoiceIx := w.extractLsb' 23 4

/-- `p` = w[22:19] (30_encoding.md R81). -/
def fieldP (w : Word) : PatternIx := w.extractLsb' 19 4

/-- `s` = w[18:13] (30_encoding.md R81). -/
def fieldS (w : Word) : StepIx := w.extractLsb' 13 6

/-- The destination pattern `q` and the grid step: w[16:13] (30_encoding.md R81, R87). -/
def fieldQ (w : Word) : BitVec 4 := w.extractLsb' 13 4

/-- `id` = w[12:8] (30_encoding.md R81). -/
def fieldId (w : Word) : ParamId := w.extractLsb' 8 5

/-- `val` = w[7:0] (30_encoding.md R81). -/
def fieldVal (w : Word) : Byte := w.extractLsb' 0 8

/-- `fn` = w[26:23] of a format S word (30_encoding.md R82). -/
def fieldFn (w : Word) : BitVec 4 := w.extractLsb' 23 4

/-- The low n bits of a format S word's `imm` (30_encoding.md R82, R86). -/
def fieldImm (n : Nat) (w : Word) : BitVec n := w.extractLsb' 0 n

/-- Decode step (2) of 30_encoding.md R84: every bit under the row's mask must be the row's. -/
def accept (r : Row) (w : Word) (i : Instr) : Except Illegal Instr :=
  if w &&& r.mask = r.bits then .ok i else .error (.reservedBits r.mnemonic)

/-- The system commands, selected by `fn` (30_encoding.md R86). -/
def decodeSystem (w : Word) : Except Illegal Instr :=
  match fieldFn w with
  | 0#4 => accept rowPlay w (.play (fieldImm 1 w))
  | 1#4 => accept rowSelVoice w (.selVoice (fieldImm 4 w))
  | 2#4 => accept rowModeSet w (.modeSet (fieldImm 3 w))
  | 3#4 => accept rowTempoSet w (.tempoSet (fieldImm 16 w))
  | 4#4 => accept rowNoteReq w (.noteReq (fieldImm 8 w))
  | 5#4 => accept rowSeqRd w (.seqRd (fieldImm 2 w))
  | 6#4 => accept rowPoolRd w (.poolRd (fieldImm 16 w) (w.extractLsb' 16 1))
  | 7#4 => accept rowPoolStat w .poolStat
  | 8#4 => accept rowDiagRd w .diagRd
  | 9#4 => accept rowDiagClr w (.diagClr (fieldImm 4 w))
  | 10#4 => accept rowSoftReset w .softReset
  | fn => .error (.noSuchFunction fn)

/-- Decode steps (1) and (2) of 30_encoding.md R84: `op` (and `fn`) selects the command, then the bits under its mask
are checked. The operand ranges, step (3), are checked by each command's meaning. -/
def decode (w : Word) : Except Illegal Instr :=
  match fieldOp w with
  | 0x00#5 => accept rowNop w .nop
  | 0x01#5 => accept rowParamWr w (.paramWr (fieldV w) (fieldId w) (fieldVal w))
  | 0x02#5 => accept rowParamRd w (.paramRd (fieldV w) (fieldId w))
  | 0x03#5 => accept rowResolve w (.resolve (fieldV w) (fieldP w) (fieldS w) (fieldId w))
  | 0x04#5 => accept rowLockSt w (.lockSt (fieldV w) (fieldP w) (fieldS w) (fieldId w) (fieldVal w))
  | 0x05#5 => accept rowLockClr w (.lockClr (fieldV w) (fieldP w))
  | 0x06#5 => accept rowLockRms w (.lockRms (fieldV w) (fieldP w) (fieldS w))
  | 0x07#5 => accept rowLockCpy w (.lockCpy (fieldV w) (fieldP w) (fieldQ w))
  | 0x08#5 => accept rowLockHas w (.lockHas (fieldV w) (fieldP w) (fieldS w))
  | 0x09#5 => accept rowNoteSet w (.noteSet (fieldV w) (fieldP w) (fieldS w) (fieldVal w))
  | 0x0A#5 => accept rowKeySet w (.keySet (fieldV w) (fieldP w) (fieldS w) (fieldVal w))
  | 0x0B#5 => accept rowNoteGet w (.noteGet (fieldV w) (fieldP w) (fieldS w))
  | 0x0C#5 => accept rowPlenSet w (.plenSet (fieldV w) (fieldP w) (fieldVal w))
  | 0x0D#5 => accept rowPrateSet w (.prateSet (fieldV w) (fieldP w) (fieldVal w))
  | 0x0E#5 => accept rowPatDbl w (.patDbl (fieldV w) (fieldP w))
  | 0x0F#5 => accept rowPatCpy w (.patCpy (fieldV w) (fieldP w) (fieldQ w))
  | 0x10#5 => accept rowPatInfo w (.patInfo (fieldV w) (fieldP w) (w.extractLsb' 8 1))
  | 0x11#5 => accept rowTypeSet w (.typeSet (fieldV w) (fieldVal w))
  | 0x12#5 => accept rowPatSel w (.patSel (fieldV w) (fieldP w))
  | 0x13#5 => accept rowGridTrig w (.gridTrig (fieldV w) (fieldQ w) (w.extractLsb' 0 2))
  | 0x14#5 => accept rowGridNote w (.gridNote (fieldV w) (fieldQ w) (fieldVal w))
  | 0x15#5 => accept rowGridRd w (.gridRd (fieldV w) (fieldQ w))
  | 0x16#5 => accept rowVoiceRd w (.voiceRd (fieldV w) (w.extractLsb' 8 2))
  | 0x1F#5 => decodeSystem w
  | op => .error (.noSuchOpcode op)

/-- The word of a command (30_encoding.md R81, R82, R85, R86): its fields side by side, most significant first, with
every reserved field zero. -/
def encode : Instr → Word
  | .nop => 0x00000000#32
  | .paramWr v id val => 0x01#5 ++ v ++ 0#10 ++ id ++ val
  | .paramRd v id => 0x02#5 ++ v ++ 0#10 ++ id ++ 0#8
  | .resolve v p st id => 0x03#5 ++ v ++ p ++ st ++ id ++ 0#8
  | .lockSt v p st id val => 0x04#5 ++ v ++ p ++ st ++ id ++ val
  | .lockClr v p => 0x05#5 ++ v ++ p ++ 0#19
  | .lockRms v p st => 0x06#5 ++ v ++ p ++ st ++ 0#13
  | .lockCpy v p q => 0x07#5 ++ v ++ p ++ 0#2 ++ q ++ 0#13
  | .lockHas v p st => 0x08#5 ++ v ++ p ++ st ++ 0#13
  | .noteSet v p st val => 0x09#5 ++ v ++ p ++ st ++ 0#5 ++ val
  | .keySet v p st val => 0x0A#5 ++ v ++ p ++ st ++ 0#5 ++ val
  | .noteGet v p st => 0x0B#5 ++ v ++ p ++ st ++ 0#13
  | .plenSet v p val => 0x0C#5 ++ v ++ p ++ 0#11 ++ val
  | .prateSet v p val => 0x0D#5 ++ v ++ p ++ 0#11 ++ val
  | .patDbl v p => 0x0E#5 ++ v ++ p ++ 0#19
  | .patCpy v p q => 0x0F#5 ++ v ++ p ++ 0#2 ++ q ++ 0#13
  | .patInfo v p sel => 0x10#5 ++ v ++ p ++ 0#10 ++ sel ++ 0#8
  | .typeSet v val => 0x11#5 ++ v ++ 0#15 ++ val
  | .patSel v p => 0x12#5 ++ v ++ p ++ 0#19
  | .gridTrig v g m => 0x13#5 ++ v ++ 0#6 ++ g ++ 0#11 ++ m
  | .gridNote v g val => 0x14#5 ++ v ++ 0#6 ++ g ++ 0#5 ++ val
  | .gridRd v g => 0x15#5 ++ v ++ 0#6 ++ g ++ 0#13
  | .voiceRd v sel => 0x16#5 ++ v ++ 0#13 ++ sel ++ 0#8
  | .play on => 0x1F#5 ++ 0#4 ++ 0#22 ++ on
  | .selVoice v => 0x1F#5 ++ 1#4 ++ 0#19 ++ v
  | .modeSet m => 0x1F#5 ++ 2#4 ++ 0#20 ++ m
  | .tempoSet bpm => 0x1F#5 ++ 3#4 ++ 0#7 ++ bpm
  | .noteReq note => 0x1F#5 ++ 4#4 ++ 0#15 ++ note
  | .seqRd sel => 0x1F#5 ++ 5#4 ++ 0#21 ++ sel
  | .poolRd ix w => 0x1F#5 ++ 6#4 ++ 0#6 ++ w ++ ix
  | .poolStat => 0x1F#5 ++ 7#4 ++ 0#23
  | .diagRd => 0x1F#5 ++ 8#4 ++ 0#23
  | .diagClr mask => 0x1F#5 ++ 9#4 ++ 0#19 ++ mask
  | .softReset => 0x1F#5 ++ 10#4 ++ 0x05A5A5#23

/-- The row of a command (30_encoding.md R85, R86). -/
def rowOf : Instr → Row
  | .nop => rowNop
  | .paramWr _ _ _ => rowParamWr
  | .paramRd _ _ => rowParamRd
  | .resolve _ _ _ _ => rowResolve
  | .lockSt _ _ _ _ _ => rowLockSt
  | .lockClr _ _ => rowLockClr
  | .lockRms _ _ _ => rowLockRms
  | .lockCpy _ _ _ => rowLockCpy
  | .lockHas _ _ _ => rowLockHas
  | .noteSet _ _ _ _ => rowNoteSet
  | .keySet _ _ _ _ => rowKeySet
  | .noteGet _ _ _ => rowNoteGet
  | .plenSet _ _ _ => rowPlenSet
  | .prateSet _ _ _ => rowPrateSet
  | .patDbl _ _ => rowPatDbl
  | .patCpy _ _ _ => rowPatCpy
  | .patInfo _ _ _ => rowPatInfo
  | .typeSet _ _ => rowTypeSet
  | .patSel _ _ => rowPatSel
  | .gridTrig _ _ _ => rowGridTrig
  | .gridNote _ _ _ => rowGridNote
  | .gridRd _ _ => rowGridRd
  | .voiceRd _ _ => rowVoiceRd
  | .play _ => rowPlay
  | .selVoice _ => rowSelVoice
  | .modeSet _ => rowModeSet
  | .tempoSet _ => rowTempoSet
  | .noteReq _ => rowNoteReq
  | .seqRd _ => rowSeqRd
  | .poolRd _ _ => rowPoolRd
  | .poolStat => rowPoolStat
  | .diagRd => rowDiagRd
  | .diagClr _ => rowDiagClr
  | .softReset => rowSoftReset

/-- The mnemonic of a command, as spec/opcode_table.json spells it. -/
def mnemonic (i : Instr) : String := (rowOf i).mnemonic

/-- The command word that the host presents for an instruction of `nbits` bits numbered as spec/opcode_table.json
numbers them: bits from `nbits` on are zero. Every command is one 32-bit word (30_encoding.md R89). -/
def portWord (nbits w : Nat) : Word := BitVec.ofNat 32 (w % 2 ^ nbits)

/-- The instruction that the decoder reads from an instruction's bits. -/
def decodeTableWord (nbits w : Nat) : Option Instr :=
  match decode (portWord nbits w) with
  | .ok i => some i
  | .error _ => none

/-- A word carried over a byte-serial link, first byte first, in the byte order of `PORT_BYTE_ORDER`
(20_memory.md R62: reference little, least significant byte first). -/
def wordOfPortBytes (little : Bool) (b0 b1 b2 b3 : Byte) : Word :=
  if little then b3 ++ b2 ++ b1 ++ b0 else b0 ++ b1 ++ b2 ++ b3

end Sys2Proof
end

