-- ==== Sys2Proof/Config.lean ====
section
/-!
DEFINITION. What one implementation of the hardware fixes: the structural numbers of 00_scope.md R5, and the OPEN
parameters of 92_eei_decisions.md section 1 as the fields of `Config`.
-/

namespace Sys2Proof

/-- `N_VOICES` (00_scope.md R5). -/
def nVoices : Nat := 16

/-- `N_RENDER`: voices the render loop renders and mixes (00_scope.md R5). -/
def nRender : Nat := 6

/-- `N_ADDR`: voices the source calls addressable; no rule depends on it (00_scope.md R5, 90_conflicts.md C3). -/
def nAddr : Nat := 8

/-- `N_PATTERNS` (00_scope.md R5). -/
def nPatterns : Nat := 16

/-- `MAX_STEPS`: step slots of a pattern (00_scope.md R5). -/
def maxSteps : Nat := 64

/-- `GRID_STEPS`: steps of the trigger grid (00_scope.md R5). -/
def gridSteps : Nat := 16

/-- `BLOCK_N`: frames of an audio block (00_scope.md R5). -/
def blockN : Nat := 128

/-- `SAMPLE_RATE`: frames a second (00_scope.md R5). -/
def sampleRate : Nat := 44100

/-- `STEPS_PER_BEAT` (00_scope.md R5; 92_eei_decisions.md D22). -/
def stepsPerBeat : Nat := 4

/-- `N_PARAMS`: logical parameter ids in use, 0..26 (00_scope.md R5). -/
def nParams : Nat := 27

/-- `SENTINEL`: the pool index that means "no record" (00_scope.md R5; 20_memory.md R61). -/
def sentinel : PoolIx := 0xFFFF#16

/-- `OCT`: one octave in pitch units, 12 * 128 (44_oscillator.md R167). -/
def octave : Nat := 1536

/-- The OPEN parameter `ENV_COUNT` (45_envelope.md R183): the reference mapping, or the k-th mapping that the spec does
not give. DESIGN CHOICE, log 2. -/
inductive EnvMap where
  | reference
  | custom (k : Nat)
  deriving DecidableEq, Repr

/-- The OPEN parameter `OSC_WAVE` (44_oscillator.md R170): the reference function, or the k-th function that the spec
does not give. DESIGN CHOICE, log 2. -/
inductive Waveform where
  | reference
  | custom (k : Nat)
  deriving DecidableEq, Repr

/-- The OPEN parameter `PORT_BYTE_ORDER` (20_memory.md R62), used by no rule. -/
inductive ByteOrder where
  | little
  | big
  deriving DecidableEq, Repr

/-- The OPEN parameters of one implementation (00_scope.md R5; 92_eei_decisions.md section 1). -/
structure Config where
  /-- `POOL_C`: a power of two, 2..32768. -/
  poolC : Nat
  /-- `MIX_COEFF`: Q15, 0..32767. -/
  mixCoeff : BitVec 15
  /-- `ENV_HOLD`: extra frames in Hold. -/
  envHold : BitVec 32
  /-- `ENV_COUNT`. -/
  envMap : EnvMap
  /-- `INC_LUT[0..12]`. -/
  incLut : Vector Word 13
  /-- `LUT_ORIGIN`: the pitch of table entry 0. -/
  lutOrigin : Nat
  /-- `OSC_WAVE`. -/
  wave : Waveform
  /-- `PORT_BYTE_ORDER`. -/
  portByteOrder : ByteOrder
  deriving DecidableEq, Repr

/-- An `ENV_COUNT` the spec does not give: for the k-th of them and a parameter byte, the frame count less one, so that
the count is 1..65536 as 92_eei_decisions.md section 1 demands. A free value: no body (log 2). -/
opaque Config.customEnvCount : Nat → Byte → Fin 65536

/-- An `OSC_WAVE` the spec does not give: for the k-th of them, a pure function of shape, phase, timbre and color with
an i16 result, as 44_oscillator.md R170 demands. A free value: no body (log 2). -/
opaque Config.customWave : Nat → Byte → Word → Byte → Byte → Sample

/-- Entry i of the increment table; the table has 13 entries and `ComputePhaseIncrement` reads no other when `valid`
holds (log 17). -/
def Config.lutEntry (c : Config) (i : Nat) : Word := c.incLut[i]?.getD 0#32

/-- The constraints of 92_eei_decisions.md section 1 on the OPEN parameters. -/
abbrev Config.valid (c : Config) : Prop :=
  (∃ k ∈ List.range 15, c.poolC = 2 ^ (k + 1))
  ∧ c.envHold.toNat < 2 ^ 32 - 1
  ∧ (∀ i ∈ List.range 12, c.lutEntry i ≤ c.lutEntry (i + 1))
  ∧ (c.lutEntry 12).toNat = 2 * (c.lutEntry 0).toNat
  ∧ c.lutOrigin + octave > 16383

end Sys2Proof
end

