-- ==== Sys2Proof/Machine/Operands.lean ====
section
/-!
DEFINITION. The operand checks of 30_encoding.md R88 (b) and the symbolic parameter ids of 10_state.md R30.
An operand is the unsigned value of its field (R87); the checks are made before anything is read or written (R84).
-/

namespace Sys2Proof.Machine

/-- Ids 0..26 are in use; 27..31 are reserved (10_state.md R30). -/
def paramInUse (id : ParamId) : Bool := id.toNat < nParams

/-- A pattern length is 1..64 (42_patterns.md R130). -/
def lengthInRange (val : Byte) : Bool := 1 ≤ val.toNat && val.toNat ≤ maxSteps

/-- An instrument type is 0..4 (43_sequencer_cmds.md R141). -/
def typeInRange (val : Byte) : Bool := val.toNat ≤ 4

/-- `GRID_TRIG` mode 3 is refused (43_sequencer_cmds.md R143). -/
def gridModeInRange (m : BitVec 2) : Bool := m != 3#2

/-- A tempo is 1..65535 (43_sequencer_cmds.md R151). -/
def tempoInRange (bpm : BitVec 16) : Bool := bpm != 0#16

/-- A pool index is below `POOL_C`; the sentinel is not (40_pool.md R103, R105). -/
def poolIxInRange (c : Config) (i : PoolIx) : Bool := i.toNat < c.poolC

/-- `VOLUME` (10_state.md R30). -/
def idVolume : ParamId := 0#5

/-- `CUTOFF` (10_state.md R30). -/
def idCutoff : ParamId := 2#5

/-- `RESONANCE` (10_state.md R30). -/
def idResonance : ParamId := 3#5

/-- `ENV1_ATTACK` (10_state.md R30). -/
def idEnv1Attack : ParamId := 6#5

/-- `ENV1_DECAY` (10_state.md R30). -/
def idEnv1Decay : ParamId := 7#5

/-- `TYPE_A`: the shape selector of a `SYNTH` voice (10_state.md R30, R31). -/
def idTypeA : ParamId := 24#5

/-- `TYPE_B`: the timbre of a `SYNTH` voice (10_state.md R30, R31). -/
def idTypeB : ParamId := 25#5

/-- `TYPE_C`: the color of a `SYNTH` voice (10_state.md R30, R31). -/
def idTypeC : ParamId := 26#5

/-- The symbolic names of the parameter ids, ids 0 to 26 in order (10_state.md R30; 30_encoding.md R91). -/
def paramNames : List String :=
  ["VOLUME", "PAN", "CUTOFF", "RESONANCE", "PORTAMENTO", "FINETUNE", "ENV1_ATTACK", "ENV1_DECAY", "ENV1_TARGET",
   "ENV1_DEPTH", "ENV2_ATTACK", "ENV2_DECAY", "ENV2_TARGET", "ENV2_DEPTH"]
  ++ ["LFO_RATE", "LFO_DEPTH", "LFO_TARGET", "RETRIG_SPEED", "RETRIG_LENGTH", "RETRIG_FADE", "DELAY_SEND",
   "REVERB_SEND", "COND_MODE", "COND_DATA", "TYPE_A", "TYPE_B", "TYPE_C"]

end Sys2Proof.Machine
end

