-- ==== Sys2Proof/Machine/Reference.lean ====
section
/-!
DEFINITION. The reference values of the OPEN parameters (92_eei_decisions.md section 1; 44_oscillator.md R168).
-/

namespace Sys2Proof.Machine

/-- The reference `INC_LUT[0..12]` (44_oscillator.md R168). -/
def referenceIncLut : Vector Word 13 :=
  #v[647154682#32, 685636502#32, 726406570#32, 769600954#32, 815363808#32, 863847862#32, 915214930#32,
     969636440#32, 1027294024#32, 1088380106#32, 1153098554#32, 1221665362#32, 1294309364#32]

/-- The reference implementation, the one of the spec's test vectors (00_scope.md R5; 95_test_vectors.md). DESIGN CHOICE,
log 1: the machine that `State.reset` starts. -/
def referenceConfig : Config where
  poolC := 256
  mixCoeff := 5461#15
  envHold := 0#32
  envMap := .reference
  incLut := referenceIncLut
  lutOrigin := 14848
  wave := .reference
  portByteOrder := .little

end Sys2Proof.Machine
end

