-- ==== Sys2Proof/Machine/Arith.lean ====
section
/-!
DEFINITION. The arithmetic primitives of 00_scope.md R7 and 47_gain_mixer.md R197, R198: exact on the integers, narrowed
only where a rule says so.
-/

namespace Sys2Proof.Machine

/-- `asr(v, n)`: floor(v / 2^n), rounding toward minus infinity (00_scope.md R7). -/
def asr (v : Int) (n : Nat) : Int := v >>> n

/-- `sat16(v)` (00_scope.md R7). -/
def sat16 (v : Int) : Int := if v < -32768 then -32768 else if 32767 < v then 32767 else v

/-- `clamp15(v)` (00_scope.md R7). -/
def clamp15 (v : Int) : Int := if v < -32767 then -32767 else if 32767 < v then 32767 else v

/-- `satmul_q15(a, b)` (47_gain_mixer.md R197). -/
def satmulQ15 (a b : Int) : Int := sat16 (asr (a * b) 15)

/-- `byte_to_q15(b)` = `(b << 7) | (b >> 1)`, a 15-bit coefficient (47_gain_mixer.md R198). -/
def byteToQ15 (b : Byte) : BitVec 15 := (b.setWidth 15 <<< 7) ||| (b >>> 1).setWidth 15

/-- `ceil_div(a, b)`: the least q with q * b at least a, for positive b (00_scope.md R7). -/
def ceilDiv (a b : Nat) : Nat := (a + b - 1) / b

/-- The i16 of a value that a rule has already brought into range (00_scope.md R7). -/
def toSample (v : Int) : Sample := BitVec.ofInt 16 v

end Sys2Proof.Machine
end

