-- ==== Sys2Proof/Machine/Coefficients.lean ====
section
/-!
DEFINITION. How parameter bytes and the tempo become the latched coefficients: `ENV_COUNT` and `EnvInc`
(45_envelope.md R183), the filter's coefficients (46_filter.md R191), the step period (43_sequencer_cmds.md R151).
-/

namespace Sys2Proof.Machine

/-- `ENV_COUNT(b)`: the frames of an attack or a decay, OPEN (45_envelope.md R183; log 2). -/
def envCount (c : Config) (b : Byte) : Nat :=
  match c.envMap with
  | .reference => max 1 (128 * b.toNat)
  | .custom k => (Config.customEnvCount k b).val + 1

/-- `EnvInc(b) = ceil_div(2^32, ENV_COUNT(b))`, 33 bits (45_envelope.md R183). -/
def envInc (c : Config) (b : Byte) : BitVec 33 := BitVec.ofNat 33 (ceilDiv (2 ^ 32) (envCount c b))

/-- `dCoef = 32767 - 127 * resonance` (46_filter.md R191). -/
def dampingOf (b : Byte) : BitVec 15 := BitVec.ofNat 15 (32767 - 127 * b.toNat)

/-- `samplesPerStep` of a tempo: `max(1, (SAMPLE_RATE * 60) div (bpm * STEPS_PER_BEAT))` (43_sequencer_cmds.md R151). -/
def samplesPerStepOf (bpm : BitVec 16) : BitVec 32 :=
  BitVec.ofNat 32 (max 1 (sampleRate * 60 / (bpm.toNat * stepsPerBeat)))

end Sys2Proof.Machine
end

