-- ==== Sys2Proof/Machine/Oscillator.lean ====
section
/-!
DEFINITION. The oscillator's pure functions: `ComputePhaseIncrement` (44_oscillator.md R167) and `OSC_WAVE` with its
reference design (R170 to R175).
-/

namespace Sys2Proof.Machine

/-- The right-shift count k of `ComputePhaseIncrement` (44_oscillator.md R167). -/
def octaveShift (c : Config) (p : BitVec 14) : Nat := (c.lutOrigin + octave - 1 - p.toNat) / octave

/-- The octave-reduced pitch less the table's origin, `q - LUT_ORIGIN` (44_oscillator.md R167). -/
def reducedPitch (c : Config) (p : BitVec 14) : Nat := p.toNat + octave * octaveShift c p - c.lutOrigin

/-- The interpolated table value at an octave-reduced pitch (44_oscillator.md R167). -/
def interpolate (c : Config) (q : Nat) : Int :=
  let a : Int := (c.lutEntry (q / 128)).toNat
  let b : Int := (c.lutEntry (q / 128 + 1)).toNat
  a + asr ((b - a) * ((q % 128 : Nat) : Int)) 7

/-- `ComputePhaseIncrement(p)` (44_oscillator.md R167). -/
def computePhaseIncrement (c : Config) (p : BitVec 14) : BitVec 32 :=
  BitVec.ofInt 32 (asr (interpolate c (reducedPitch c p)) (octaveShift c p))

/-- The CORDIC start value x0 (44_oscillator.md R172). -/
def cordicX0 : Int := 326011462

/-- `ATAN[0..15]` (44_oscillator.md R172). -/
def cordicAtan : List Int :=
  [536870912, 316933406, 167458907, 85004756, 42667331, 21354465, 10679838, 5340245,
   2670163, 1335087, 667544, 333772, 166886, 83443, 41722, 20861]

/-- Steps i, i+1, … of the rotation, one for each angle left; all three new values come from the old three
(44_oscillator.md R172). -/
def cordicFrom (i : Nat) (x y z : Int) : List Int → Int × Int
  | [] => (x, y)
  | a :: rest =>
    if 0 ≤ z then cordicFrom (i + 1) (x - asr y i) (y + asr x i) (z - a) rest
    else cordicFrom (i + 1) (x + asr y i) (y - asr x i) (z + a) rest

/-- `Cordic(r)`: (X, Y) near (cos, sin) (44_oscillator.md R172). -/
def cordic (r : Nat) : Int × Int := cordicFrom 0 cordicX0 0 r cordicAtan

/-- Shape 0, sine by quadrant folding (44_oscillator.md R171). -/
def sineWave (phase : Word) : Int :=
  let xy := cordic (phase.extractLsb' 0 30).toNat
  let co := clamp15 (asr (xy.1 + 8192) 14)
  let si := clamp15 (asr (xy.2 + 8192) 14)
  match (phase.extractLsb' 30 2).toNat with
  | 0 => si
  | 1 => co
  | 2 => -si
  | _ => -co

/-- Shape 1, sawtooth (44_oscillator.md R173). -/
def sawWave (phase : Word) : Int := (phase.extractLsb' 16 16 ^^^ 0x8000#16).toInt

/-- Shape 2, pulse with its width from `timbre` (44_oscillator.md R174). -/
def pulseWave (phase : Word) (timbre : Byte) : Int :=
  if phase.toNat < (128 - timbre.toNat / 2) * 2 ^ 24 then 32767 else -32767

/-- Shape 3, triangle (44_oscillator.md R175). -/
def triangleWave (phase : Word) : Int :=
  let t : Int := (phase.extractLsb' 16 16).toNat
  if t < 32768 then -32768 + 2 * t else 98303 - 2 * t

/-- The reference `OSC_WAVE`; `color` is used by no shape and shapes 4..255 give 0 (44_oscillator.md R170, R175). -/
def referenceWave (shape : Byte) (phase : Word) (timbre : Byte) : Sample :=
  match shape.toNat with
  | 0 => toSample (sineWave phase)
  | 1 => toSample (sawWave phase)
  | 2 => toSample (pulseWave phase timbre)
  | 3 => toSample (triangleWave phase)
  | _ => 0#16

/-- `OSC_WAVE(shape, phase, timbre, color)`, OPEN (44_oscillator.md R170; log 2). -/
def oscWave (c : Config) (shape : Byte) (phase : Word) (timbre color : Byte) : Sample :=
  match c.wave with
  | .reference => referenceWave shape phase timbre
  | .custom k => Config.customWave k shape phase timbre color

end Sys2Proof.Machine
end

