-- ==== Sys2Proof/Machine/Memory.lean ====
section
/-!
DEFINITION. A memory space held as a list of (index, element) pairs in ONE canonical form: indices strictly rising, all
inside the space, and no entry equal to what an unlisted index reads as. `unlisted` is the space's reset contents
(10_state.md R48; log 9). A space of bytes is a list of `Host.Cell`.
-/

namespace Sys2Proof.Machine

/-- A sparse space of elements. -/
abbrev Memory (α : Type) := List (Nat × α)

/-- The element at an index. -/
def Memory.read {α : Type} (unlisted : Nat → α) : Memory α → Nat → α
  | [], a => unlisted a
  | (b, x) :: m, a => if a = b then x else Memory.read unlisted m a

/-- The space with nothing listed at an index. -/
def Memory.erase {α : Type} (m : Memory α) (a : Nat) : Memory α := m.filter fun e => e.1 != a

/-- An entry put before the first greater index. -/
def Memory.insert {α : Type} : Memory α → Nat → α → Memory α
  | [], a, x => [(a, x)]
  | (b, y) :: m, a, x => if a < b then (a, x) :: (b, y) :: m else (b, y) :: Memory.insert m a x

/-- The space with one element written; writing what an unlisted index reads as removes the entry. -/
def Memory.write {α : Type} [DecidableEq α] (unlisted : Nat → α) (m : Memory α) (a : Nat) (x : α) : Memory α :=
  if x = unlisted a then Memory.erase m a else Memory.insert (Memory.erase m a) a x

/-- The canonical form over a space of `size` elements: `low` is the least index that may come next. -/
def Memory.wfFrom {α : Type} [DecidableEq α] (unlisted : Nat → α) (size : Nat) : Nat → Memory α → Bool
  | _, [] => true
  | low, (b, y) :: m =>
    decide (low ≤ b) && decide (b < size) && decide (y ≠ unlisted b) && Memory.wfFrom unlisted size (b + 1) m

/-- The canonical form of a space of `size` elements. -/
def Memory.wf {α : Type} [DecidableEq α] (unlisted : Nat → α) (size : Nat) (m : Memory α) : Bool :=
  Memory.wfFrom unlisted size 0 m

end Sys2Proof.Machine
end

