-- ==== Sys2Proof/Machine/Registers.lean ====
section
/-!
DEFINITION. The registers and memory spaces of the TDM voice engine: `Engine` has exactly the components of 10_state.md
R20.
-/

namespace Sys2Proof.Machine

/-- The instrument types (10_state.md R22). Codes 5 to 7 can never be held (log 10). -/
inductive InstrType where
  | synth
  | sample
  | midi
  | drum
  | global
  deriving DecidableEq, Repr

/-- The envelope segments (10_state.md R25). -/
inductive Segment where
  | attack
  | hold
  | decay
  | dead
  deriving DecidableEq, Repr

/-- The instrument registers `x[v]` of one voice (10_state.md R21 to R27). -/
structure Instrument where
  /-- `type` (R22). -/
  kind : InstrType
  /-- 7 integer bits of semitones, 7 fraction bits (R23). -/
  pitch : BitVec 14
  /-- Added to the phase every frame (R24). -/
  phaseInc : BitVec 32
  /-- 2^32 is one cycle (R24). -/
  oscPhase : BitVec 32
  /-- The envelope's segment (R25). -/
  seg : Segment
  /-- The envelope's phase accumulator (R25). -/
  envPhase : BitVec 32
  /-- The filter's low-pass state, i16 (R26). -/
  low : Sample
  /-- The filter's band-pass state, i16 (R26). -/
  band : Sample
  /-- Latched shape selector (R27). -/
  shape : Byte
  /-- Latched first timbre parameter (R27). -/
  timbre : Byte
  /-- Latched second timbre parameter (R27). -/
  color : Byte
  /-- Latched filter frequency coefficient, Q15 (R27). -/
  fCoef : BitVec 15
  /-- Latched filter damping coefficient, Q15 (R27). -/
  dCoef : BitVec 15
  /-- Latched volume gain, Q15 (R27). -/
  volQ15 : BitVec 15
  /-- Latched Attack increment, 1..2^32 (R27). -/
  attackInc : BitVec 33
  /-- Latched Decay increment, 1..2^32 (R27). -/
  decayInc : BitVec 33
  deriving DecidableEq, Repr

/-- A record of the lock pool (10_state.md R35). -/
structure LockRecord where
  param : Byte
  step : Byte
  value : Byte
  next : PoolIx
  deriving DecidableEq, Repr

/-- The whole state of the hardware, the components of 10_state.md R20 and nothing else. A field named `…Mem` is a
memory space in the canonical form of `Memory` (20_memory.md R60); the accessors of Machine/Ops.lean read it. -/
structure Engine where
  /-- `x[v]` (R21). -/
  x : Vector Instrument 16
  /-- `par[v][id]` (R30). -/
  parMem : Memory Byte
  /-- `curPattern[v]` (R32). -/
  curPattern : Vector PatternIx 16
  /-- `pat[v][p].note[s]` (R33). -/
  noteMem : Memory Byte
  /-- `pat[v][p].key[s]` (R33). -/
  keyMem : Memory Byte
  /-- `pat[v][p].length` (R33). -/
  lengthMem : Memory (BitVec 7)
  /-- `pat[v][p].rate` (R33). -/
  rateMem : Memory Byte
  /-- `pat[v][p].noteCount` (R33; its width: log 8). -/
  noteCountMem : Memory (BitVec 7)
  /-- `lockHead[v][p]` (R34). -/
  lockHeadMem : Memory PoolIx
  /-- `pool[i]` (R35). -/
  poolMem : Memory LockRecord
  /-- Head of the free list (R35). -/
  freeHead : PoolIx
  /-- Records on the free list (R35). -/
  freeCount : PoolIx
  /-- The sequencer position, this hardware's program counter (R36). -/
  curStep : GridIx
  /-- Frames until the next tick (R36). -/
  countdown : BitVec 32
  /-- The step most recently played (R37). -/
  playStep : GridIx
  /-- Whether `playStep` is a step context (R37). -/
  playValid : Bool
  /-- Playing or not (R38). -/
  playing : Bool
  /-- The voice a manual note strikes (R39). -/
  selVoice : VoiceIx
  /-- Bit 0 sound-select, bit 1 write, bit 2 live-write (R40). -/
  mode : BitVec 3
  /-- `trig[v][g]` (R41). -/
  trigMem : Memory Bool
  /-- `gnote[v][g]` (R41). -/
  gnoteMem : Memory Byte
  /-- Beats per minute (R42). -/
  tempo : BitVec 16
  /-- The step period in frames (R42). -/
  samplesPerStep : BitVec 32
  /-- The manual note request (R43). -/
  pendingNote : Bool
  /-- The note to strike (R43). -/
  pendingNoteValue : Byte
  /-- `DIAG`: bit 0 POOL_EXHAUSTED, 1 LIST_CYCLE, 2 ILLEGAL_CMD, 3 BAD_OPERAND (R44). -/
  diag : BitVec 4
  /-- 1 from BlockStart until BlockEnd (R46). -/
  busy : Bool
  /-- Frames of the current block already produced, 0..`BLOCK_N` (R46). -/
  frameIdx : Fin 129
  /-- `AUDIO[n][c]` (20_memory.md R71). -/
  audioMem : Memory Sample
  deriving DecidableEq, Repr

end Sys2Proof.Machine
end

