-- ==== Sys2Proof/Machine/Spaces.lean ====
section
/-!
DEFINITION. The layout of each memory space as a list of indices, and what an unlisted index reads as: the reset
contents of 10_state.md R48 (20_memory.md R60; log 9).
-/

namespace Sys2Proof.Machine

/-- The place of `par[v][id]` in the space PARAM. -/
def parIx (v : VoiceIx) (id : ParamId) : Nat := v.toNat * 32 + id.toNat

/-- The place of a pattern's scalars and lock head in the space PAT. -/
def patIx (v : VoiceIx) (p : PatternIx) : Nat := v.toNat * 16 + p.toNat

/-- The place of `pat[v][p].note[s]` and `.key[s]` in the space PAT. -/
def slotIx (v : VoiceIx) (p : PatternIx) (st : StepIx) : Nat := patIx v p * 64 + st.toNat

/-- The place of `trig[v][g]` and `gnote[v][g]` in the space GRID. -/
def gridIx (v : VoiceIx) (g : GridIx) : Nat := v.toNat * 16 + g.toNat

/-- The place of channel 0 (left) or 1 (right) of a frame in the space AUDIO (20_memory.md R71). -/
def audioIx (n : Nat) (right : Bool) : Nat := 2 * n + (if right then 1 else 0)

/-- The column "reset" of 10_state.md R30, by place. -/
def parReset (a : Nat) : Byte :=
  match a % 32 with
  | 0 => 255#8
  | 2 => 255#8
  | 7 => 32#8
  | _ => 0#8

/-- Notes, keys, rates and grid notes are 0 after reset (10_state.md R48). -/
def byteReset (_ : Nat) : Byte := 0#8

/-- `length` is 16 after reset (10_state.md R48). -/
def lengthReset (_ : Nat) : BitVec 7 := 16#7

/-- `noteCount` is 0 after reset (10_state.md R48). -/
def noteCountReset (_ : Nat) : BitVec 7 := 0#7

/-- Every lock head is the sentinel after reset (10_state.md R48). -/
def lockHeadReset (_ : Nat) : PoolIx := sentinel

/-- Every trigger bit is 0 after reset (10_state.md R48). -/
def trigReset (_ : Nat) : Bool := false

/-- The AUDIO block before anything is written: DESIGN CHOICE 0, log 5 (10_state.md R48 leaves it unspecified). -/
def audioReset (_ : Nat) : Sample := 0#16

/-- `pool[i].next` after reset: the free list in ascending order (10_state.md R48). -/
def nextReset (c : Config) (i : Nat) : PoolIx :=
  if i + 1 < c.poolC then BitVec.ofNat 16 (i + 1) else sentinel

end Sys2Proof.Machine
end

