-- ==== Sys2Proof/Machine/ResetValues.lean ====
section
/-!
DEFINITION. The reset values of the hardware's state (10_state.md R48; 70_reset_and_hazards.md R245, R246).
-/

namespace Sys2Proof.Machine

/-- `pool[i]` after reset (10_state.md R48). -/
def recordReset (c : Config) (i : Nat) : LockRecord := ⟨0#8, 0#8, 0#8, nextReset c i⟩

/-- The instrument registers after reset (10_state.md R48): the latched copies are those of a pull of the reset
parameter file with no step context (log 14). -/
def Instrument.reset (c : Config) : Instrument where
  kind := .synth
  pitch := 0#14
  phaseInc := computePhaseIncrement c 0#14
  oscPhase := 0#32
  seg := .dead
  envPhase := 0#32
  low := 0#16
  band := 0#16
  shape := 0#8
  timbre := 0#8
  color := 0#8
  fCoef := byteToQ15 255#8
  dCoef := dampingOf 0#8
  volQ15 := byteToQ15 255#8
  attackInc := envInc c 0#8
  decayInc := envInc c 32#8

/-- The hardware after reset (10_state.md R48): every memory space lists nothing. -/
def Engine.reset (c : Config) : Engine where
  x := Vector.replicate 16 (Instrument.reset c)
  parMem := []
  curPattern := Vector.replicate 16 0#4
  noteMem := []
  keyMem := []
  lengthMem := []
  rateMem := []
  noteCountMem := []
  lockHeadMem := []
  poolMem := []
  freeHead := 0#16
  freeCount := BitVec.ofNat 16 c.poolC
  curStep := 0#4
  countdown := 1#32
  playStep := 0#4
  playValid := false
  playing := false
  selVoice := 0#4
  mode := 0#3
  trigMem := []
  gnoteMem := []
  tempo := 120#16
  samplesPerStep := samplesPerStepOf 120#16
  pendingNote := false
  pendingNoteValue := 0#8
  diag := 0#4
  busy := false
  frameIdx := 0
  audioMem := []

end Sys2Proof.Machine
end

