-- ==== Sys2Proof/Machine/State.lean ====
section
/-!
DEFINITION. The state of the model: the hardware's (`Engine`, 10_state.md R20), the implementation's parameters, the
schedule of the outside world and the command port's last response; the reasons to stop; reset (R48, R245).
-/

namespace Sys2Proof.Machine

/-- A response of the command port: a 4-bit status and 32 bits of data (30_encoding.md R83). `respond` writes it, with
the code of one of the five statuses (`statusCode`). -/
structure Response where
  status : BitVec 4
  data : Word
  deriving DecidableEq, Repr

/-- What moves next (00_scope.md R6; 20_memory.md R66; log 3). -/
inductive Input where
  /-- The host presents a command word (30_encoding.md R80). -/
  | command (w : Word)
  /-- The transport's period signal, taken with BlockStart (60_exceptions.md R228). -/
  | period
  /-- The render agent takes its next step, Frame or BlockEnd (48_render_sequencer.md R213). -/
  | render
  /-- The reset input (70_reset_and_hazards.md R245 (1); log 13). -/
  | hardReset
  deriving DecidableEq, Repr

/-- The state of the model. -/
structure State where
  /-- The hardware's state (10_state.md R20). -/
  hw : Engine
  /-- The parameters of this implementation, never written (00_scope.md R5; log 1). -/
  cfg : Config
  /-- The schedule: what the outside world does next, first first. Where it is empty the render agent finishes a block
  in progress, else the machine waits (log 3). -/
  inputs : List Input
  /-- The last response of the command port, none before the first (30_encoding.md R83; log 4). -/
  response : Option Response
  deriving DecidableEq, Repr

/-- Why the machine stops with a fault. -/
inductive Fault where
  /-- Raised by `allocate` (so by `LOCK_ST` and `LOCK_CPY`) where `freeHead` is neither the sentinel nor below `POOL_C`:
  such an index names nothing (20_memory.md R61), and no reachable state holds one (10_state.md R49). Safe: log 7. -/
  | poolIndexOutOfRange
  deriving DecidableEq, Repr

/-- Why the model has no step. -/
inductive Refusal where
  /-- Raised by an arm of `exec` whose instruction has no meaning yet. Safe. -/
  | notModelled (mnemonic : String)
  /-- Raised by a period signal while `busy` = 1, a missed deadline: no step exists (93_implementation_defined.md U2;
  48_render_sequencer.md R213). Safe: log 6. -/
  | periodWhileBusy
  deriving DecidableEq, Repr

/-- The machine right after reset, of an implementation with the given parameters. -/
def State.resetOf (c : Config) : State where
  hw := Engine.reset c
  cfg := c
  inputs := []
  response := none

/-- The machine right after reset (10_state.md R48), with the reference parameters (log 1). -/
def State.reset : State := State.resetOf referenceConfig

end Sys2Proof.Machine
end

