-- ==== Sys2Proof/Machine/Ops.lean ====
section
/-!
DEFINITION. The named operations over registers and memory spaces, through which every command and render step reads and
writes; raising a diagnostic, which is what this hardware has for taking an exception (60_exceptions.md R224), and the
two refusals made of it (30_encoding.md R84); responding (R83); the pool's primitives (40_pool.md R101 to R103).
No cause transfers control, saves state or has a return (60_exceptions.md R227).
-/

namespace Sys2Proof.Machine

/-! Registers and memory spaces (10_state.md R21 to R43; 20_memory.md R60). -/

/-- `x[v]`. -/
def Engine.voice (e : Engine) (v : VoiceIx) : Instrument := e.x[v.toNat]

/-- Write `x[v]`. -/
def Engine.setVoice (e : Engine) (v : VoiceIx) (r : Instrument) : Engine := { e with x := e.x.set v.toNat r }

/-- `curPattern[v]`. -/
def Engine.curPat (e : Engine) (v : VoiceIx) : PatternIx := e.curPattern[v.toNat]

/-- Write `curPattern[v]`. -/
def Engine.setCurPat (e : Engine) (v : VoiceIx) (p : PatternIx) : Engine :=
  { e with curPattern := e.curPattern.set v.toNat p }

/-- `par[v][id]`. -/
def Engine.par (e : Engine) (v : VoiceIx) (id : ParamId) : Byte := Memory.read parReset e.parMem (parIx v id)

/-- Write `par[v][id]`. -/
def Engine.setPar (e : Engine) (v : VoiceIx) (id : ParamId) (b : Byte) : Engine :=
  { e with parMem := Memory.write parReset e.parMem (parIx v id) b }

/-- `pat[v][p].note[s]`. -/
def Engine.note (e : Engine) (v : VoiceIx) (p : PatternIx) (st : StepIx) : Byte :=
  Memory.read byteReset e.noteMem (slotIx v p st)

/-- Write the byte `pat[v][p].note[s]` alone; every rule goes through `setNote`. -/
def Engine.setNoteByte (e : Engine) (v : VoiceIx) (p : PatternIx) (st : StepIx) (b : Byte) : Engine :=
  { e with noteMem := Memory.write byteReset e.noteMem (slotIx v p st) b }

/-- `pat[v][p].key[s]`. -/
def Engine.key (e : Engine) (v : VoiceIx) (p : PatternIx) (st : StepIx) : Byte :=
  Memory.read byteReset e.keyMem (slotIx v p st)

/-- Write `pat[v][p].key[s]`. -/
def Engine.setKey (e : Engine) (v : VoiceIx) (p : PatternIx) (st : StepIx) (b : Byte) : Engine :=
  { e with keyMem := Memory.write byteReset e.keyMem (slotIx v p st) b }

/-- `pat[v][p].length`. -/
def Engine.length (e : Engine) (v : VoiceIx) (p : PatternIx) : BitVec 7 :=
  Memory.read lengthReset e.lengthMem (patIx v p)

/-- Write `pat[v][p].length`. -/
def Engine.setLength (e : Engine) (v : VoiceIx) (p : PatternIx) (n : BitVec 7) : Engine :=
  { e with lengthMem := Memory.write lengthReset e.lengthMem (patIx v p) n }

/-- `pat[v][p].rate`. -/
def Engine.rate (e : Engine) (v : VoiceIx) (p : PatternIx) : Byte := Memory.read byteReset e.rateMem (patIx v p)

/-- Write `pat[v][p].rate`. -/
def Engine.setRate (e : Engine) (v : VoiceIx) (p : PatternIx) (b : Byte) : Engine :=
  { e with rateMem := Memory.write byteReset e.rateMem (patIx v p) b }

/-- `pat[v][p].noteCount`. -/
def Engine.noteCount (e : Engine) (v : VoiceIx) (p : PatternIx) : BitVec 7 :=
  Memory.read noteCountReset e.noteCountMem (patIx v p)

/-- Write `pat[v][p].noteCount`. -/
def Engine.setNoteCount (e : Engine) (v : VoiceIx) (p : PatternIx) (n : BitVec 7) : Engine :=
  { e with noteCountMem := Memory.write noteCountReset e.noteCountMem (patIx v p) n }

/-- `lockHead[v][p]`. -/
def Engine.lockHead (e : Engine) (v : VoiceIx) (p : PatternIx) : PoolIx :=
  Memory.read lockHeadReset e.lockHeadMem (patIx v p)

/-- Write `lockHead[v][p]`. -/
def Engine.setLockHead (e : Engine) (v : VoiceIx) (p : PatternIx) (i : PoolIx) : Engine :=
  { e with lockHeadMem := Memory.write lockHeadReset e.lockHeadMem (patIx v p) i }

/-- `pool[i]`, for i below `POOL_C`. -/
def Engine.record (c : Config) (e : Engine) (i : PoolIx) : LockRecord :=
  Memory.read (recordReset c) e.poolMem i.toNat

/-- Write `pool[i]`, for i below `POOL_C`. -/
def Engine.setRecord (c : Config) (e : Engine) (i : PoolIx) (r : LockRecord) : Engine :=
  { e with poolMem := Memory.write (recordReset c) e.poolMem i.toNat r }

/-- `trig[v][g]`. -/
def Engine.trig (e : Engine) (v : VoiceIx) (g : GridIx) : Bool := Memory.read trigReset e.trigMem (gridIx v g)

/-- Write `trig[v][g]`. -/
def Engine.setTrig (e : Engine) (v : VoiceIx) (g : GridIx) (b : Bool) : Engine :=
  { e with trigMem := Memory.write trigReset e.trigMem (gridIx v g) b }

/-- `gnote[v][g]`. -/
def Engine.gnote (e : Engine) (v : VoiceIx) (g : GridIx) : Byte := Memory.read byteReset e.gnoteMem (gridIx v g)

/-- Write `gnote[v][g]`. -/
def Engine.setGnote (e : Engine) (v : VoiceIx) (g : GridIx) (b : Byte) : Engine :=
  { e with gnoteMem := Memory.write byteReset e.gnoteMem (gridIx v g) b }

/-- `AUDIO[n][c]`; the right channel is c = 1. -/
def Engine.audio (e : Engine) (n : Nat) (right : Bool) : Sample := Memory.read audioReset e.audioMem (audioIx n right)

/-- Write `AUDIO[n][c]`. -/
def Engine.setAudio (e : Engine) (n : Nat) (right : Bool) (y : Sample) : Engine :=
  { e with audioMem := Memory.write audioReset e.audioMem (audioIx n right) y }

/-! Diagnostics and responses (60_exceptions.md R220, R224; 30_encoding.md R83, R84). -/

/-- `DIAG` bit 0. -/
def diagPoolExhausted : BitVec 4 := 1#4

/-- `DIAG` bit 1. -/
def diagListCycle : BitVec 4 := 2#4

/-- `DIAG` bit 2. -/
def diagIllegalCmd : BitVec 4 := 4#4

/-- `DIAG` bit 3. -/
def diagBadOperand : BitVec 4 := 8#4

/-- `raise Diag(cause)`: set the cause's sticky bit, and nothing else (60_exceptions.md R224). -/
def raiseDiag (cause : BitVec 4) (e : Engine) : Engine := { e with diag := e.diag ||| cause }

/-- `raise Diag(LIST_CYCLE)` where a walk found a corrupt list (60_exceptions.md R222). -/
def raiseCycleIf (fault : Bool) (e : Engine) : Engine := if fault then raiseDiag diagListCycle e else e

/-- What a command or a step of the machine answers. -/
abbrev Result := Host.Outcome State Fault Refusal

/-- The state with other hardware state; parameters, schedule and last response stay. -/
def State.withHw (s : State) (e : Engine) : State := { s with hw := e }

/-- The statuses with which a command can end; the codes 5 to 15 are reserved and never returned (30_encoding.md R83;
93_implementation_defined.md V12). -/
inductive Status where
  | ok
  | illegal
  | badOperand
  | exhausted
  | cycle
  deriving DecidableEq, Repr

/-- The 4-bit code of a status (30_encoding.md R83). -/
def statusCode : Status → BitVec 4
  | .ok => 0#4
  | .illegal => 1#4
  | .badOperand => 2#4
  | .exhausted => 3#4
  | .cycle => 4#4

/-- `respond(status, data)`: the end of a command, with the hardware state it leaves (30_encoding.md R83). -/
def respond (s : State) (e : Engine) (st : Status) (data : Word) : Result :=
  .next { s with hw := e, response := some ⟨statusCode st, data⟩ }

/-- A refused command: `raise Diag(BAD_OPERAND); respond(BAD_OPERAND, 0)` (30_encoding.md R84; 60_exceptions.md R223). -/
def refuseOperand (s : State) : Result := respond s (raiseDiag diagBadOperand s.hw) .badOperand 0#32

/-- An illegal word: `raise Diag(ILLEGAL_CMD); respond(ILLEGAL, 0)` (30_encoding.md R84; 60_exceptions.md R223). -/
def refuseIllegal (s : State) : Result := respond s (raiseDiag diagIllegalCmd s.hw) .illegal 0#32

/-! The pool's primitives (40_pool.md). `indexOf` (R104) needs no logic: a record is named by its index. -/

/-- `resolve(i)`: the record, or none for the sentinel and every index from `POOL_C` on (40_pool.md R103). -/
def poolResolve (c : Config) (e : Engine) (i : PoolIx) : Option LockRecord :=
  if i = sentinel then none else if poolIxInRange c i then some (e.record c i) else none

/-- `allocate()`: none where the pool is exhausted, else the index and the pool without it; the record's four fields
still hold what they held on the free list (40_pool.md R101). A `freeHead` that names nothing is a fault (log 7). -/
def allocate (c : Config) (e : Engine) : Except Fault (Option (PoolIx × Engine)) :=
  if e.freeHead = sentinel then .ok none
  else if poolIxInRange c e.freeHead then
    .ok (some (e.freeHead, { e with freeHead := (e.record c e.freeHead).next, freeCount := e.freeCount - 1#16 }))
  else .error .poolIndexOutOfRange

/-- `release(i)`: push the record on the free list; its `param`, `step` and `value` stay (40_pool.md R102). -/
def release (c : Config) (e : Engine) (i : PoolIx) : Engine :=
  let linked := e.setRecord c i { e.record c i with next := e.freeHead }
  { linked with freeHead := i, freeCount := e.freeCount + 1#16 }

/-- `SetNote(v, p, s, nb)`: every write of a note byte keeps `noteCount` (42_patterns.md R126; its width: log 8). -/
def setNote (e : Engine) (v : VoiceIx) (p : PatternIx) (st : StepIx) (nb : Byte) : Engine :=
  let old := e.note v p st
  (e.setNoteByte v p st nb).setNoteCount v p
    (e.noteCount v p + (nb.extractLsb' 7 1).setWidth 7 - (old.extractLsb' 7 1).setWidth 7)

end Sys2Proof.Machine
end

