-- ==== Sys2Proof/Machine/Flags.lean ====
section
/-!
DEFINITION. Every flag of the hardware (10_state.md R45): the stored bits are fields of `Engine`; here are the derived
ones, and the codes and status words that commands return. No arithmetic writes a flag; saturation is silent.
-/

namespace Sys2Proof.Machine

/-- One bit of a flag. -/
def bit (b : Bool) : BitVec 1 := if b then 1#1 else 0#1

/-- The code of an instrument type (10_state.md R22). -/
def typeCode : InstrType → BitVec 3
  | .synth => 0#3
  | .sample => 1#3
  | .midi => 2#3
  | .drum => 3#3
  | .global => 4#3

/-- The instrument type that `TYPE_SET` stores for a byte in range (43_sequencer_cmds.md R141). -/
def typeOf (val : Byte) : InstrType :=
  match val.toNat with
  | 0 => .synth
  | 1 => .sample
  | 2 => .midi
  | 3 => .drum
  | _ => .global

/-- The code of an envelope segment (10_state.md R25). -/
def segCode : Segment → BitVec 2
  | .attack => 0#2
  | .hold => 1#2
  | .decay => 2#2
  | .dead => 3#2

/-- `IsPlaying(v)` of a voice's registers: 0 for `SAMPLE`, else whether the envelope is not `DEAD`
(45_envelope.md R187). -/
def isPlaying (r : Instrument) : Bool :=
  match r.kind with
  | .sample => false
  | _ => r.seg != .dead

/-- The 16-bit B of `SEQ_RD 3`: bit v is `IsPlaying(v)` (43_sequencer_cmds.md R153). -/
def playingMask (e : Engine) : BitVec 16 := BitVec.ofFnLE fun v : Fin 16 => isPlaying e.x[v]

/-- The output line `diag`: the OR of the four `DIAG` bits (60_exceptions.md R224). -/
def diagLine (e : Engine) : Bool := e.diag != 0#4

/-- The `sel` 0 word of `VOICE_RD` (43_sequencer_cmds.md R146). -/
def voiceStatus (e : Engine) (v : VoiceIx) : Word :=
  let r := e.voice v
  0#2 ++ r.pitch ++ 0#4 ++ e.curPat v ++ 0#2 ++ bit (isPlaying r) ++ segCode r.seg ++ typeCode r.kind

/-- The `sel` 0 word of `SEQ_RD` (43_sequencer_cmds.md R153). -/
def seqStatus (e : Engine) : Word :=
  e.pendingNoteValue ++ 0#6 ++ bit e.pendingNote ++ bit e.playValid ++ e.playStep ++ e.curStep ++ e.selVoice ++ e.mode
    ++ bit e.playing

end Sys2Proof.Machine
end

