-- ==== Sys2Proof/Machine/Grid.lean ====
section
/-!
DEFINITION. The format P commands on voices and the grid, and `NOP` (43_sequencer_cmds.md R140 to R146).
-/

namespace Sys2Proof.Machine

/-- `NOP` (43_sequencer_cmds.md R140). -/
def execNop (s : State) : Result := respond s s.hw .ok 0#32

/-- `TYPE_SET v, val` (43_sequencer_cmds.md R141): no other register changes. -/
def execTypeSet (v : VoiceIx) (val : Byte) (s : State) : Result :=
  if typeInRange val then respond s (s.hw.setVoice v { s.hw.voice v with kind := typeOf val }) .ok 0#32
  else refuseOperand s

/-- `PAT_SEL v, p` (43_sequencer_cmds.md R142). -/
def execPatSel (v : VoiceIx) (p : PatternIx) (s : State) : Result := respond s (s.hw.setCurPat v p) .ok 0#32

/-- The trigger bit that a `GRID_TRIG` mode writes over the old one: 0 clear, 1 set, 2 toggle
(43_sequencer_cmds.md R143). -/
def gridTrigBit (m : BitVec 2) (old : Bool) : Bool :=
  match m.toNat with
  | 0 => false
  | 1 => true
  | _ => !old

/-- `GRID_TRIG v, s, m` (43_sequencer_cmds.md R143): `data` is the bit's new value. -/
def execGridTrig (v : VoiceIx) (g : GridIx) (m : BitVec 2) (s : State) : Result :=
  if gridModeInRange m then
    let b := gridTrigBit m (s.hw.trig v g)
    respond s (s.hw.setTrig v g b) .ok ((bit b).setWidth 32)
  else refuseOperand s

/-- `GRID_NOTE v, s, val` (43_sequencer_cmds.md R144). -/
def execGridNote (v : VoiceIx) (g : GridIx) (val : Byte) (s : State) : Result :=
  respond s (s.hw.setGnote v g val) .ok 0#32

/-- `GRID_RD v, s` (43_sequencer_cmds.md R145). -/
def execGridRd (v : VoiceIx) (g : GridIx) (s : State) : Result :=
  respond s s.hw .ok (0#23 ++ bit (s.hw.trig v g) ++ s.hw.gnote v g)

/-- `VOICE_RD v, sel` (43_sequencer_cmds.md R146). -/
def execVoiceRd (v : VoiceIx) (sel : BitVec 2) (s : State) : Result :=
  match sel.toNat with
  | 0 => respond s s.hw .ok (voiceStatus s.hw v)
  | 1 => respond s s.hw .ok (s.hw.voice v).envPhase
  | 2 => respond s s.hw .ok (s.hw.voice v).oscPhase
  | _ => respond s s.hw .ok (s.hw.voice v).phaseInc

end Sys2Proof.Machine
end

