-- ==== Sys2Proof/Machine/Walks.lean ====
section
/-!
DEFINITION. The walks over lock lists and the lock operations of VoiceData (41_params_locks.md R112 to R120). Every walk
has the three guards of R112: the index bound, at most `POOL_C` records (the walk's fuel), and next-equals-self.
A walk is followed literally on a corrupt list too (93_implementation_defined.md U6).
-/

namespace Sys2Proof.Machine

/-- The walk of `FindLock` from the index `cur`, with `POOL_C - n` records still allowed (41_params_locks.md R112): the
matching index or none, and whether a guard fired. -/
def findLockFrom (c : Config) (e : Engine) (st id : Byte) : Nat → PoolIx → Option PoolIx × Bool
  | 0, cur => (none, cur != sentinel)
  | n + 1, cur =>
    if cur = sentinel then (none, false)
    else if poolIxInRange c cur then
      let r := e.record c cur
      if r.step = st ∧ r.param = id then (some cur, false)
      else if r.next = cur then (none, true)
      else findLockFrom c e st id n r.next
    else (none, true)

/-- `FindLock(v, p, s, id)` (41_params_locks.md R112), its diagnostic left to the caller. -/
def findLock (c : Config) (e : Engine) (v : VoiceIx) (p : PatternIx) (st id : Byte) : Option PoolIx × Bool :=
  findLockFrom c e st id c.poolC (e.lockHead v p)

/-- `ResolveParam(v, id, ctx)` under a step context (p, s) or none: the value and whether a walk faulted
(41_params_locks.md R113). -/
def resolveParam (c : Config) (e : Engine) (v : VoiceIx) (id : ParamId) (ctx : Option (PatternIx × StepIx)) :
    Byte × Bool :=
  match ctx with
  | none => (e.par v id, false)
  | some (p, st) =>
    match findLock c e v p (st.setWidth 8) (id.setWidth 8) with
    | (some i, _) => ((e.record c i).value, false)
    | (none, fault) => (e.par v id, fault)

/-- `StoreLock(v, p, s, id, val)` (41_params_locks.md R115). -/
def storeLock (c : Config) (e : Engine) (v : VoiceIx) (p : PatternIx) (st id val : Byte) :
    Except Fault (Status × Engine) :=
  match findLock c e v p st id with
  | (_, true) => .ok (.cycle, raiseDiag diagListCycle e)
  | (some i, false) => .ok (.ok, e.setRecord c i { e.record c i with value := val })
  | (none, false) =>
    match allocate c e with
    | .error f => .error f
    | .ok none => .ok (.exhausted, raiseDiag diagPoolExhausted e)
    | .ok (some (i, e')) => .ok (.ok, (e'.setRecord c i ⟨id, st, val, e'.lockHead v p⟩).setLockHead v p i)

/-- The walk of `ClearLocks`: `n` counts the records released; `next` is read before `release` overwrites it
(41_params_locks.md R117). -/
def clearFrom (c : Config) : Nat → PoolIx → Engine → Nat → Status × Nat × Engine
  | 0, cur, e, n => if cur = sentinel then (.ok, n, e) else (.cycle, n, raiseDiag diagListCycle e)
  | fuel + 1, cur, e, n =>
    if cur = sentinel then (.ok, n, e)
    else if poolIxInRange c cur then
      let nxt := (e.record c cur).next
      let e' := release c e cur
      if nxt = cur then (.cycle, n + 1, raiseDiag diagListCycle e') else clearFrom c fuel nxt e' (n + 1)
    else (.cycle, n, raiseDiag diagListCycle e)

/-- `ClearLocks(pattern)`: the status, the records released, the state; the head is the sentinel on every path
(41_params_locks.md R117). -/
def clearLocks (c : Config) (e : Engine) (v : VoiceIx) (p : PatternIx) : Status × Nat × Engine :=
  let r := clearFrom c c.poolC (e.lockHead v p) e 0
  (r.1, r.2.1, r.2.2.setLockHead v p sentinel)

/-- Unlink the record after `prev` (the head where `prev` is the sentinel): its place takes `nxt`
(41_params_locks.md R118). -/
def unlink (c : Config) (e : Engine) (v : VoiceIx) (p : PatternIx) (prev nxt : PoolIx) : Engine :=
  if prev = sentinel then e.setLockHead v p nxt else e.setRecord c prev { e.record c prev with next := nxt }

/-- The walk of `RemoveLocksForStep` (41_params_locks.md R118). -/
def removeFrom (c : Config) (v : VoiceIx) (p : PatternIx) (st : Byte) :
    Nat → PoolIx → PoolIx → Engine → Nat → Status × Nat × Engine
  | 0, _, cur, e, removed => if cur = sentinel then (.ok, removed, e) else (.cycle, removed, raiseDiag diagListCycle e)
  | fuel + 1, prev, cur, e, removed =>
    if cur = sentinel then (.ok, removed, e)
    else if poolIxInRange c cur then
      let r := e.record c cur
      if r.next = cur then (.cycle, removed, raiseDiag diagListCycle e)
      else if r.step = st then
        removeFrom c v p st fuel prev r.next (release c (unlink c e v p prev r.next) cur) (removed + 1)
      else removeFrom c v p st fuel cur r.next e removed
    else (.cycle, removed, raiseDiag diagListCycle e)

/-- `RemoveLocksForStep(pattern, step)` (41_params_locks.md R118). -/
def removeLocksForStep (c : Config) (e : Engine) (v : VoiceIx) (p : PatternIx) (st : Byte) : Status × Nat × Engine :=
  removeFrom c v p st c.poolC sentinel (e.lockHead v p) e 0

/-- The walk of `CopyLocks` into pattern q: `acc` is `OK`, or `EXHAUSTED` once a lock was dropped
(41_params_locks.md R119). -/
def copyFrom (c : Config) (v : VoiceIx) (q : PatternIx) :
    Nat → PoolIx → Engine → Nat → Status → Except Fault (Status × Nat × Engine)
  | 0, cur, e, dropped, acc =>
    if cur = sentinel then .ok (acc, dropped, e) else .ok (.cycle, dropped, raiseDiag diagListCycle e)
  | fuel + 1, cur, e, dropped, acc =>
    if cur = sentinel then .ok (acc, dropped, e)
    else if poolIxInRange c cur then
      let r := e.record c cur
      match storeLock c e v q r.step r.param r.value with
      | .error f => .error f
      | .ok (.cycle, e') => .ok (.cycle, dropped, e')
      | .ok (.exhausted, e') =>
        if r.next = cur then .ok (.cycle, dropped + 1, raiseDiag diagListCycle e')
        else copyFrom c v q fuel r.next e' (dropped + 1) .exhausted
      | .ok (_, e') =>
        if r.next = cur then .ok (.cycle, dropped, raiseDiag diagListCycle e')
        else copyFrom c v q fuel r.next e' dropped acc
    else .ok (.cycle, dropped, raiseDiag diagListCycle e)

/-- `CopyLocks(from, to)` within one voice (41_params_locks.md R119). -/
def copyLocks (c : Config) (e : Engine) (v : VoiceIx) (p q : PatternIx) : Except Fault (Status × Nat × Engine) :=
  copyFrom c v q c.poolC (e.lockHead v p) e 0 .ok

/-- The walk of `HasAnyLockForStep`: whether a record has the step, and whether a guard fired (41_params_locks.md
R120). -/
def hasLockFrom (c : Config) (e : Engine) (st : Byte) : Nat → PoolIx → Bool × Bool
  | 0, cur => (false, cur != sentinel)
  | n + 1, cur =>
    if cur = sentinel then (false, false)
    else if poolIxInRange c cur then
      let r := e.record c cur
      if r.step = st then (true, false)
      else if r.next = cur then (false, true)
      else hasLockFrom c e st n r.next
    else (false, true)

/-- `HasAnyLockForStep(step, pattern)` (41_params_locks.md R120). -/
def hasAnyLockForStep (c : Config) (e : Engine) (v : VoiceIx) (p : PatternIx) (st : Byte) : Bool × Bool :=
  hasLockFrom c e st c.poolC (e.lockHead v p)

end Sys2Proof.Machine
end

