-- ==== Sys2Proof/Machine/Locks.lean ====
section
/-!
DEFINITION. The commands on parameters and parameter locks (41_params_locks.md R110, R111, R114, R116 to R120).
-/

namespace Sys2Proof.Machine

/-- The status of a walk that may have found a corrupt list. -/
def walkStatus (fault : Bool) : Status := if fault then .cycle else .ok

/-- `PARAM_WR v, id, val` (41_params_locks.md R110). -/
def execParamWr (v : VoiceIx) (id : ParamId) (val : Byte) (s : State) : Result :=
  if paramInUse id then respond s (s.hw.setPar v id val) .ok 0#32 else refuseOperand s

/-- `PARAM_RD v, id` (41_params_locks.md R111): `ResolveParam` with no step context. -/
def execParamRd (v : VoiceIx) (id : ParamId) (s : State) : Result :=
  if paramInUse id then respond s s.hw .ok ((resolveParam s.cfg s.hw v id none).1.setWidth 32) else refuseOperand s

/-- `RESOLVE v, p, s, id` (41_params_locks.md R114). -/
def execResolve (v : VoiceIx) (p : PatternIx) (st : StepIx) (id : ParamId) (s : State) : Result :=
  if paramInUse id then
    let r := resolveParam s.cfg s.hw v id (some (p, st))
    respond s (raiseCycleIf r.2 s.hw) (walkStatus r.2) (r.1.setWidth 32)
  else refuseOperand s

/-- `LOCK_ST v, p, s, id, val` (41_params_locks.md R116). -/
def execLockSt (v : VoiceIx) (p : PatternIx) (st : StepIx) (id : ParamId) (val : Byte) (s : State) : Result :=
  if paramInUse id then
    match storeLock s.cfg s.hw v p (st.setWidth 8) (id.setWidth 8) val with
    | .ok (status, e) => respond s e status 0#32
    | .error f => .fault f
  else refuseOperand s

/-- `LOCK_CLR v, p` (41_params_locks.md R117): `data` is the number of records released. -/
def execLockClr (v : VoiceIx) (p : PatternIx) (s : State) : Result :=
  let r := clearLocks s.cfg s.hw v p
  respond s r.2.2 r.1 (BitVec.ofNat 32 r.2.1)

/-- `LOCK_RMS v, p, s` (41_params_locks.md R118): `data` is the number of records removed. -/
def execLockRms (v : VoiceIx) (p : PatternIx) (st : StepIx) (s : State) : Result :=
  let r := removeLocksForStep s.cfg s.hw v p (st.setWidth 8)
  respond s r.2.2 r.1 (BitVec.ofNat 32 r.2.1)

/-- `LOCK_CPY v, p, q` (41_params_locks.md R119): `data` is the number of locks dropped for lack of room. -/
def execLockCpy (v : VoiceIx) (p q : PatternIx) (s : State) : Result :=
  match copyLocks s.cfg s.hw v p q with
  | .ok (status, dropped, e) => respond s e status (BitVec.ofNat 32 dropped)
  | .error f => .fault f

/-- `LOCK_HAS v, p, s` (41_params_locks.md R120): `data` is 1 where a record has the step. -/
def execLockHas (v : VoiceIx) (p : PatternIx) (st : StepIx) (s : State) : Result :=
  let r := hasAnyLockForStep s.cfg s.hw v p (st.setWidth 8)
  respond s (raiseCycleIf r.2 s.hw) (walkStatus r.2) (if r.1 then 1#32 else 0#32)

end Sys2Proof.Machine
end

