-- ==== Sys2Proof/Machine/Patterns.lean ====
section
/-!
DEFINITION. The commands on the pattern store (42_patterns.md R127 to R134).
-/

namespace Sys2Proof.Machine

/-- One pass of the loop of `DoublePatternLength`: slot i to slot L + i, note and key (42_patterns.md R132). -/
def doubleSlot (v : VoiceIx) (p : PatternIx) (len : Nat) (e : Engine) (i : Nat) : Engine :=
  let src : StepIx := BitVec.ofNat 6 i
  let dst : StepIx := BitVec.ofNat 6 (len + i)
  let e' := setNote e v p dst (e.note v p src)
  e'.setKey v p dst (e'.key v p src)

/-- `DoublePatternLength` (42_patterns.md R132): no change where the length is over 32. -/
def doublePattern (e : Engine) (v : VoiceIx) (p : PatternIx) : Engine :=
  let len := (e.length v p).toNat
  if len ≤ 32 then ((List.range len).foldl (doubleSlot v p len) e).setLength v p (BitVec.ofNat 7 (2 * len)) else e

/-- One pass of the loop of `CopyPattern`: slot i of pattern p to slot i of pattern q (42_patterns.md R133). -/
def copySlot (v : VoiceIx) (p q : PatternIx) (e : Engine) (i : Nat) : Engine :=
  let slot : StepIx := BitVec.ofNat 6 i
  let e' := setNote e v q slot (e.note v p slot)
  e'.setKey v q slot (e'.key v p slot)

/-- `CopyPattern` within one voice (42_patterns.md R133): no change where the patterns are one. -/
def copyPattern (e : Engine) (v : VoiceIx) (p q : PatternIx) : Engine :=
  if q = p then e
  else
    let e' := (List.range maxSteps).foldl (copySlot v p q) e
    (e'.setLength v q (e'.length v p)).setRate v q (e'.rate v p)

/-- `NOTE_SET v, p, s, val` (42_patterns.md R127): `data` is the pattern's `noteCount` after the write. -/
def execNoteSet (v : VoiceIx) (p : PatternIx) (st : StepIx) (val : Byte) (s : State) : Result :=
  let e := setNote s.hw v p st val
  respond s e .ok ((e.noteCount v p).setWidth 32)

/-- `KEY_SET v, p, s, val` (42_patterns.md R128). -/
def execKeySet (v : VoiceIx) (p : PatternIx) (st : StepIx) (val : Byte) (s : State) : Result :=
  respond s (s.hw.setKey v p st val) .ok 0#32

/-- `NOTE_GET v, p, s` (42_patterns.md R129). -/
def execNoteGet (v : VoiceIx) (p : PatternIx) (st : StepIx) (s : State) : Result :=
  respond s s.hw .ok (0#16 ++ s.hw.key v p st ++ s.hw.note v p st)

/-- `PLEN_SET v, p, val` (42_patterns.md R130). -/
def execPlenSet (v : VoiceIx) (p : PatternIx) (val : Byte) (s : State) : Result :=
  if lengthInRange val then respond s (s.hw.setLength v p (val.setWidth 7)) .ok 0#32 else refuseOperand s

/-- `PRATE_SET v, p, val` (42_patterns.md R131). -/
def execPrateSet (v : VoiceIx) (p : PatternIx) (val : Byte) (s : State) : Result :=
  respond s (s.hw.setRate v p val) .ok 0#32

/-- `PAT_DBL v, p` (42_patterns.md R132): `data` is the resulting length. -/
def execPatDbl (v : VoiceIx) (p : PatternIx) (s : State) : Result :=
  let e := doublePattern s.hw v p
  respond s e .ok ((e.length v p).setWidth 32)

/-- `PAT_CPY v, p, q` (42_patterns.md R133): `data` is the destination's `noteCount` afterwards. -/
def execPatCpy (v : VoiceIx) (p q : PatternIx) (s : State) : Result :=
  let e := copyPattern s.hw v p q
  respond s e .ok ((e.noteCount v q).setWidth 32)

/-- `PAT_INFO v, p, sel` (42_patterns.md R134). -/
def execPatInfo (v : VoiceIx) (p : PatternIx) (sel : BitVec 1) (s : State) : Result :=
  if sel = 0#1 then
    respond s s.hw .ok (0#8 ++ s.hw.rate v p ++ 0#1 ++ s.hw.noteCount v p ++ 0#1 ++ s.hw.length v p)
  else respond s s.hw .ok (0#16 ++ s.hw.lockHead v p)

end Sys2Proof.Machine
end

