-- ==== Sys2Proof/Machine/Pool.lean ====
section
/-!
DEFINITION. The two commands that read the lock pool (40_pool.md R105, R106).
-/

namespace Sys2Proof.Machine

/-- `POOL_RD i, w` (40_pool.md R105): the host's form of `resolve`. -/
def execPoolRd (ix : PoolIx) (w : BitVec 1) (s : State) : Result :=
  match poolResolve s.cfg s.hw ix with
  | none => refuseOperand s
  | some r =>
    if w = 0#1 then respond s s.hw .ok (0#8 ++ r.param ++ r.step ++ r.value)
    else respond s s.hw .ok (0#16 ++ r.next)

/-- `POOL_STAT` (40_pool.md R106). -/
def execPoolStat (s : State) : Result := respond s s.hw .ok (s.hw.freeCount ++ s.hw.freeHead)

end Sys2Proof.Machine
end

