-- ==== Sys2Proof/Machine/System.lean ====
section
/-!
DEFINITION. The format S commands but the pool reads (43_sequencer_cmds.md R148 to R156).
-/

namespace Sys2Proof.Machine

/-- The sequencer started from a stop: position 0, first tick on the next frame (43_sequencer_cmds.md R148). -/
def startSequencer (e : Engine) : Engine :=
  if e.playing then e else { e with playing := true, curStep := 0#4, countdown := 1#32 }

/-- The sequencer stopped: position and countdown stay (43_sequencer_cmds.md R148). -/
def stopSequencer (e : Engine) : Engine := { e with playing := false, playValid := false }

/-- `PLAY on` (43_sequencer_cmds.md R148). -/
def execPlay (on : BitVec 1) (s : State) : Result :=
  if on = 1#1 then respond s (startSequencer s.hw) .ok 0#32 else respond s (stopSequencer s.hw) .ok 0#32

/-- `SEL_VOICE v` (43_sequencer_cmds.md R149). -/
def execSelVoice (v : VoiceIx) (s : State) : Result := respond s { s.hw with selVoice := v } .ok 0#32

/-- `MODE_SET m` (43_sequencer_cmds.md R150). -/
def execModeSet (m : BitVec 3) (s : State) : Result := respond s { s.hw with mode := m } .ok 0#32

/-- `TEMPO_SET bpm` (43_sequencer_cmds.md R151): `data` is the new `samplesPerStep`; `countdown` stays. -/
def execTempoSet (bpm : BitVec 16) (s : State) : Result :=
  if tempoInRange bpm then
    respond s { s.hw with tempo := bpm, samplesPerStep := samplesPerStepOf bpm } .ok (samplesPerStepOf bpm)
  else refuseOperand s

/-- `NOTE_REQ note` (43_sequencer_cmds.md R152). -/
def execNoteReq (note : Byte) (s : State) : Result :=
  respond s { s.hw with pendingNoteValue := note, pendingNote := true } .ok 0#32

/-- `SEQ_RD sel` (43_sequencer_cmds.md R153). -/
def execSeqRd (sel : BitVec 2) (s : State) : Result :=
  match sel.toNat with
  | 0 => respond s s.hw .ok (seqStatus s.hw)
  | 1 => respond s s.hw .ok s.hw.countdown
  | 2 => respond s s.hw .ok s.hw.samplesPerStep
  | _ => respond s s.hw .ok (playingMask s.hw ++ s.hw.tempo)

/-- `DIAG_RD` (43_sequencer_cmds.md R154): reading does not clear. -/
def execDiagRd (s : State) : Result := respond s s.hw .ok (s.hw.diag.setWidth 32)

/-- `DIAG_CLR mask` (43_sequencer_cmds.md R155): `data` is `DIAG` after the clear. -/
def execDiagClr (mask : BitVec 4) (s : State) : Result :=
  let d := s.hw.diag &&& ~~~mask
  respond s { s.hw with diag := d } .ok (d.setWidth 32)

/-- Every component at its reset value but `busy`, `frameIdx` and AUDIO (43_sequencer_cmds.md R156;
70_reset_and_hazards.md R245 (2)). -/
def softResetEngine (c : Config) (e : Engine) : Engine :=
  { Engine.reset c with busy := e.busy, frameIdx := e.frameIdx, audioMem := e.audioMem }

/-- `SOFT_RESET` (43_sequencer_cmds.md R156). -/
def execSoftReset (s : State) : Result := respond s (softResetEngine s.cfg s.hw) .ok 0#32

end Sys2Proof.Machine
end

