-- ==== Sys2Proof/Machine/Dispatch.lean ====
section
/-!
DEFINITION. One arm per command.
-/

namespace Sys2Proof.Machine

/-- The meaning of each command. -/
def exec (i : Instr) (s : State) : Host.Outcome State Fault Refusal :=
  match i with
  | .nop => Sys2Proof.Machine.execNop s
  | .paramWr v id val => Sys2Proof.Machine.execParamWr v id val s
  | .paramRd v id => Sys2Proof.Machine.execParamRd v id s
  | .resolve v p st id => Sys2Proof.Machine.execResolve v p st id s
  | .lockSt v p st id val => Sys2Proof.Machine.execLockSt v p st id val s
  | .lockClr v p => Sys2Proof.Machine.execLockClr v p s
  | .lockRms v p st => Sys2Proof.Machine.execLockRms v p st s
  | .lockCpy v p q => Sys2Proof.Machine.execLockCpy v p q s
  | .lockHas v p st => Sys2Proof.Machine.execLockHas v p st s
  | .noteSet v p st val => Sys2Proof.Machine.execNoteSet v p st val s
  | .keySet v p st val => Sys2Proof.Machine.execKeySet v p st val s
  | .noteGet v p st => Sys2Proof.Machine.execNoteGet v p st s
  | .plenSet v p val => Sys2Proof.Machine.execPlenSet v p val s
  | .prateSet v p val => Sys2Proof.Machine.execPrateSet v p val s
  | .patDbl v p => Sys2Proof.Machine.execPatDbl v p s
  | .patCpy v p q => Sys2Proof.Machine.execPatCpy v p q s
  | .patInfo v p sel => Sys2Proof.Machine.execPatInfo v p sel s
  | .typeSet v val => Sys2Proof.Machine.execTypeSet v val s
  | .patSel v p => Sys2Proof.Machine.execPatSel v p s
  | .gridTrig v g m => Sys2Proof.Machine.execGridTrig v g m s
  | .gridNote v g val => Sys2Proof.Machine.execGridNote v g val s
  | .gridRd v g => Sys2Proof.Machine.execGridRd v g s
  | .voiceRd v sel => Sys2Proof.Machine.execVoiceRd v sel s
  | .play on => Sys2Proof.Machine.execPlay on s
  | .selVoice v => Sys2Proof.Machine.execSelVoice v s
  | .modeSet m => Sys2Proof.Machine.execModeSet m s
  | .tempoSet bpm => Sys2Proof.Machine.execTempoSet bpm s
  | .noteReq note => Sys2Proof.Machine.execNoteReq note s
  | .seqRd sel => Sys2Proof.Machine.execSeqRd sel s
  | .poolRd ix w => Sys2Proof.Machine.execPoolRd ix w s
  | .poolStat => Sys2Proof.Machine.execPoolStat s
  | .diagRd => Sys2Proof.Machine.execDiagRd s
  | .diagClr mask => Sys2Proof.Machine.execDiagClr mask s
  | .softReset => Sys2Proof.Machine.execSoftReset s

end Sys2Proof.Machine
end

