-- ==== Sys2Proof/Machine/Instruments.lean ====
section
/-!
DEFINITION. One voice's signal path, frame by frame (44_oscillator.md R165; 45_envelope.md R181, R182; 46_filter.md R190;
47_gain_mixer.md R199 to R201), and how a voice is set and started: `SetPitch`, `Pull`, `Trigger` (44 R166; 45 R185, R186).
-/

namespace Sys2Proof.Machine

/-- `OscStep(v)`: the waveform at the phase before the add, then the phase advances modulo 2^32
(44_oscillator.md R165). -/
def oscStep (c : Config) (r : Instrument) : Int × Instrument :=
  ((oscWave c r.shape r.oscPhase r.timbre r.color).toInt, { r with oscPhase := r.oscPhase + r.phaseInc })

/-- The envelope's Q16 level in a frame (45_envelope.md R181). -/
def envLevel (r : Instrument) : Nat :=
  match r.seg with
  | .attack => (r.envPhase.extractLsb' 16 16).toNat
  | .hold => 65535
  | .decay => 65535 - (r.envPhase.extractLsb' 16 16).toNat
  | .dead => 0

/-- A timed segment advanced by its increment: on reaching 2^32 the next segment starts (45_envelope.md R182). -/
def envRamp (r : Instrument) (inc : BitVec 33) (after : Segment) : Instrument :=
  if 2 ^ 32 ≤ r.envPhase.toNat + inc.toNat then { r with seg := after, envPhase := 0#32 }
  else { r with envPhase := BitVec.ofNat 32 (r.envPhase.toNat + inc.toNat) }

/-- `EnvStep(v)` less the level, which `envLevel` gives of the state before (45_envelope.md R182). -/
def envAdvance (c : Config) (r : Instrument) : Instrument :=
  match r.seg with
  | .attack => envRamp r r.attackInc .hold
  | .hold =>
    if c.envHold ≤ r.envPhase then { r with seg := .decay, envPhase := 0#32 }
    else { r with envPhase := r.envPhase + 1#32 }
  | .decay => envRamp r r.decayInc .dead
  | .dead => r

/-- The new low-pass state of `SvfStep` (46_filter.md R190). -/
def svfLow (r : Instrument) : Int := sat16 (r.low.toInt + asr (r.fCoef.toNat * r.band.toInt) 15)

/-- The high-pass value of `SvfStep`, from the new low and the old band; not stored (46_filter.md R190). -/
def svfHigh (r : Instrument) (input : Int) : Int :=
  sat16 (input - svfLow r - asr (r.dCoef.toNat * r.band.toInt) 15)

/-- The new band-pass state of `SvfStep` (46_filter.md R190). -/
def svfBand (r : Instrument) (input : Int) : Int :=
  sat16 (r.band.toInt + asr (r.fCoef.toNat * svfHigh r input) 15)

/-- `SvfStep(v, in)`: the low-pass tap is the output (46_filter.md R190). -/
def svfStep (r : Instrument) (input : Int) : Int × Instrument :=
  (svfLow r, { r with low := toSample (svfLow r), band := toSample (svfBand r input) })

/-- The envelope gain of a sample (47_gain_mixer.md R199). -/
def envGain (o : Int) (lvl : Nat) : Int := asr (o * lvl) 16

/-- `VoiceSample(v)` of a voice's registers: a type other than `SYNTH` gives 0 and changes nothing
(47_gain_mixer.md R201; 48_render_sequencer.md R210). -/
def voiceSample (c : Config) (r : Instrument) : Int × Instrument :=
  match r.kind with
  | .synth =>
    let o := oscStep c r
    let f := svfStep (envAdvance c o.2) (envGain o.1 (envLevel o.2))
    (satmulQ15 f.1 r.volQ15.toNat, f.2)
  | _ => (0, r)

/-- `SetPitch(v, note)`: bit 7 of the note is ignored (44_oscillator.md R166). -/
def setPitch (c : Config) (v : VoiceIx) (note : Byte) (e : Engine) : Engine :=
  let pitch : BitVec 14 := note.extractLsb' 0 7 ++ 0#7
  e.setVoice v { e.voice v with pitch := pitch, phaseInc := computePhaseIncrement c pitch }

/-- The step context of the render agent's pulls of a voice (45_envelope.md R186; 10_state.md R37). -/
def pullContext (e : Engine) (v : VoiceIx) : Option (PatternIx × StepIx) :=
  if e.playValid then some (e.curPat v, e.playStep.setWidth 6) else none

/-- A parameter under the voice's step context, and whether the walk faulted (45_envelope.md R186). -/
def pullParam (c : Config) (e : Engine) (v : VoiceIx) (id : ParamId) : Byte × Bool :=
  resolveParam c e v id (pullContext e v)

/-- The eight parameters a pull resolves, in its order (45_envelope.md R186). -/
def pulledIds : List ParamId :=
  [idTypeA, idTypeB, idTypeC, idCutoff, idResonance, idVolume, idEnv1Attack, idEnv1Decay]

/-- The registers of a voice with the eight latched copies of a pull (45_envelope.md R186). -/
def latch (c : Config) (e : Engine) (v : VoiceIx) : Instrument :=
  { e.voice v with
    shape := (pullParam c e v idTypeA).1
    timbre := (pullParam c e v idTypeB).1
    color := (pullParam c e v idTypeC).1
    fCoef := byteToQ15 (pullParam c e v idCutoff).1
    dCoef := dampingOf (pullParam c e v idResonance).1
    volQ15 := byteToQ15 (pullParam c e v idVolume).1
    attackInc := envInc c (pullParam c e v idEnv1Attack).1
    decayInc := envInc c (pullParam c e v idEnv1Decay).1 }

/-- `Pull(v)`: on a faulty walk the pull takes the voice-level value, raises `LIST_CYCLE` and goes on
(45_envelope.md R186; 60_exceptions.md R225). -/
def pull (c : Config) (e : Engine) (v : VoiceIx) : Engine :=
  raiseCycleIf (pulledIds.any fun id => (pullParam c e v id).2) (e.setVoice v (latch c e v))

/-- `Trigger(v)`: pull, then Attack from phase 0 and the oscillator from phase 0; the filter rings on
(45_envelope.md R185). -/
def trigger (c : Config) (e : Engine) (v : VoiceIx) : Engine :=
  let e' := pull c e v
  e'.setVoice v { e'.voice v with seg := .attack, envPhase := 0#32, oscPhase := 0#32 }

end Sys2Proof.Machine
end

