-- ==== Sys2Proof/Machine/Render.lean ====
section
/-!
DEFINITION. The render agent's steps (48_render_sequencer.md R206 to R212).
-/

namespace Sys2Proof.Machine

/-- Voices 0..15, ascending (`N_VOICES`). -/
def allVoices : List VoiceIx := (List.range nVoices).map (BitVec.ofNat 4)

/-- Voices 0..5, ascending (`N_RENDER`). -/
def renderedVoices : List VoiceIx := (List.range nRender).map (BitVec.ofNat 4)

/-- BlockStart (48_render_sequencer.md R206). -/
def blockStart (c : Config) (e : Engine) : Engine :=
  renderedVoices.foldl (pull c) { e with busy := true, frameIdx := 0 }

/-- What a tick at grid step g does to one voice: where its trigger bit is set, its pitch from the stored note and a
trigger (48_render_sequencer.md R208). -/
def tickVoice (c : Config) (g : GridIx) (e : Engine) (v : VoiceIx) : Engine :=
  if e.trig v g then trigger c (setPitch c v (e.gnote v g) e) v else e

/-- Tick (48_render_sequencer.md R208): `playStep` first, then all voices, then the position advances modulo
`GRID_STEPS`. -/
def tick (c : Config) (e : Engine) : Engine :=
  let e' := allVoices.foldl (tickVoice c e.curStep) { e with playStep := e.curStep, playValid := true }
  { e' with curStep := e'.curStep + 1#4 }

/-- Part (1) of Frame: the countdown while playing (48_render_sequencer.md R207, R209). -/
def sequencerStep (c : Config) (e : Engine) : Engine :=
  if e.playing then
    if e.countdown ≤ 1#32 then
      let e' := tick c e
      { e' with countdown := e'.samplesPerStep }
    else { e with countdown := e.countdown - 1#32 }
  else e

/-- One voice rendered and added to the accumulator (47_gain_mixer.md R202). -/
def mixVoice (c : Config) (acc : Engine × Int) (v : VoiceIx) : Engine × Int :=
  let y := voiceSample c (acc.1.voice v)
  (acc.1.setVoice v y.2, acc.2 + asr (y.1 * c.mixCoeff.toNat) 15)

/-- Part (2) of Frame: the rendered voices in ascending order, summed exactly (47_gain_mixer.md R202). -/
def mix (c : Config) (e : Engine) : Engine × Int := renderedVoices.foldl (mixVoice c) (e, 0)

/-- Part (3) of Frame: both channels of the frame are the saturated sum (47_gain_mixer.md R203). -/
def emit (e : Engine) (acc : Int) : Engine :=
  let out := toSample (sat16 acc)
  let e' := (e.setAudio e.frameIdx.val false out).setAudio e.frameIdx.val true out
  { e' with frameIdx := e.frameIdx + 1 }

/-- Frame (48_render_sequencer.md R207): sequencer, voices and mix, output. -/
def frame (c : Config) (e : Engine) : Engine :=
  let m := mix c (sequencerStep c e)
  emit m.1 m.2

/-- BlockEnd (48_render_sequencer.md R212): the manual note, then the block is the transport's. -/
def blockEnd (c : Config) (e : Engine) : Engine :=
  let e' :=
    if e.pendingNote then
      { trigger c (setPitch c e.selVoice e.pendingNoteValue e) e.selVoice with pendingNote := false }
    else e
  { e' with busy := false }

/-- The render agent's next step: Frame or BlockEnd while a block is in progress, nothing between blocks
(48_render_sequencer.md R207, R212; 60_exceptions.md R234). -/
def renderStep (c : Config) (e : Engine) : Engine :=
  if e.busy then if e.frameIdx.val < blockN then frame c e else blockEnd c e else e

end Sys2Proof.Machine
end

