-- ==== Sys2Proof/Machine/Fetch.lean ====
section
/-!
DEFINITION. The steps of the three agents and of the platform, which `step` chooses from (00_scope.md R6; 20_memory.md
R66; log 3).
-/

namespace Sys2Proof.Machine

/-- The host's step: one command word decoded and executed, an illegal word refused (30_encoding.md R80, R84). -/
def runCommand (w : Word) (s : State) : Result :=
  match decode w with
  | .ok i => exec i s
  | .error _ => refuseIllegal s

/-- The period signal: BlockStart where no block is in progress; no step exists where one is
(48_render_sequencer.md R206, R213; log 6). -/
def periodSignal (s : State) : Result :=
  if s.hw.busy then .refused .periodWhileBusy else .next (s.withHw (blockStart s.cfg s.hw))

/-- The render agent's turn (48_render_sequencer.md R213). -/
def renderTurn (s : State) : Result := .next (s.withHw (renderStep s.cfg s.hw))

/-- The reset input: every component at its reset value, a block in progress abandoned
(70_reset_and_hazards.md R245 (1); log 13). -/
def hardwareReset (s : State) : Result := .next { State.resetOf s.cfg with inputs := s.inputs }

/-- The step of one event of the schedule. -/
def runInput (i : Input) (s : State) : Result :=
  match i with
  | .command w => runCommand w s
  | .period => periodSignal s
  | .render => renderTurn s
  | .hardReset => hardwareReset s

end Sys2Proof.Machine
end

