-- ==== Sys2Proof/Machine/Step.lean ====
section
/-!
DEFINITION. One step of the machine: the head of the schedule moves; where the schedule is empty the render agent has
its turn (00_scope.md R6; 20_memory.md R66; log 3).
-/

namespace Sys2Proof.Machine

/-- One atomic step (20_memory.md R64). -/
def step (s : State) : Host.Outcome State Fault Refusal :=
  match s.inputs with
  | [] => renderTurn s
  | i :: rest => runInput i { s with inputs := rest }

/-- The state in which the host presents the command word w next (log 3). -/
def State.withFetchWord (s : State) (nbits w : Nat) : State :=
  { s with inputs := .command (portWord nbits w) :: s.inputs }

end Sys2Proof.Machine
end

