-- ==== Sys2Proof/Safety.lean ====
section
/-!
DEFINITION. What a safe state of the machine is, in the terms that claims use: the lock lists and their ownership, the
note counts and field ranges (10_state.md R49), the canonical form of the memory spaces, silence, and runs of many steps.
-/

namespace Sys2Proof.Machine

/-- From the index `head`, following `next` visits exactly the records `l`, each with an index that names a record, and
then stands at `stop` (20_memory.md R61; 40_pool.md R103). -/
def LockPath (c : Config) (e : Engine) : PoolIx → List PoolIx → PoolIx → Prop
  | head, [], stop => head = stop
  | head, i :: l, stop =>
    head = i ∧ i ≠ sentinel ∧ poolIxInRange c i = true ∧ LockPath c e (e.record c i).next l stop

/-- `l` is the list that starts at `head`, in order, down to the sentinel (10_state.md R35). -/
def IsList (c : Config) (e : Engine) (head : PoolIx) (l : List PoolIx) : Prop := LockPath c e head l sentinel

/-- The walk that starts at `head` cannot end well: after the records `l` it stands at `stop`, which is neither the
sentinel nor below `POOL_C`, or is the record it came from, or it has passed `POOL_C` records (41_params_locks.md R112). -/
def CorruptAt (c : Config) (e : Engine) (head : PoolIx) (l : List PoolIx) (stop : PoolIx) : Prop :=
  LockPath c e head l stop ∧ stop ≠ sentinel
    ∧ (poolIxInRange c stop = false ∨ l.getLast? = some stop ∨ l.length = c.poolC)

/-- The walk that starts at `head` cannot end well after the records `l` (41_params_locks.md R112). -/
def CorruptAfter (c : Config) (e : Engine) (head : PoolIx) (l : List PoolIx) : Prop :=
  ∃ stop, CorruptAt c e head l stop

/-- From the index `cur`, the records `l` are replayed one after another as `StoreLock` calls against pattern q: each
call ends, `dropped` of them for want of room, and leaves the engine from which the next record is read; the last leaves
`e'` with the walk at `stop`. A record that links to itself can only be the last (41_params_locks.md R119). -/
def Replays (c : Config) (v : VoiceIx) (q : PatternIx) :
    Engine → PoolIx → List PoolIx → Nat → Engine → PoolIx → Prop
  | e, cur, [], dropped, e', stop => dropped = 0 ∧ e' = e ∧ stop = cur
  | e, cur, i :: l, dropped, e', stop =>
    cur = i ∧ i ≠ sentinel ∧ poolIxInRange c i = true ∧ ((e.record c i).next = i → l = [])
    ∧ ∃ st e1 n, storeLock c e v q (e.record c i).step (e.record c i).param (e.record c i).value = .ok (st, e1)
      ∧ st ≠ .cycle ∧ dropped = n + (if st = .exhausted then 1 else 0)
      ∧ Replays c v q e1 (e.record c i).next l n e' stop

/-- The lock that the records of `l` hold for a step and a parameter: the first that matches (41_params_locks.md R112). -/
def lockedValue (c : Config) (e : Engine) (l : List PoolIx) (st id : Byte) : Option Byte :=
  (l.find? fun i => (e.record c i).step == st && (e.record c i).param == id).map fun i => (e.record c i).value

/-- No two records of the list have one step and one parameter (10_state.md R49 item 3). -/
def KeysUnique (c : Config) (e : Engine) (l : List PoolIx) : Prop :=
  ∀ i ∈ l, ∀ j ∈ l, (e.record c i).step = (e.record c j).step → (e.record c i).param = (e.record c j).param → i = j

/-- Two records hold one lock: only their links may differ. -/
def SameLock (r r' : LockRecord) : Prop := r.param = r'.param ∧ r.step = r'.step ∧ r.value = r'.value

/-- The lock lists with one of them replaced. -/
def setList (own : VoiceIx → PatternIx → List PoolIx) (v : VoiceIx) (p : PatternIx) (l : List PoolIx) :
    VoiceIx → PatternIx → List PoolIx :=
  fun v' p' => if v' = v ∧ p' = p then l else own v' p'

/-- Whether the records of `l` hold a lock for a step and a parameter. -/
def holdsKey (c : Config) (e : Engine) (l : List PoolIx) (st id : Byte) : Bool :=
  l.any fun i => (e.record c i).step == st && (e.record c i).param == id

/-- The records of the list `src` whose step and parameter no record of `dst` has: those for which a copy of `src` into
`dst` needs a new record (41_params_locks.md R119; 70_reset_and_hazards.md R253). -/
def newLocks (c : Config) (e : Engine) (src dst : List PoolIx) : List PoolIx :=
  src.filter fun i => !holdsKey c e dst (e.record c i).step (e.record c i).param

/-- The pool is exactly the free list and the 256 lock lists `own` (10_state.md R49 items 1 to 3 and, for records on a
lock list, item 5). -/
structure PoolOwned (c : Config) (e : Engine) (free : List PoolIx) (own : VoiceIx → PatternIx → List PoolIx) : Prop where
  /-- The free list. -/
  freeList : IsList c e e.freeHead free
  /-- `freeCount` counts it. -/
  freeCount : e.freeCount.toNat = free.length
  /-- The lock lists. -/
  lists : ∀ v p, IsList c e (e.lockHead v p) (own v p)
  /-- No record is both free and in use. -/
  apart : ∀ v p, ∀ i ∈ own v p, i ∉ free
  /-- No record is owned by two lists. -/
  single : ∀ v p v' p', ∀ i ∈ own v p, i ∈ own v' p' → v = v' ∧ p = p'
  /-- No record is lost. -/
  covered : ∀ i, poolIxInRange c i = true → i ∈ free ∨ ∃ v p, i ∈ own v p
  /-- Keys are unique within a list. -/
  keys : ∀ v p, KeysUnique c e (own v p)
  /-- A record in use has a step and a parameter that a command can name. -/
  operands : ∀ v p, ∀ i ∈ own v p, (e.record c i).step.toNat < maxSteps ∧ (e.record c i).param.toNat < nParams

/-- The pool invariants hold (10_state.md R49 items 1 to 3). -/
def PoolSound (c : Config) (e : Engine) : Prop := ∃ free own, PoolOwned c e free own

/-- The steps of a pattern whose note byte has its active bit set, over all 64 slots (42_patterns.md R126). -/
def activeSteps (e : Engine) (v : VoiceIx) (p : PatternIx) : Nat :=
  (List.range maxSteps).countP fun i => (e.note v p (BitVec.ofNat 6 i)).getLsbD 7

/-- Every stored note count is the count (10_state.md R49 item 4). -/
def NoteCountsRight (e : Engine) : Prop := ∀ v p, (e.noteCount v p).toNat = activeSteps e v p

/-- The field ranges of 10_state.md R49 item 5 and of the latched increments (R27). `type` cannot hold a code over 4. -/
structure FieldsInRange (e : Engine) : Prop where
  /-- A length is 1..64. -/
  lengths : ∀ v p, 1 ≤ (e.length v p).toNat ∧ (e.length v p).toNat ≤ maxSteps
  /-- A pitch is a whole semitone. -/
  pitches : ∀ v, (e.voice v).pitch.extractLsb' 0 7 = 0#7
  /-- The step period is at least one frame. -/
  period : 1 ≤ e.samplesPerStep.toNat
  /-- The latched increments are 1..2^32. -/
  increments : ∀ v, 1 ≤ (e.voice v).attackInc.toNat ∧ (e.voice v).attackInc.toNat ≤ 2 ^ 32
    ∧ 1 ≤ (e.voice v).decayInc.toNat ∧ (e.voice v).decayInc.toNat ≤ 2 ^ 32

/-- Between two blocks no frame is outstanding: none has been produced since reset, or all of the block's (10_state.md
R46; 48_render_sequencer.md R213). -/
def BlocksWhole (e : Engine) : Prop := e.busy = false → e.frameIdx.val = 0 ∨ e.frameIdx.val = blockN

/-- The invariants of 10_state.md R49 and R46, over an implementation whose parameters are legal. -/
structure Sound (s : State) : Prop where
  parameters : s.cfg.valid
  pool : PoolSound s.cfg s.hw
  noteCounts : NoteCountsRight s.hw
  fields : FieldsInRange s.hw
  blocks : BlocksWhole s.hw

/-- Every memory space is in its canonical form (20_memory.md R60; log 9). -/
def memoryCanonical (c : Config) (e : Engine) : Bool :=
  Memory.wf parReset 512 e.parMem && Memory.wf byteReset 16384 e.noteMem && Memory.wf byteReset 16384 e.keyMem
    && Memory.wf lengthReset 256 e.lengthMem && Memory.wf byteReset 256 e.rateMem
    && Memory.wf noteCountReset 256 e.noteCountMem && Memory.wf lockHeadReset 256 e.lockHeadMem
    && Memory.wf (recordReset c) c.poolC e.poolMem && Memory.wf trigReset 256 e.trigMem
    && Memory.wf byteReset 256 e.gnoteMem && Memory.wf audioReset 256 e.audioMem

/-- The free list's head names a record or is the sentinel, so `allocate` cannot fault (log 7). -/
def FreeHeadNames (c : Config) (e : Engine) : Prop := e.freeHead = sentinel ∨ poolIxInRange c e.freeHead = true

/-- A walk of one of the eight parameters that a pull of the voice resolves under the context `ctx` finds the list
corrupt (45_envelope.md R186; 60_exceptions.md R222). -/
def PullFaults (c : Config) (e : Engine) (v : VoiceIx) (ctx : Option (PatternIx × StepIx)) : Prop :=
  ∃ id ∈ ([0#5, 2#5, 3#5, 6#5, 7#5, 24#5, 25#5, 26#5] : List ParamId), (resolveParam c e v id ctx).2 = true

/-- Every rendered voice is dead with a cleared filter: silence (47_gain_mixer.md R204; 46_filter.md R192). -/
def Quiet (e : Engine) : Prop :=
  ∀ v ∈ renderedVoices, (e.voice v).seg = .dead ∧ (e.voice v).low = 0#16 ∧ (e.voice v).band = 0#16

/-- `e'` differs from `e` only in what the render agent may write (20_memory.md R72): registers but the type, position
and countdown, the step context, the pending flag, `DIAG` bit 1, the block state and AUDIO. -/
structure RenderWrites (e e' : Engine) : Prop where
  others : e' = { e with
    x := e'.x, curStep := e'.curStep, countdown := e'.countdown, playStep := e'.playStep, playValid := e'.playValid,
    pendingNote := e'.pendingNote, diag := e'.diag, busy := e'.busy, frameIdx := e'.frameIdx, audioMem := e'.audioMem }
  types : ∀ v, (e'.voice v).kind = (e.voice v).kind
  cause : e'.diag = e.diag ∨ e'.diag = e.diag ||| diagListCycle

/-- `e'` differs from `e` only in what a command other than `SOFT_RESET` may write (20_memory.md R72): not the block
state, AUDIO or `playStep`, and of a voice's registers the type alone. -/
structure HostWrites (e e' : Engine) : Prop where
  blocks : e'.busy = e.busy ∧ e'.frameIdx = e.frameIdx ∧ e'.audioMem = e.audioMem ∧ e'.playStep = e.playStep
  registers : ∀ v, e'.voice v = { e.voice v with kind := (e'.voice v).kind }

/-- k steps of the machine, to the first fault or refusal. -/
def runSteps : Nat → State → Result
  | 0, s => .next s
  | k + 1, s =>
    match step s with
    | .next t => runSteps k t
    | .fault f => .fault f
    | .refused r => .refused r

/-- The envelope part of k Frame steps of a voice with no trigger and no pull between (45_envelope.md R182, R184). -/
def envFrames (c : Config) : Nat → Instrument → Instrument
  | 0, r => r
  | k + 1, r => envFrames c k (envAdvance c r)

end Sys2Proof.Machine
end

