-- ==== Sys2Proof/WellFormed.lean ====
section
/-!
DEFINITION. Which commands have every operand in range: step (3) of the decode order (30_encoding.md R84, R88 (b)).
The field widths are in the types of `Instr`, so nothing else can be ill-formed.
-/

namespace Sys2Proof

open Sys2Proof.Machine

/-- Every operand of the command is in the range that 30_encoding.md R88 (b) gives it. The index of `POOL_RD` is
checked against the implementation's `POOL_C`. -/
def wellFormed (c : Config) : Instr → Bool
  | .nop => true
  | .paramWr _ id _ => paramInUse id
  | .paramRd _ id => paramInUse id
  | .resolve _ _ _ id => paramInUse id
  | .lockSt _ _ _ id _ => paramInUse id
  | .lockClr _ _ => true
  | .lockRms _ _ _ => true
  | .lockCpy _ _ _ => true
  | .lockHas _ _ _ => true
  | .noteSet _ _ _ _ => true
  | .keySet _ _ _ _ => true
  | .noteGet _ _ _ => true
  | .plenSet _ _ val => lengthInRange val
  | .prateSet _ _ _ => true
  | .patDbl _ _ => true
  | .patCpy _ _ _ => true
  | .patInfo _ _ _ => true
  | .typeSet _ val => typeInRange val
  | .patSel _ _ => true
  | .gridTrig _ _ m => gridModeInRange m
  | .gridNote _ _ _ => true
  | .gridRd _ _ => true
  | .voiceRd _ _ => true
  | .play _ => true
  | .selVoice _ => true
  | .modeSet _ => true
  | .tempoSet bpm => tempoInRange bpm
  | .noteReq _ => true
  | .seqRd _ => true
  | .poolRd ix _ => poolIxInRange c ix
  | .poolStat => true
  | .diagRd => true
  | .diagClr _ => true
  | .softReset => true

end Sys2Proof
end

