-- ==== Sys2Proof/Certificates/Slice0/Obligations.lean ====
section
/-!
DEFINITION. What the provers are asked to prove of the model: 60 statements from the numbered rules of spec/. Each
docstring names the rule. Where a statement is about a pool, its premise is the ownership invariant `PoolOwned`
(10_state.md R49), itself kept by every step (`StepKeepsSound`).
-/

section

open Sys2Proof Sys2Proof.Machine

/-! Encoding (30_encoding.md). -/

/-- Every command, with every operand at every value of its field, is read back from its word (R81, R82, R85 to R87). -/
def Obligations.DecodeReadsWhatEncodeWrites : Prop := ∀ i : Instr, decode (encode i) = .ok i

/-- A legal word is the word of the command it decodes to: no bit of a word is dropped (R81 to R87). -/
def Obligations.EncodeRebuildsEveryLegalWord : Prop := ∀ (w : Word) (i : Instr), decode w = .ok i → encode i = w

/-- A word is a command of a row exactly when its masked bits are the row's, and no word is a command of two rows
(R85, R86). -/
def Obligations.CommandExactlyWhenMaskedBitsMatch : Prop :=
  (∀ r ∈ opcodeRows, ∀ w : Word, w &&& r.mask = r.bits ↔ ∃ i, decode w = .ok i ∧ rowOf i = r)
  ∧ ∀ r ∈ opcodeRows, ∀ r' ∈ opcodeRows, ∀ w : Word,
      w &&& r.mask = r.bits → w &&& r'.mask = r'.bits → r = r'

/-- A word is illegal exactly when it is a command of no row (R84, R88). -/
def Obligations.IllegalExactlyWhenNoRowMatches : Prop :=
  ∀ w : Word, (∃ why, decode w = .error why) ↔ ∀ r ∈ opcodeRows, w &&& r.mask ≠ r.bits

/-- One word of each family, as 95_test_vectors.md writes it in its sections 2.1, 2.10 and 3 (programs P1, P2, P3). -/
def Obligations.SpecWordsDecode : Prop :=
  decode 0x08000264#32 = .ok (.paramWr 0#4 2#5 100#8)
  ∧ decode 0x2001224D#32 = .ok (.lockSt 0#4 0#4 9#6 2#5 77#8)
  ∧ decode 0x7918A000#32 = .ok (.patCpy 2#4 3#4 5#4)
  ∧ decode 0xA001803C#32 = .ok (.gridNote 0#4 12#4 60#8)
  ∧ decode 0xF980012C#32 = .ok (.tempoSet 300#16)
  ∧ decode 0xFB010002#32 = .ok (.poolRd 2#16 1#1)
  ∧ decode 0xFD05A5A5#32 = .ok .softReset

/-! The step (20_memory.md R66; 30_encoding.md R80, R84). -/

/-- A presented word that decodes to a command is executed, and the schedule moves on; `withFetchWord` presents a word
so. -/
def Obligations.StepRunsTheDecodedCommand : Prop :=
  (∀ (s : State) (w : Word) (rest : List Input) (i : Instr),
    s.inputs = .command w :: rest → decode w = .ok i → step s = exec i { s with inputs := rest })
  ∧ ∀ (s : State) (i : Instr), step (s.withFetchWord 32 (encode i).toNat) = exec i s

/-- An illegal word sets `DIAG` bit 2, answers (ILLEGAL, 0) and changes nothing else (R84; 60_exceptions.md R223). -/
def Obligations.IllegalWordChangesOnlyDiag : Prop :=
  ∀ (s : State) (w : Word) (rest : List Input) (why : Illegal),
    s.inputs = .command w :: rest → decode w = .error why →
      step s = .next { s with
        inputs := rest, hw := { s.hw with diag := s.hw.diag ||| 4#4 }, response := some ⟨1#4, 0#32⟩ }

/-- A command with an operand out of the range that R88 (b) gives it sets `DIAG` bit 3, answers (BAD_OPERAND, 0) and
changes nothing else; so does every command that the model calls ill-formed (R84, R88 (b); 60_exceptions.md R223). -/
def Obligations.RefusedOperandChangesOnlyDiag : Prop :=
  ∀ s t : State,
    t = { s with hw := { s.hw with diag := s.hw.diag ||| 8#4 }, response := some ⟨2#4, 0#32⟩ } →
      (∀ (v : VoiceIx) (p : PatternIx) (st : StepIx) (id : ParamId) (val : Byte), 27 ≤ id.toNat →
        exec (.paramWr v id val) s = .next t ∧ exec (.paramRd v id) s = .next t
        ∧ exec (.resolve v p st id) s = .next t ∧ exec (.lockSt v p st id val) s = .next t)
      ∧ (∀ (v : VoiceIx) (p : PatternIx) (val : Byte), val.toNat < 1 ∨ 64 < val.toNat →
        exec (.plenSet v p val) s = .next t)
      ∧ (∀ (v : VoiceIx) (val : Byte), 4 < val.toNat → exec (.typeSet v val) s = .next t)
      ∧ (∀ (v : VoiceIx) (g : GridIx), exec (.gridTrig v g 3#2) s = .next t)
      ∧ exec (.tempoSet 0#16) s = .next t
      ∧ (∀ (ix : PoolIx) (sel : BitVec 1), s.cfg.poolC ≤ ix.toNat → exec (.poolRd ix sel) s = .next t)
      ∧ ∀ i : Instr, wellFormed s.cfg i = false → exec i s = .next t

/-! Parameters and locks (41_params_locks.md). -/

/-- `PARAM_WR` stores its byte and changes nothing else; `PARAM_RD` answers the voice-level value and changes nothing
(R110, R111). -/
def Obligations.ParameterWriteStoresOneByteAndReadAnswersIt : Prop :=
  ∀ (s : State) (v : VoiceIx) (id : ParamId) (val : Byte), id.toNat < 27 →
    (∃ e, exec (.paramWr v id val) s = .next { s with hw := e, response := some ⟨0#4, 0#32⟩ }
      ∧ e = { s.hw with parMem := e.parMem }
      ∧ e.par v id = val
      ∧ ∀ v' id', ¬(v' = v ∧ id' = id) → e.par v' id' = s.hw.par v' id')
    ∧ exec (.paramRd v id) s = .next { s with response := some ⟨0#4, (s.hw.par v id).setWidth 32⟩ }

/-- On a list, `RESOLVE` answers the value of the lock for its step and parameter, or else the voice-level value, and
changes nothing (R112 to R114). -/
def Obligations.ResolveAnswersTheLockOrTheDefault : Prop :=
  ∀ (s : State) (v : VoiceIx) (p : PatternIx) (st : StepIx) (id : ParamId) (l : List PoolIx), id.toNat < 27 →
    IsList s.cfg s.hw (s.hw.lockHead v p) l →
      exec (.resolve v p st id) s
        = .next { s with
            response := some ⟨0#4,
              ((lockedValue s.cfg s.hw l (st.setWidth 8) (id.setWidth 8)).getD (s.hw.par v id)).setWidth 32⟩ }

/-- A walk over a corrupt chain in which no record has the step ends with status CYCLE and `DIAG` bit 1, and changes
nothing else, for each of the four commands that may walk one without releasing (R112, R114 to R116, R118, R120;
60_exceptions.md R222). -/
def Obligations.WalkOverACorruptListOnlyRaisesCycle : Prop :=
  ∀ (s : State) (v : VoiceIx) (p : PatternIx) (st : StepIx) (id : ParamId) (val : Byte) (l : List PoolIx),
    id.toNat < 27 → CorruptAfter s.cfg s.hw (s.hw.lockHead v p) l →
    (∀ i ∈ l, (s.hw.record s.cfg i).step ≠ st.setWidth 8) →
      exec (.resolve v p st id) s
          = .next { s with
              hw := { s.hw with diag := s.hw.diag ||| 2#4 },
              response := some ⟨4#4, (s.hw.par v id).setWidth 32⟩ }
      ∧ exec (.lockSt v p st id val) s
          = .next { s with hw := { s.hw with diag := s.hw.diag ||| 2#4 }, response := some ⟨4#4, 0#32⟩ }
      ∧ exec (.lockRms v p st) s
          = .next { s with hw := { s.hw with diag := s.hw.diag ||| 2#4 }, response := some ⟨4#4, 0#32⟩ }
      ∧ exec (.lockHas v p st) s
          = .next { s with hw := { s.hw with diag := s.hw.diag ||| 2#4 }, response := some ⟨4#4, 0#32⟩ }

/-- `LOCK_ST` where the pattern has the lock: its value alone changes, and no record is taken (R115, R116). -/
def Obligations.LockStoreUpdatesInPlace : Prop :=
  ∀ (s : State) (v : VoiceIx) (p : PatternIx) (st : StepIx) (id : ParamId) (val : Byte) (free : List PoolIx)
    (own : VoiceIx → PatternIx → List PoolIx) (i : PoolIx), id.toNat < 27 →
    PoolOwned s.cfg s.hw free own → i ∈ own v p →
    (s.hw.record s.cfg i).step = st.setWidth 8 → (s.hw.record s.cfg i).param = id.setWidth 8 →
      ∃ e, exec (.lockSt v p st id val) s = .next { s with hw := e, response := some ⟨0#4, 0#32⟩ }
        ∧ e = { s.hw with poolMem := e.poolMem }
        ∧ e.record s.cfg i = { s.hw.record s.cfg i with value := val }
        ∧ (∀ j, j ≠ i → e.record s.cfg j = s.hw.record s.cfg j)
        ∧ PoolOwned s.cfg e free own

/-- `LOCK_ST` where the pattern lacks the lock and a record is free: the first free record becomes the pattern's first
lock, and nothing else changes (R115, R116; 40_pool.md R101). -/
def Obligations.LockStorePushesAFreeRecord : Prop :=
  ∀ (s : State) (v : VoiceIx) (p : PatternIx) (st : StepIx) (id : ParamId) (val : Byte) (i : PoolIx)
    (free : List PoolIx) (own : VoiceIx → PatternIx → List PoolIx), id.toNat < 27 →
    PoolOwned s.cfg s.hw (i :: free) own →
    holdsKey s.cfg s.hw (own v p) (st.setWidth 8) (id.setWidth 8) = false →
      ∃ e, exec (.lockSt v p st id val) s = .next { s with hw := e, response := some ⟨0#4, 0#32⟩ }
        ∧ e = { s.hw with
            poolMem := e.poolMem, freeHead := e.freeHead, freeCount := e.freeCount, lockHeadMem := e.lockHeadMem }
        ∧ e.record s.cfg i = ⟨id.setWidth 8, st.setWidth 8, val, s.hw.lockHead v p⟩
        ∧ (∀ j, j ≠ i → e.record s.cfg j = s.hw.record s.cfg j)
        ∧ PoolOwned s.cfg e free (setList own v p (i :: own v p))

/-- `LOCK_ST` where the pattern lacks the lock and no record is free: the lock is dropped, `DIAG` bit 0 is set, and
existing locks are unaffected (R115, R116; 60_exceptions.md R221). -/
def Obligations.LockStoreOnAFullPoolDropsTheLock : Prop :=
  ∀ (s : State) (v : VoiceIx) (p : PatternIx) (st : StepIx) (id : ParamId) (val : Byte) (l : List PoolIx),
    id.toNat < 27 → IsList s.cfg s.hw (s.hw.lockHead v p) l →
    holdsKey s.cfg s.hw l (st.setWidth 8) (id.setWidth 8) = false → s.hw.freeHead = sentinel →
      exec (.lockSt v p st id val) s
        = .next { s with hw := { s.hw with diag := s.hw.diag ||| 1#4 }, response := some ⟨3#4, 0#32⟩ }

/-- The lock round trip: after a `LOCK_ST` that answered OK, `RESOLVE` of that voice, pattern, step and parameter answers
the stored value, and every other resolution is what it was (R122 items 1 and 5). -/
def Obligations.StoredLockIsResolvedAndNoOtherChanges : Prop :=
  ∀ (s t : State) (v : VoiceIx) (p : PatternIx) (st : StepIx) (id : ParamId) (val : Byte), id.toNat < 27 →
    PoolSound s.cfg s.hw → exec (.lockSt v p st id val) s = .next t → t.response = some ⟨0#4, 0#32⟩ →
      exec (.resolve v p st id) t = .next { t with response := some ⟨0#4, val.setWidth 32⟩ }
      ∧ (∀ v' p' st' id', ¬(v' = v ∧ p' = p ∧ st' = st ∧ id' = id) →
          resolveParam t.cfg t.hw v' id' (some (p', st')) = resolveParam s.cfg s.hw v' id' (some (p', st')))
      ∧ ∀ v' id', resolveParam t.cfg t.hw v' id' none = resolveParam s.cfg s.hw v' id' none

/-- `LOCK_CLR` leaves the pattern without locks on every path, from every state; on a corrupt chain whose records are
distinct it frees each of them, answers CYCLE with their number, sets `DIAG` bit 1 and changes nothing else (R117;
60_exceptions.md R222). That `freeCount` gains their number modulo 2^16, in states whose count is wrong, is the model's
choice and no rule's: no reachable state is one (log 16). -/
def Obligations.LockClearAlwaysEmptiesThePattern : Prop :=
  (∀ (s : State) (v : VoiceIx) (p : PatternIx),
    ∃ t, exec (.lockClr v p) s = .next t ∧ t.hw.lockHead v p = sentinel
      ∧ ∀ v' p', ¬(v' = v ∧ p' = p) → t.hw.lockHead v' p' = s.hw.lockHead v' p')
  ∧ ∀ (s : State) (v : VoiceIx) (p : PatternIx) (l : List PoolIx),
    CorruptAfter s.cfg s.hw (s.hw.lockHead v p) l → l.Nodup →
      ∃ e, exec (.lockClr v p) s
          = .next { s with hw := e, response := some ⟨4#4, BitVec.ofNat 32 l.length⟩ }
        ∧ e = { s.hw with
            poolMem := e.poolMem, freeHead := e.freeHead, freeCount := s.hw.freeCount + BitVec.ofNat 16 l.length,
            lockHeadMem := e.lockHeadMem, diag := s.hw.diag ||| 2#4 }
        ∧ LockPath s.cfg e e.freeHead l.reverse s.hw.freeHead
        ∧ (∀ i, SameLock (e.record s.cfg i) (s.hw.record s.cfg i))
        ∧ ∀ i, i ∉ l → e.record s.cfg i = s.hw.record s.cfg i

/-- `LOCK_CLR` frees every record of the pattern, in list order, and touches no other list and no lock's contents (R117,
R122 items 3 and 5). -/
def Obligations.LockClearFreesTheWholeList : Prop :=
  ∀ (s : State) (v : VoiceIx) (p : PatternIx) (free : List PoolIx) (own : VoiceIx → PatternIx → List PoolIx),
    PoolOwned s.cfg s.hw free own →
      ∃ e, exec (.lockClr v p) s
          = .next { s with hw := e, response := some ⟨0#4, BitVec.ofNat 32 (own v p).length⟩ }
        ∧ e = { s.hw with
            poolMem := e.poolMem, freeHead := e.freeHead, freeCount := e.freeCount, lockHeadMem := e.lockHeadMem }
        ∧ (∀ i, SameLock (e.record s.cfg i) (s.hw.record s.cfg i))
        ∧ PoolOwned s.cfg e ((own v p).reverse ++ free) (setList own v p [])

/-- `LOCK_RMS` frees exactly the pattern's records of its step and keeps the others in order (R118, R122 items 4
and 5). -/
def Obligations.LockRemovalFreesExactlyTheStep : Prop :=
  ∀ (s : State) (v : VoiceIx) (p : PatternIx) (st : StepIx) (free : List PoolIx)
    (own : VoiceIx → PatternIx → List PoolIx), PoolOwned s.cfg s.hw free own →
      ∃ e, exec (.lockRms v p st) s
          = .next { s with
              hw := e,
              response := some ⟨0#4, BitVec.ofNat 32
                ((own v p).filter fun i => (s.hw.record s.cfg i).step == st.setWidth 8).length⟩ }
        ∧ e = { s.hw with
            poolMem := e.poolMem, freeHead := e.freeHead, freeCount := e.freeCount, lockHeadMem := e.lockHeadMem }
        ∧ (∀ i, SameLock (e.record s.cfg i) (s.hw.record s.cfg i))
        ∧ PoolOwned s.cfg e
            (((own v p).filter fun i => (s.hw.record s.cfg i).step == st.setWidth 8).reverse ++ free)
            (setList own v p ((own v p).filter fun i => !((s.hw.record s.cfg i).step == st.setWidth 8)))

/-- `LOCK_CPY` between two patterns stores every lock of the source in the destination, taking one free record for each
lock the destination lacks and dropping, with status EXHAUSTED, those for which none is left; onto itself it changes no
record (R119; 70_reset_and_hazards.md R253). -/
def Obligations.LockCopyReplaysEveryLock : Prop :=
  (∀ (s : State) (v : VoiceIx) (p q : PatternIx) (free : List PoolIx) (own : VoiceIx → PatternIx → List PoolIx)
      (new : List PoolIx), p ≠ q → PoolOwned s.cfg s.hw free own → new = newLocks s.cfg s.hw (own v p) (own v q) →
      ∃ e, exec (.lockCpy v p q) s
          = .next { s with
              hw := e,
              response := some ⟨if new.length ≤ free.length then 0#4 else 3#4,
                BitVec.ofNat 32 (new.length - free.length)⟩ }
        ∧ e = { s.hw with
            poolMem := e.poolMem, freeHead := e.freeHead, freeCount := e.freeCount, lockHeadMem := e.lockHeadMem,
            diag := if new.length ≤ free.length then s.hw.diag else s.hw.diag ||| 1#4 }
        ∧ PoolOwned s.cfg e (free.drop new.length)
            (setList own v q ((free.take new.length).reverse ++ own v q))
        ∧ (∀ x ∈ new.zip free, SameLock (e.record s.cfg x.2) (s.hw.record s.cfg x.1))
        ∧ (∀ j ∈ own v q, SameLock (e.record s.cfg j)
            { s.hw.record s.cfg j with
              value := (lockedValue s.cfg s.hw (own v p) (s.hw.record s.cfg j).step
                (s.hw.record s.cfg j).param).getD (s.hw.record s.cfg j).value })
        ∧ ∀ j, j ∉ own v q → j ∉ free.take new.length → e.record s.cfg j = s.hw.record s.cfg j)
  ∧ ∀ (s : State) (v : VoiceIx) (p : PatternIx), PoolSound s.cfg s.hw →
      ∃ e, exec (.lockCpy v p p) s = .next { s with hw := e, response := some ⟨0#4, 0#32⟩ }
        ∧ e = { s.hw with poolMem := e.poolMem }
        ∧ ∀ j, e.record s.cfg j = s.hw.record s.cfg j

/-- What the two other walks that write do on a corrupt chain. `LOCK_RMS`, where the chain's records are distinct, frees
those of its step that the walk passes (a record that links to itself is not passed), keeps the others in order before
the corrupt link, answers CYCLE with the number removed and sets `DIAG` bit 1. `LOCK_CPY` replays every record up to the
corrupt link of the source, or up to the first whose own `StoreLock` finds the destination corrupt, and answers CYCLE
with the number dropped so far (R112, R118, R119; 60_exceptions.md R222). That `freeCount` gains the number removed modulo
2^16, in states whose count is wrong, is the model's choice and no rule's: no reachable state is one (log 16). -/
def Obligations.LockRemovalAndCopyStopAtACorruptLink : Prop :=
  (∀ (s : State) (v : VoiceIx) (p : PatternIx) (st : StepIx) (l walked removed kept : List PoolIx) (stop : PoolIx),
    CorruptAt s.cfg s.hw (s.hw.lockHead v p) l stop → l.Nodup →
    walked = (if l.getLast? = some stop then l.dropLast else l) →
    removed = walked.filter (fun i => (s.hw.record s.cfg i).step == st.setWidth 8) →
    kept = walked.filter (fun i => !((s.hw.record s.cfg i).step == st.setWidth 8)) →
      ∃ e, exec (.lockRms v p st) s
          = .next { s with hw := e, response := some ⟨4#4, BitVec.ofNat 32 removed.length⟩ }
        ∧ e = { s.hw with
            poolMem := e.poolMem, freeHead := e.freeHead,
            freeCount := s.hw.freeCount + BitVec.ofNat 16 removed.length,
            lockHeadMem := e.lockHeadMem, diag := s.hw.diag ||| 2#4 }
        ∧ (∀ v' p', ¬(v' = v ∧ p' = p) → e.lockHead v' p' = s.hw.lockHead v' p')
        ∧ LockPath s.cfg e (e.lockHead v p) kept stop
        ∧ LockPath s.cfg e e.freeHead removed.reverse s.hw.freeHead
        ∧ (∀ i, SameLock (e.record s.cfg i) (s.hw.record s.cfg i))
        ∧ ∀ i, i ∉ walked → e.record s.cfg i = s.hw.record s.cfg i)
  ∧ (∀ (s : State) (v : VoiceIx) (p q : PatternIx) (l : List PoolIx) (dropped : Nat) (e : Engine) (stop : PoolIx),
    Replays s.cfg v q s.hw (s.hw.lockHead v p) l dropped e stop → l.length ≤ s.cfg.poolC → stop ≠ sentinel →
    poolIxInRange s.cfg stop = false ∨ l.getLast? = some stop ∨ l.length = s.cfg.poolC →
      exec (.lockCpy v p q) s
        = .next { s with
            hw := { e with diag := e.diag ||| 2#4 }, response := some ⟨4#4, BitVec.ofNat 32 dropped⟩ })
  ∧ ∀ (s : State) (v : VoiceIx) (p q : PatternIx) (l : List PoolIx) (dropped : Nat) (e e' : Engine) (stop : PoolIx),
    Replays s.cfg v q s.hw (s.hw.lockHead v p) l dropped e stop → l.length < s.cfg.poolC → stop ≠ sentinel →
    poolIxInRange s.cfg stop = true → l.getLast? ≠ some stop →
    storeLock s.cfg e v q (e.record s.cfg stop).step (e.record s.cfg stop).param (e.record s.cfg stop).value
      = .ok (.cycle, e') →
      e' = { e with diag := e.diag ||| 2#4 }
      ∧ exec (.lockCpy v p q) s
        = .next { s with hw := e', response := some ⟨4#4, BitVec.ofNat 32 dropped⟩ }

/-- `LOCK_HAS` answers whether the pattern has a lock at the step, and changes nothing (R120). -/
def Obligations.LockHasAnswersWhetherTheStepIsLocked : Prop :=
  ∀ (s : State) (v : VoiceIx) (p : PatternIx) (st : StepIx) (l : List PoolIx),
    IsList s.cfg s.hw (s.hw.lockHead v p) l →
      ∃ d : Word, exec (.lockHas v p st) s = .next { s with response := some ⟨0#4, d⟩ }
        ∧ d.toNat ≤ 1 ∧ (d = 1#32 ↔ ∃ i ∈ l, (s.hw.record s.cfg i).step = st.setWidth 8)

/-! The pool (40_pool.md). -/

/-- `POOL_RD` answers the record's fields, `POOL_STAT` the free count and head; neither changes anything (R105, R106). -/
def Obligations.PoolReadsAnswerTheRecordAndTheOccupancy : Prop :=
  (∀ (s : State) (ix : PoolIx), s.cfg.poolC ≤ 32768 → ix.toNat < s.cfg.poolC →
    ∃ d0 d1 : Word, exec (.poolRd ix 0#1) s = .next { s with response := some ⟨0#4, d0⟩ }
      ∧ exec (.poolRd ix 1#1) s = .next { s with response := some ⟨0#4, d1⟩ }
      ∧ d0.toNat = (s.hw.record s.cfg ix).param.toNat * 65536 + (s.hw.record s.cfg ix).step.toNat * 256
          + (s.hw.record s.cfg ix).value.toNat
      ∧ d1.toNat = (s.hw.record s.cfg ix).next.toNat)
  ∧ ∀ s : State, ∃ d : Word, exec .poolStat s = .next { s with response := some ⟨0#4, d⟩ }
      ∧ d.toNat = s.hw.freeCount.toNat * 65536 + s.hw.freeHead.toNat

/-- `allocate` pops the free list and touches no record; `release` pushes on it and writes the record's link alone; a
released record is the next one allocated (R101, R102). That `freeCount` moves modulo 2^16, where it is 0 with a head that
names a record or 65535, is the model's choice and no rule's: no reachable state is one (log 16). -/
def Obligations.AllocatePopsAndReleasePushes : Prop :=
  (∀ (c : Config) (e : Engine), e.freeHead = sentinel → allocate c e = .ok none)
  ∧ (∀ (c : Config) (e : Engine), e.freeHead ≠ sentinel → e.freeHead.toNat < c.poolC →
      allocate c e = .ok (some (e.freeHead,
        { e with freeHead := (e.record c e.freeHead).next, freeCount := e.freeCount - 1#16 })))
  ∧ (∀ (c : Config) (e : Engine) (i : PoolIx),
      release c e i = { e with poolMem := (release c e i).poolMem, freeHead := i, freeCount := e.freeCount + 1#16 }
      ∧ (release c e i).record c i = { e.record c i with next := e.freeHead }
      ∧ ∀ j, j ≠ i → (release c e i).record c j = e.record c j)
  ∧ ∀ (c : Config) (e : Engine) (i : PoolIx), i ≠ sentinel → i.toNat < c.poolC →
      ∃ e', allocate c (release c e i) = .ok (some (i, e')) ∧ e'.freeHead = e.freeHead ∧ e'.freeCount = e.freeCount

/-! Patterns (42_patterns.md). -/

/-- `NOTE_SET` writes one note byte and counts it: the count moves by the active bits, stays right where all counts are,
and is the answer (R126, R127). -/
def Obligations.NoteWriteKeepsTheCount : Prop :=
  ∀ (s : State) (v : VoiceIx) (p : PatternIx) (st : StepIx) (val : Byte),
    ∃ e, exec (.noteSet v p st val) s
        = .next { s with hw := e, response := some ⟨0#4, (e.noteCount v p).setWidth 32⟩ }
      ∧ e = { s.hw with noteMem := e.noteMem, noteCountMem := e.noteCountMem }
      ∧ (∀ v' p' st', e.note v' p' st' = if v' = v ∧ p' = p ∧ st' = st then val else s.hw.note v' p' st')
      ∧ (∀ v' p', ¬(v' = v ∧ p' = p) → e.noteCount v' p' = s.hw.noteCount v' p')
      ∧ (NoteCountsRight s.hw → NoteCountsRight e
          ∧ (e.noteCount v p).toNat + ((s.hw.note v p st).getLsbD 7).toNat
            = (s.hw.noteCount v p).toNat + (val.getLsbD 7).toNat)

/-- `KEY_SET`, `PLEN_SET` and `PRATE_SET` write their one element and change nothing else (R128, R130, R131). -/
def Obligations.PatternWritesStoreOneElement : Prop :=
  (∀ (s : State) (v : VoiceIx) (p : PatternIx) (st : StepIx) (val : Byte),
    ∃ e, exec (.keySet v p st val) s = .next { s with hw := e, response := some ⟨0#4, 0#32⟩ }
      ∧ e = { s.hw with keyMem := e.keyMem }
      ∧ ∀ v' p' st', e.key v' p' st' = if v' = v ∧ p' = p ∧ st' = st then val else s.hw.key v' p' st')
  ∧ (∀ (s : State) (v : VoiceIx) (p : PatternIx) (val : Byte), 1 ≤ val.toNat → val.toNat ≤ 64 →
    ∃ e, exec (.plenSet v p val) s = .next { s with hw := e, response := some ⟨0#4, 0#32⟩ }
      ∧ e = { s.hw with lengthMem := e.lengthMem }
      ∧ (e.length v p).toNat = val.toNat
      ∧ ∀ v' p', ¬(v' = v ∧ p' = p) → e.length v' p' = s.hw.length v' p')
  ∧ ∀ (s : State) (v : VoiceIx) (p : PatternIx) (val : Byte),
    ∃ e, exec (.prateSet v p val) s = .next { s with hw := e, response := some ⟨0#4, 0#32⟩ }
      ∧ e = { s.hw with rateMem := e.rateMem }
      ∧ ∀ v' p', e.rate v' p' = if v' = v ∧ p' = p then val else s.hw.rate v' p'

/-- `NOTE_GET` and `PAT_INFO` answer the stored elements and change nothing (R129, R134). -/
def Obligations.PatternReadsAnswerTheElements : Prop :=
  (∀ (s : State) (v : VoiceIx) (p : PatternIx) (st : StepIx),
    ∃ d : Word, exec (.noteGet v p st) s = .next { s with response := some ⟨0#4, d⟩ }
      ∧ d.toNat = (s.hw.key v p st).toNat * 256 + (s.hw.note v p st).toNat)
  ∧ ∀ (s : State) (v : VoiceIx) (p : PatternIx),
    ∃ d0 d1 : Word, exec (.patInfo v p 0#1) s = .next { s with response := some ⟨0#4, d0⟩ }
      ∧ exec (.patInfo v p 1#1) s = .next { s with response := some ⟨0#4, d1⟩ }
      ∧ d0.toNat = (s.hw.rate v p).toNat * 65536 + (s.hw.noteCount v p).toNat * 256 + (s.hw.length v p).toNat
      ∧ d1.toNat = (s.hw.lockHead v p).toNat

/-- `PAT_DBL` of a length up to 32 copies the first half, note and key, to the second, doubles the length and keeps the
counts right; of a longer one it changes nothing (R132). -/
def Obligations.PatternDoublingRepeatsTheFirstHalf : Prop :=
  (∀ (s : State) (v : VoiceIx) (p : PatternIx) (n : Nat), n = (s.hw.length v p).toNat → n ≤ 32 →
    ∃ e, exec (.patDbl v p) s = .next { s with hw := e, response := some ⟨0#4, BitVec.ofNat 32 (2 * n)⟩ }
      ∧ e = { s.hw with
          noteMem := e.noteMem, keyMem := e.keyMem, lengthMem := e.lengthMem, noteCountMem := e.noteCountMem }
      ∧ (e.length v p).toNat = 2 * n
      ∧ (∀ st : StepIx, e.note v p st
          = if n ≤ st.toNat ∧ st.toNat < 2 * n then s.hw.note v p (st - BitVec.ofNat 6 n) else s.hw.note v p st)
      ∧ (∀ st : StepIx, e.key v p st
          = if n ≤ st.toNat ∧ st.toNat < 2 * n then s.hw.key v p (st - BitVec.ofNat 6 n) else s.hw.key v p st)
      ∧ (∀ v' p', ¬(v' = v ∧ p' = p) → e.length v' p' = s.hw.length v' p' ∧ e.noteCount v' p' = s.hw.noteCount v' p'
          ∧ ∀ st, e.note v' p' st = s.hw.note v' p' st ∧ e.key v' p' st = s.hw.key v' p' st)
      ∧ (NoteCountsRight s.hw → NoteCountsRight e))
  ∧ ∀ (s : State) (v : VoiceIx) (p : PatternIx), 32 < (s.hw.length v p).toNat →
      exec (.patDbl v p) s
        = .next { s with response := some ⟨0#4, (s.hw.length v p).setWidth 32⟩ }

/-- `PAT_CPY` copies all 64 slots, length and rate to another pattern and keeps the counts right; onto itself it changes
nothing (R133). -/
def Obligations.PatternCopyCopiesEverySlot : Prop :=
  (∀ (s : State) (v : VoiceIx) (p q : PatternIx), p ≠ q →
    ∃ e, exec (.patCpy v p q) s
        = .next { s with hw := e, response := some ⟨0#4, (e.noteCount v q).setWidth 32⟩ }
      ∧ e = { s.hw with
          noteMem := e.noteMem, keyMem := e.keyMem, lengthMem := e.lengthMem, rateMem := e.rateMem,
          noteCountMem := e.noteCountMem }
      ∧ (∀ st, e.note v q st = s.hw.note v p st ∧ e.key v q st = s.hw.key v p st)
      ∧ e.length v q = s.hw.length v p ∧ e.rate v q = s.hw.rate v p
      ∧ (∀ v' p', ¬(v' = v ∧ p' = q) → e.length v' p' = s.hw.length v' p' ∧ e.rate v' p' = s.hw.rate v' p'
          ∧ e.noteCount v' p' = s.hw.noteCount v' p'
          ∧ ∀ st, e.note v' p' st = s.hw.note v' p' st ∧ e.key v' p' st = s.hw.key v' p' st)
      ∧ (NoteCountsRight s.hw → NoteCountsRight e ∧ e.noteCount v q = s.hw.noteCount v p))
  ∧ ∀ (s : State) (v : VoiceIx) (p : PatternIx),
      exec (.patCpy v p p) s = .next { s with response := some ⟨0#4, (s.hw.noteCount v p).setWidth 32⟩ }

/-! Voices and the grid (43_sequencer_cmds.md). -/

/-- `NOP` answers and changes nothing; its word is 0, and a word with `op` 0 and any other bit is illegal (R140). -/
def Obligations.NopChangesNothing : Prop :=
  (∀ s : State, exec .nop s = .next { s with response := some ⟨0#4, 0#32⟩ })
  ∧ decode 0#32 = .ok .nop
  ∧ ∀ w : Word, fieldOp w = 0#5 → w ≠ 0#32 → ∃ why, decode w = .error why

/-- `TYPE_SET` writes the type of one voice and no other register; `PAT_SEL` writes one voice's current pattern, and `v`
and `p` are its only operands (R141, R142). -/
def Obligations.TypeAndPatternWritesChangeOneRegister : Prop :=
  (∀ (s : State) (v : VoiceIx) (val : Byte), val.toNat ≤ 4 →
    ∃ e, exec (.typeSet v val) s = .next { s with hw := e, response := some ⟨0#4, 0#32⟩ }
      ∧ e = { s.hw with x := e.x }
      ∧ (typeCode (e.voice v).kind).toNat = val.toNat
      ∧ e.voice v = { s.hw.voice v with kind := (e.voice v).kind }
      ∧ ∀ v', v' ≠ v → e.voice v' = s.hw.voice v')
  ∧ (∀ (s : State) (v : VoiceIx) (p : PatternIx),
    ∃ e, exec (.patSel v p) s = .next { s with hw := e, response := some ⟨0#4, 0#32⟩ }
      ∧ e = { s.hw with curPattern := e.curPattern }
      ∧ ∀ v', e.curPat v' = if v' = v then p else s.hw.curPat v')
  ∧ ∀ (w : Word) (v : VoiceIx) (p : PatternIx), decode w = .ok (.patSel v p) ↔ w = 0x12#5 ++ v ++ p ++ 0#19

/-- `GRID_TRIG` clears, sets or toggles one trigger bit and answers its new value; `GRID_NOTE` writes one note; each
leaves every other cell (R143, R144). -/
def Obligations.GridWritesStoreOneCell : Prop :=
  (∀ (s : State) (v : VoiceIx) (g : GridIx) (m : BitVec 2) (b : Bool),
    (m = 0#2 ∧ b = false) ∨ (m = 1#2 ∧ b = true) ∨ (m = 2#2 ∧ b = !(s.hw.trig v g)) →
    ∃ e, exec (.gridTrig v g m) s
        = .next { s with hw := e, response := some ⟨0#4, if b then 1#32 else 0#32⟩ }
      ∧ e = { s.hw with trigMem := e.trigMem }
      ∧ ∀ v' g', e.trig v' g' = if v' = v ∧ g' = g then b else s.hw.trig v' g')
  ∧ ∀ (s : State) (v : VoiceIx) (g : GridIx) (val : Byte),
    ∃ e, exec (.gridNote v g val) s = .next { s with hw := e, response := some ⟨0#4, 0#32⟩ }
      ∧ e = { s.hw with gnoteMem := e.gnoteMem }
      ∧ ∀ v' g', e.gnote v' g' = if v' = v ∧ g' = g then val else s.hw.gnote v' g'

/-- `GRID_RD` answers the trigger bit and the note of one cell and changes nothing; its word has op 0x15, the voice and the
grid step, and zeros elsewhere (R145). -/
def Obligations.GridReadAnswersTheCell : Prop :=
  (∀ (s : State) (v : VoiceIx) (g : GridIx),
    ∃ d : Word, exec (.gridRd v g) s = .next { s with response := some ⟨0#4, d⟩ }
      ∧ d.toNat = (s.hw.trig v g).toNat * 256 + (s.hw.gnote v g).toNat)
  ∧ ∀ (w : Word) (v : VoiceIx) (g : GridIx), decode w = .ok (.gridRd v g) ↔ w = 0x15#5 ++ v ++ 0#6 ++ g ++ 0#13

/-- `VOICE_RD` answers the packed status, or one of three registers, and changes nothing (R146; 45_envelope.md R187). -/
def Obligations.VoiceReadAnswersTheRegisters : Prop :=
  ∀ (s : State) (v : VoiceIx),
    ∃ d : Word, exec (.voiceRd v 0#2) s = .next { s with response := some ⟨0#4, d⟩ }
      ∧ d.toNat = (s.hw.voice v).pitch.toNat * 65536 + (s.hw.curPat v).toNat * 256
          + (if (s.hw.voice v).kind = .sample ∨ (s.hw.voice v).seg = .dead then 0 else 32)
          + (segCode (s.hw.voice v).seg).toNat * 8 + (typeCode (s.hw.voice v).kind).toNat
      ∧ exec (.voiceRd v 1#2) s = .next { s with response := some ⟨0#4, (s.hw.voice v).envPhase⟩ }
      ∧ exec (.voiceRd v 2#2) s = .next { s with response := some ⟨0#4, (s.hw.voice v).oscPhase⟩ }
      ∧ exec (.voiceRd v 3#2) s = .next { s with response := some ⟨0#4, (s.hw.voice v).phaseInc⟩ }

/-! System commands (43_sequencer_cmds.md). -/

/-- `PLAY 1` starts a stopped sequencer at step 0 with a tick due, and does nothing to a running one; `PLAY 0` stops it
and clears the step context; position and countdown stay (R148). -/
def Obligations.PlayStartsAndStopsTheSequencer : Prop :=
  (∀ s : State, s.hw.playing = false →
    exec (.play 1#1) s
      = .next { s with
          hw := { s.hw with playing := true, curStep := 0#4, countdown := 1#32 }, response := some ⟨0#4, 0#32⟩ })
  ∧ (∀ s : State, s.hw.playing = true → exec (.play 1#1) s = .next { s with response := some ⟨0#4, 0#32⟩ })
  ∧ ∀ s : State, exec (.play 0#1) s
      = .next { s with hw := { s.hw with playing := false, playValid := false }, response := some ⟨0#4, 0#32⟩ }

/-- `SEL_VOICE`, `MODE_SET` and `NOTE_REQ` write their registers and change nothing else; `TEMPO_SET` writes the tempo and
the step period that follows from it, which it answers, and the countdown stays (R149 to R152). -/
def Obligations.SequencerRegisterWritesStoreTheOperand : Prop :=
  (∀ (s : State) (v : VoiceIx) (m : BitVec 3) (note : Byte),
    exec (.selVoice v) s = .next { s with hw := { s.hw with selVoice := v }, response := some ⟨0#4, 0#32⟩ }
    ∧ exec (.modeSet m) s = .next { s with hw := { s.hw with mode := m }, response := some ⟨0#4, 0#32⟩ }
    ∧ exec (.noteReq note) s
        = .next { s with
            hw := { s.hw with pendingNoteValue := note, pendingNote := true }, response := some ⟨0#4, 0#32⟩ })
  ∧ ∀ (s : State) (bpm : BitVec 16), bpm ≠ 0#16 →
    ∃ n : BitVec 32, n.toNat = max 1 (44100 * 60 / (bpm.toNat * 4))
      ∧ exec (.tempoSet bpm) s
        = .next { s with hw := { s.hw with tempo := bpm, samplesPerStep := n }, response := some ⟨0#4, n⟩ }

/-- `SEQ_RD` answers the sequencer's registers and changes nothing (R153). -/
def Obligations.SequencerReadAnswersTheRegisters : Prop :=
  ∀ s : State,
    ∃ d0 d3 : Word, exec (.seqRd 0#2) s = .next { s with response := some ⟨0#4, d0⟩ }
      ∧ d0.toNat = s.hw.pendingNoteValue.toNat * 16777216 + s.hw.pendingNote.toNat * 131072
          + s.hw.playValid.toNat * 65536 + s.hw.playStep.toNat * 4096 + s.hw.curStep.toNat * 256
          + s.hw.selVoice.toNat * 16 + s.hw.mode.toNat * 2 + s.hw.playing.toNat
      ∧ exec (.seqRd 1#2) s = .next { s with response := some ⟨0#4, s.hw.countdown⟩ }
      ∧ exec (.seqRd 2#2) s = .next { s with response := some ⟨0#4, s.hw.samplesPerStep⟩ }
      ∧ exec (.seqRd 3#2) s = .next { s with response := some ⟨0#4, d3⟩ }
      ∧ d3.setWidth 16 = s.hw.tempo
      ∧ ∀ v : VoiceIx, d3.getLsbD (16 + v.toNat)
          = (decide ((s.hw.voice v).kind ≠ .sample) && decide ((s.hw.voice v).seg ≠ .dead))

/-- `DIAG_RD` answers `DIAG` and clears nothing; `DIAG_CLR` clears exactly the bits of its mask and answers what is left,
and the `diag` line is then the OR of the bits; each has the one operand field that R154 and R155 give it (R154, R155). -/
def Obligations.DiagnosticCommandsReadAndClear : Prop :=
  (∀ s : State, exec .diagRd s = .next { s with response := some ⟨0#4, s.hw.diag.setWidth 32⟩ })
  ∧ (∀ (s : State) (mask : BitVec 4),
      ∃ d : BitVec 4, exec (.diagClr mask) s
          = .next { s with hw := { s.hw with diag := d }, response := some ⟨0#4, d.setWidth 32⟩ }
        ∧ (∀ k : Nat, d.getLsbD k = (s.hw.diag.getLsbD k && !mask.getLsbD k))
        ∧ (diagLine { s.hw with diag := d } = true ↔ ∃ k, d.getLsbD k = true))
  ∧ (∀ w : Word, decode w = .ok .diagRd ↔ w = 0x1F#5 ++ 8#4 ++ 0#23)
  ∧ ∀ (w : Word) (mask : BitVec 4), decode w = .ok (.diagClr mask) ↔ w = 0x1F#5 ++ 9#4 ++ 0#19 ++ mask

/-- `SOFT_RESET` gives every component its reset value but `busy`, `frameIdx` and AUDIO; only the word 0xFD05A5A5 is this
command (R156; 70_reset_and_hazards.md R245 (2)). -/
def Obligations.SoftResetKeepsOnlyTheBlock : Prop :=
  (∀ s : State, exec .softReset s
    = .next { s with
        hw := { (State.resetOf s.cfg).hw with
          busy := s.hw.busy, frameIdx := s.hw.frameIdx, audioMem := s.hw.audioMem },
        response := some ⟨0#4, 0#32⟩ })
  ∧ ∀ w : Word, decode w = .ok .softReset ↔ w = 0xFD05A5A5#32

/-! The signal path (44_oscillator.md to 47_gain_mixer.md). -/

/-- For a table that is non-decreasing with its last entry twice its first, the phase increment is the table interpolated
at the pitch raised by k octaves into the base octave, shifted right by k. It is non-decreasing in the pitch, and exactly
halved (rounding down) an octave below (44_oscillator.md R167, R169). -/
def Obligations.PhaseIncrementHalvesAnOctaveBelow : Prop :=
  ∀ c : Config, c.valid →
    (∀ (p : BitVec 14) (k q a b : Nat), k = (c.lutOrigin + 1535 - p.toNat) / 1536 →
      q = p.toNat + 1536 * k - c.lutOrigin → a = (c.lutEntry (q / 128)).toNat → b = (c.lutEntry (q / 128 + 1)).toNat →
        q < 1536 ∧ a ≤ b ∧ (computePhaseIncrement c p).toNat = (a + (b - a) * (q % 128) / 128) / 2 ^ k)
    ∧ (∀ p p' : BitVec 14, p ≤ p' → computePhaseIncrement c p ≤ computePhaseIncrement c p')
    ∧ ∀ p p' : BitVec 14, p'.toNat = p.toNat + octave →
        (computePhaseIncrement c p).toNat = (computePhaseIncrement c p').toNat / 2

/-- The reference waves, whatever the color. Shape 0: with x, y, z the sixteen steps of the rotation from the angle in the
quadrant, the sine is the rounded and limited y, x, -y or -x of the quadrant. Shape 1 rises from -32768 to 32767, shape 2
is high below its threshold, shape 3 rises and falls, and every other shape is silent (44_oscillator.md R170 to R175). -/
def Obligations.ReferenceWavesFollowTheirRules : Prop :=
  ∀ (c : Config) (phase : Word) (timbre color : Byte), c.wave = .reference →
    (∀ (x y z : Nat → Int) (si co : Int), x 0 = 326011462 → y 0 = 0 → z 0 = (phase.toNat % 2 ^ 30 : Nat) →
      (∀ (i : Nat) (a : Int), i < 16 →
        [536870912, 316933406, 167458907, 85004756, 42667331, 21354465, 10679838, 5340245,
          2670163, 1335087, 667544, 333772, 166886, 83443, 41722, 20861][i]? = some a →
        if 0 ≤ z i then
          x (i + 1) = x i - y i / 2 ^ i ∧ y (i + 1) = y i + x i / 2 ^ i ∧ z (i + 1) = z i - a
        else x (i + 1) = x i + y i / 2 ^ i ∧ y (i + 1) = y i - x i / 2 ^ i ∧ z (i + 1) = z i + a) →
      co = max (-32767) (min 32767 ((x 16 + 8192) / 2 ^ 14)) →
      si = max (-32767) (min 32767 ((y 16 + 8192) / 2 ^ 14)) →
        (oscWave c 0#8 phase timbre color).toInt
          = if phase.toNat < 2 ^ 30 then si else if phase.toNat < 2 ^ 31 then co
            else if phase.toNat < 2 ^ 31 + 2 ^ 30 then -si else -co)
    ∧ (oscWave c 1#8 phase timbre color).toInt = ((phase.toNat / 65536 : Nat) : Int) - 32768
    ∧ (oscWave c 2#8 phase timbre color).toInt
        = (if phase.toNat < (128 - timbre.toNat / 2) * 2 ^ 24 then 32767 else -32767)
    ∧ (oscWave c 3#8 phase timbre color).toInt
        = (if phase.toNat < 2 ^ 31 then -32768 + 2 * ((phase.toNat / 65536 : Nat) : Int)
          else 98303 - 2 * ((phase.toNat / 65536 : Nat) : Int))
    ∧ ∀ shape : Byte, 4 ≤ shape.toNat → oscWave c shape phase timbre color = 0#16

/-- The reference count of a byte b is max(1, 128 b); every count is 1..65536, and its increment is the least q with q times
the count at least 2^32. A triggered envelope whose increments stay is in Attack, Hold and Decay for exactly the frames of
its counts, then dead; its level is 0 in the first frame, rises by the attack's increment, is 65535 in Hold, falls by the
decay's increment, and is 0 when dead, each in units of 2^16 rounded down (45_envelope.md R181 to R184;
92_eei_decisions.md section 1). -/
def Obligations.EnvelopeLastsItsCounts : Prop :=
  (∀ (c : Config) (b : Byte), c.envMap = .reference → envCount c b = max 1 (128 * b.toNat))
  ∧ (∀ (c : Config) (b : Byte), 1 ≤ envCount c b ∧ envCount c b ≤ 65536
      ∧ 2 ^ 32 ≤ (envInc c b).toNat * envCount c b
      ∧ ∀ q : Nat, 2 ^ 32 ≤ q * envCount c b → (envInc c b).toNat ≤ q)
  ∧ ∀ (c : Config) (r : Instrument) (a d : Byte) (toHold toDecay toDead : Nat),
    r.seg = .attack → r.envPhase = 0#32 → r.attackInc = envInc c a → r.decayInc = envInc c d →
    toHold = envCount c a → toDecay = toHold + (c.envHold.toNat + 1) → toDead = toDecay + envCount c d →
      ∀ k : Nat,
        (envFrames c k r).seg
          = (if k < toHold then .attack else if k < toDecay then .hold else if k < toDead then .decay else .dead)
        ∧ envLevel (envFrames c k r)
          = if k < toHold then k * (envInc c a).toNat / 65536
            else if k < toDecay then 65535
            else if k < toDead then 65535 - (k - toDecay) * (envInc c d).toNat / 65536
            else 0

/-- One filter step: the new low from the old band, then the high, then the band, each saturated to 16 bits, products
shifted right by 15 rounding down; the low is the output (46_filter.md R190). -/
def Obligations.FilterStepFollowsTheRecursion : Prop :=
  ∀ (r : Instrument) (input low high band : Int),
    low = max (-32768) (min 32767 (r.low.toInt + r.fCoef.toNat * r.band.toInt / 32768)) →
    high = max (-32768) (min 32767 (input - low - r.dCoef.toNat * r.band.toInt / 32768)) →
    band = max (-32768) (min 32767 (r.band.toInt + r.fCoef.toNat * high / 32768)) →
      (svfStep r input).1 = low ∧ (svfStep r input).2.low.toInt = low ∧ (svfStep r input).2.band.toInt = band
      ∧ (svfStep r input).2 = { r with low := (svfStep r input).2.low, band := (svfStep r input).2.band }

/-- One frame of a `SYNTH` voice: the wave at the phase before the add, times the envelope's level before its advance,
through the filter, times the volume; the oscillator's phase advances by the increment modulo 2^32, the envelope by one
frame, the filter to its new state, and no other register changes. A voice of any other type gives 0 and changes no
register (47_gain_mixer.md R199 to R201; 44_oscillator.md R165; 45_envelope.md R181, R182; 46_filter.md R190;
48_render_sequencer.md R210). -/
def Obligations.VoiceSampleFollowsTheChain : Prop :=
  (∀ (c : Config) (r : Instrument) (o lvl g low high band : Int) (next : Segment × Nat), r.kind = .synth →
    o = (oscWave c r.shape r.oscPhase r.timbre r.color).toInt →
    lvl = (if r.seg = .attack then ((r.envPhase.toNat / 65536 : Nat) : Int) else if r.seg = .hold then 65535
      else if r.seg = .decay then 65535 - ((r.envPhase.toNat / 65536 : Nat) : Int) else 0) →
    next = (if r.seg = .attack then
        if 2 ^ 32 ≤ r.envPhase.toNat + r.attackInc.toNat then (.hold, 0)
        else (.attack, r.envPhase.toNat + r.attackInc.toNat)
      else if r.seg = .hold then
        if c.envHold.toNat ≤ r.envPhase.toNat then (.decay, 0) else (.hold, r.envPhase.toNat + 1)
      else if r.seg = .decay then
        if 2 ^ 32 ≤ r.envPhase.toNat + r.decayInc.toNat then (.dead, 0)
        else (.decay, r.envPhase.toNat + r.decayInc.toNat)
      else (.dead, r.envPhase.toNat)) →
    g = o * lvl / 65536 →
    low = max (-32768) (min 32767 (r.low.toInt + r.fCoef.toNat * r.band.toInt / 32768)) →
    high = max (-32768) (min 32767 (g - low - r.dCoef.toNat * r.band.toInt / 32768)) →
    band = max (-32768) (min 32767 (r.band.toInt + r.fCoef.toNat * high / 32768)) →
      ∃ r', voiceSample c r = (low * r.volQ15.toNat / 32768, r')
        ∧ r' = { r with
            oscPhase := r'.oscPhase, seg := r'.seg, envPhase := r'.envPhase, low := r'.low, band := r'.band }
        ∧ r'.oscPhase.toNat = (r.oscPhase.toNat + r.phaseInc.toNat) % 2 ^ 32
        ∧ (r'.seg, r'.envPhase.toNat) = next
        ∧ r'.low.toInt = low ∧ r'.band.toInt = band)
  ∧ ∀ (c : Config) (r : Instrument), r.kind ≠ .synth → voiceSample c r = (0, r)

/-- `byte_to_q15(b)` is 128 b + floor(b / 2), strictly increasing, from 0 to 32767. The saturating multiply is the shifted
product but for the one pair that saturates; by a coefficient it never amplifies, nor does the envelope's gain, and
neither changes a sign but to a floor of -1 (47_gain_mixer.md R197 to R199, R204 (a) and (b)). -/
def Obligations.CoefficientsReplicateBitsAndGainsNeverAmplify : Prop :=
  ((∀ b : Byte, (byteToQ15 b).toNat = 128 * b.toNat + b.toNat / 2)
    ∧ (∀ b b' : Byte, b < b' → byteToQ15 b < byteToQ15 b')
    ∧ byteToQ15 0#8 = 0#15 ∧ byteToQ15 255#8 = 32767#15)
  ∧ (∀ a b : Sample, satmulQ15 a.toInt b.toInt
    = if a = 0x8000#16 ∧ b = 0x8000#16 then 32767 else a.toInt * b.toInt / 32768)
  ∧ (∀ (a : Sample) (b : BitVec 15),
      (0 ≤ a.toInt → 0 ≤ satmulQ15 a.toInt b.toNat ∧ satmulQ15 a.toInt b.toNat ≤ a.toInt)
      ∧ (a.toInt < 0 → a.toInt ≤ satmulQ15 a.toInt b.toNat ∧ satmulQ15 a.toInt b.toNat ≤ 0))
  ∧ ∀ (o : Sample) (lvl : Nat), lvl ≤ 65535 →
      (0 ≤ o.toInt → 0 ≤ envGain o.toInt lvl ∧ envGain o.toInt lvl ≤ o.toInt)
      ∧ (o.toInt < 0 → 1 ≤ lvl → o.toInt ≤ envGain o.toInt lvl ∧ envGain o.toInt lvl ≤ -1)
      ∧ (lvl = 0 → envGain o.toInt lvl = 0)

/-! The render agent (48_render_sequencer.md). -/

/-- A period signal between blocks starts a block: voices 0 to 5 latch the eight parameters as resolved under their step
context, and nothing else changes but the block state and `DIAG` bit 1, which is set exactly where one of those walks
finds its list corrupt (R206; 45_envelope.md R186; 46_filter.md R191; 60_exceptions.md R222). -/
def Obligations.BlockStartPullsTheRenderedVoices : Prop :=
  ∀ (s : State) (rest : List Input) (ctx : VoiceIx → Option (PatternIx × StepIx)),
    s.inputs = .period :: rest → s.hw.busy = false →
    (∀ v, ctx v = if s.hw.playValid then some (s.hw.curPat v, s.hw.playStep.setWidth 6) else none) →
    ∃ e, step s = .next { s with hw := e, inputs := rest }
      ∧ e = { s.hw with x := e.x, diag := e.diag, busy := true, frameIdx := 0 }
      ∧ ((∃ v : VoiceIx, v.toNat < 6 ∧ PullFaults s.cfg s.hw v (ctx v)) → e.diag = s.hw.diag ||| 2#4)
      ∧ ((∀ v : VoiceIx, v.toNat < 6 → ¬PullFaults s.cfg s.hw v (ctx v)) → e.diag = s.hw.diag)
      ∧ (∀ v : VoiceIx, 6 ≤ v.toNat → e.voice v = s.hw.voice v)
      ∧ ∀ (v : VoiceIx) (value : ParamId → Byte), v.toNat < 6 →
          (∀ id, value id = (resolveParam s.cfg s.hw v id (ctx v)).1) →
            e.voice v = { s.hw.voice v with
              shape := value 24#5, timbre := value 25#5, color := value 26#5, fCoef := byteToQ15 (value 2#5),
              dCoef := BitVec.ofNat 15 (32767 - 127 * (value 3#5).toNat), volQ15 := byteToQ15 (value 0#5),
              attackInc := envInc s.cfg (value 6#5), decayInc := envInc s.cfg (value 7#5) }

/-- A period signal while a block is in progress has no step: the model refuses it by name (R213;
93_implementation_defined.md U2). -/
def Obligations.PeriodSignalDuringABlockHasNoStep : Prop :=
  ∀ (s : State) (rest : List Input), s.inputs = .period :: rest → s.hw.busy = true →
    step s = .refused .periodWhileBusy

/-- One Frame step. The sequencer's part first: while it plays, at a countdown of at most 1 a tick runs and the countdown is
reloaded, at a greater one it falls by 1 and nothing else moves; while it is stopped nothing moves. Then every rendered
voice from there, then the saturated sum of the scaled voices in both channels; no other sample of the block changes
(R207, R209; 47_gain_mixer.md R201 to R203). -/
def Obligations.FrameMixesTheRenderedVoices : Prop :=
  ∀ (s : State) (rest : List Input), s.inputs = .render :: rest → s.hw.busy = true → s.hw.frameIdx.val < 128 →
    ∀ (e1 : Engine) (out : Int),
      e1 = (if s.hw.playing = true then
          if s.hw.countdown.toNat ≤ 1 then { tick s.cfg s.hw with countdown := s.hw.samplesPerStep }
          else { s.hw with countdown := s.hw.countdown - 1#32 }
        else s.hw) →
      out = sat16 (([0#4, 1#4, 2#4, 3#4, 4#4, 5#4].map fun v : VoiceIx =>
        (voiceSample s.cfg (e1.voice v)).1 * (s.cfg.mixCoeff.toNat : Int) / 32768).sum) →
      ∃ e, step s = .next { s with hw := e, inputs := rest }
        ∧ e = { e1 with x := e.x, audioMem := e.audioMem, frameIdx := e.frameIdx }
        ∧ e.frameIdx.val = s.hw.frameIdx.val + 1
        ∧ (∀ v : VoiceIx, e.voice v
            = if v.toNat < 6 then (voiceSample s.cfg (e1.voice v)).2 else e1.voice v)
        ∧ ∀ n right, (e.audio n right).toInt
            = if n = s.hw.frameIdx.val then out else (s.hw.audio n right).toInt

/-- A tick plays the current step: every voice whose trigger bit is set takes its pitch from the grid, its parameters
under the step being played, and starts its contour from phase 0, its filter ringing on; the others stay; the position
advances modulo 16; `DIAG` bit 1 is set exactly where a triggered voice's list is found corrupt, and nothing else changes
(R208; 44_oscillator.md R166; 45_envelope.md R185, R186; 60_exceptions.md R222). -/
def Obligations.TickTriggersTheVoicesOfTheStep : Prop :=
  ∀ (c : Config) (e e0 e' : Engine), e0 = { e with playStep := e.curStep, playValid := true } → e' = tick c e →
    e' = { e with x := e'.x, curStep := e'.curStep, playStep := e.curStep, playValid := true, diag := e'.diag }
    ∧ e'.curStep.toNat = (e.curStep.toNat + 1) % 16
    ∧ ((∃ v, e.trig v e.curStep = true ∧ PullFaults c e v (some (e.curPat v, e.curStep.setWidth 6))) →
        e'.diag = e.diag ||| 2#4)
    ∧ ((∀ v, e.trig v e.curStep = true → ¬PullFaults c e v (some (e.curPat v, e.curStep.setWidth 6))) →
        e'.diag = e.diag)
    ∧ ∀ (v : VoiceIx) (pitch : BitVec 14), pitch.toNat = (e.gnote v e.curStep).toNat % 128 * 128 →
        e'.voice v
          = if e.trig v e.curStep then
              { latch c e0 v with
                pitch := pitch, phaseInc := computePhaseIncrement c pitch, seg := .attack, envPhase := 0#32,
                oscPhase := 0#32 }
            else e.voice v

/-- While the sequencer plays, the next tick falls in the frame that the countdown names (0 counts as 1), and ticks fall
exactly `samplesPerStep` frames apart: from any countdown, the position and the countdown that n frames leave. While it
is stopped neither moves. The block boundaries touch neither (R209, R215). -/
def Obligations.TicksAreOnePeriodApart : Prop :=
  (∀ (c : Config) (e : Engine) (n first period : Nat), e.playing = true →
      first = max 1 e.countdown.toNat → period = e.samplesPerStep.toNat → 1 ≤ period →
    ((frame c)^[n] e).curStep = e.curStep + BitVec.ofNat 4 (if n < first then 0 else (n - first) / period + 1)
    ∧ ((frame c)^[n] e).countdown.toNat
      = (if n < first then e.countdown.toNat - n else period - (n - first) % period)
    ∧ ((frame c)^[n] e).playing = true ∧ ((frame c)^[n] e).samplesPerStep = e.samplesPerStep)
  ∧ (∀ (c : Config) (e : Engine), e.playing = false →
      (frame c e).curStep = e.curStep ∧ (frame c e).countdown = e.countdown ∧ (frame c e).playStep = e.playStep)
  ∧ ∀ (c : Config) (e e' : Engine), e' = blockStart c e ∨ e' = blockEnd c e →
      e'.curStep = e.curStep ∧ e'.countdown = e.countdown ∧ e'.playing = e.playing
      ∧ e'.samplesPerStep = e.samplesPerStep

/-- BlockEnd services the manual note: the selected voice is struck at the requested pitch under the current step
context and the request is cleared; `DIAG` bit 1 is set exactly where the strike finds the voice's list corrupt; without
a request no voice and no bit changes; the block is then the transport's (R212; 60_exceptions.md R222). -/
def Obligations.BlockEndStrikesTheManualNote : Prop :=
  ∀ (s : State) (rest : List Input) (ctx : Option (PatternIx × StepIx)),
    s.inputs = .render :: rest → s.hw.busy = true → s.hw.frameIdx.val = 128 →
    ctx = (if s.hw.playValid then some (s.hw.curPat s.hw.selVoice, s.hw.playStep.setWidth 6) else none) →
    ∃ e, step s = .next { s with hw := e, inputs := rest }
      ∧ e = { s.hw with x := e.x, diag := e.diag, pendingNote := false, busy := false }
      ∧ (s.hw.pendingNote = true ∧ PullFaults s.cfg s.hw s.hw.selVoice ctx → e.diag = s.hw.diag ||| 2#4)
      ∧ (s.hw.pendingNote = false ∨ ¬PullFaults s.cfg s.hw s.hw.selVoice ctx → e.diag = s.hw.diag)
      ∧ ∀ (v : VoiceIx) (pitch : BitVec 14), pitch.toNat = s.hw.pendingNoteValue.toNat % 128 * 128 →
          e.voice v
            = if s.hw.pendingNote = true ∧ v = s.hw.selVoice then
                { latch s.cfg s.hw v with
                  pitch := pitch, phaseInc := computePhaseIncrement s.cfg pitch, seg := .attack, envPhase := 0#32,
                  oscPhase := 0#32 }
              else s.hw.voice v

/-- A block is always fully produced. From a sound state, a period signal and then any schedule of host commands with k
turns of the render agent among them, at most 129, leave the block in progress with min(k, 128) frames produced, and
done at the 129th turn: no command abandons it, none adds or drops a frame, and every frame has one value in both
channels. With no command among the turns this holds of every state, and the parameters, the response and the rest of
the schedule stay (R213; 20_memory.md R66; 47_gain_mixer.md R203). -/
def Obligations.ABlockIsProducedWhole : Prop :=
  (∀ (s : State) (turns rest : List Input) (k : Nat), Sound s → s.hw.busy = false →
    (∀ i ∈ turns, i = .render ∨ ∃ w, i = .command w) → k = turns.count .render → k ≤ 129 →
    s.inputs = .period :: (turns ++ rest) →
      ∃ t, runSteps (turns.length + 1) s = .next t ∧ t.inputs = rest ∧ t.cfg = s.cfg ∧ Sound t
        ∧ (t.hw.busy = true ↔ k < 129) ∧ t.hw.frameIdx.val = min k 128
        ∧ ∀ n, n < min k 128 → t.hw.audio n true = t.hw.audio n false)
  ∧ ∀ (s : State) (rest : List Input), s.hw.busy = false →
    s.inputs = .period :: (List.replicate 129 Input.render ++ rest) →
      ∃ t, runSteps 130 s = .next t ∧ t.inputs = rest ∧ t.cfg = s.cfg ∧ t.response = s.response
        ∧ t.hw.busy = false ∧ t.hw.frameIdx.val = 128 ∧ t.hw.pendingNote = false
        ∧ ∀ n, n < 128 → t.hw.audio n true = t.hw.audio n false

/-- Silence stays silence: where every rendered voice is dead with a cleared filter and no voice is triggered in the
frame, the frame is (0, 0) and the voices stay so (47_gain_mixer.md R204 (c), (d); 46_filter.md R192 (a)). -/
def Obligations.SilenceStaysSilent : Prop :=
  ∀ (c : Config) (e : Engine), Quiet e →
    e.playing = false ∨ 1 < e.countdown.toNat ∨ (∀ v, e.trig v e.curStep = false) →
      Quiet (frame c e) ∧ ∀ right, (frame c e).audio e.frameIdx.val right = 0#16

/-- A voice that is not a rendered `SYNTH` voice, and is not triggered in the frame, keeps every register through it (R210,
R211; 70_reset_and_hazards.md R257). -/
def Obligations.OnlyRenderedSynthVoicesAdvance : Prop :=
  ∀ (c : Config) (e : Engine) (v : VoiceIx), (e.voice v).kind ≠ .synth ∨ 6 ≤ v.toNat →
    e.playing = false ∨ 1 < e.countdown.toNat ∨ e.trig v e.curStep = false →
      (frame c e).voice v = e.voice v

/-! The whole machine. -/

/-- A step of the render agent or a period signal writes nothing that is the host's (20_memory.md R72). Between blocks the
agent does nothing: its turn changes no hardware (60_exceptions.md R234). On the empty schedule the step is the agent's
turn, the same as a scheduled one; the schedule and this reading of its end are the model's choice (log 3). -/
def Obligations.RenderAgentWritesNoHostState : Prop :=
  (∀ s t : State,
    (s.inputs = [] ∨ (∃ rest, s.inputs = .render :: rest) ∨ ∃ rest, s.inputs = .period :: rest) →
    step s = .next t →
      RenderWrites s.hw t.hw ∧ t.cfg = s.cfg ∧ t.response = s.response ∧ t.inputs = s.inputs.tail)
  ∧ (∀ (s : State) (rest : List Input), s.inputs = .render :: rest → s.hw.busy = false →
      step s = .next { s with inputs := rest })
  ∧ (∀ s : State, s.inputs = [] → s.hw.busy = false → step s = .next s)
  ∧ ∀ (s : State) (rest : List Input), s.inputs = [] →
      ∃ e, step s = .next { s with hw := e }
        ∧ step { s with inputs := .render :: rest } = .next { s with hw := e, inputs := rest }

/-- A command other than `SOFT_RESET` writes neither the block state nor AUDIO, and no voice register but the type; the
schedule and the parameters are no command's; every command answers, with one of the five status codes (20_memory.md
R72; 30_encoding.md R83). -/
def Obligations.CommandsWriteNoRenderState : Prop :=
  ∀ (i : Instr) (s t : State), exec i s = .next t →
    (i ≠ .softReset → HostWrites s.hw t.hw) ∧ t.cfg = s.cfg ∧ t.inputs = s.inputs
    ∧ ∃ r, t.response = some r ∧ r.status.toNat < 5

/-- The `DIAG` bits are sticky: a step clears none but by `DIAG_CLR`, `SOFT_RESET` or hardware reset (60_exceptions.md
R224, R229). -/
def Obligations.DiagnosticsAreSticky : Prop :=
  ∀ s t : State, step s = .next t →
    (∀ w rest, s.inputs = .command w :: rest →
      decode w ≠ .ok .softReset ∧ ∀ mask, decode w ≠ .ok (.diagClr mask)) →
    (∀ rest, s.inputs ≠ .hardReset :: rest) →
      s.hw.diag &&& t.hw.diag = s.hw.diag

/-- Every step keeps every memory space in its canonical form: indices rising, inside the space, no entry equal to what an
unlisted index reads as (20_memory.md R60, R61; the form is the model's, log 9). -/
def Obligations.StepKeepsMemoryCanonical : Prop :=
  ∀ s t : State, memoryCanonical s.cfg s.hw = true → step s = .next t → memoryCanonical t.cfg t.hw = true

/-- Every step keeps the invariants of the state: the pool is exactly the free list and the 256 lock lists, keys are
unique, note counts are right, fields are in range, blocks are whole. No step from such a state faults, and none sets
`DIAG` bit 1, `LIST_CYCLE` (10_state.md R49, R46; 40_pool.md R107; 60_exceptions.md R222; 20_memory.md R65). -/
def Obligations.StepKeepsSound : Prop :=
  ∀ s : State, Sound s →
    (∀ f, step s ≠ .fault f)
    ∧ ∀ t, step s = .next t → Sound t ∧ (s.hw.diag.getLsbD 1 = false → t.hw.diag.getLsbD 1 = false)

/-- The reset state of every legal implementation meets the invariants and the canonical form, and so does
`State.reset` (70_reset_and_hazards.md R246). -/
def Obligations.ResetStateIsSound : Prop :=
  (∀ c : Config, c.valid → Sound (State.resetOf c) ∧ memoryCanonical c (State.resetOf c).hw = true)
  ∧ Sound State.reset ∧ memoryCanonical State.reset.cfg State.reset.hw = true

/-- A hardware reset gives every component the value of 10_state.md R48, `busy` and `frameIdx` included (R48;
70_reset_and_hazards.md R245 (1)). That the schedule stays and the response is lost is the model's choice (log 13). -/
def Obligations.HardwareResetGivesTheResetValues : Prop :=
  ∀ (s : State) (rest : List Input), s.inputs = .hardReset :: rest →
    ∃ e, step s = .next { hw := e, cfg := s.cfg, inputs := rest, response := none }
      ∧ (∀ v, (e.voice v).kind = .synth ∧ (e.voice v).seg = .dead ∧ (e.voice v).pitch = 0#14
          ∧ (e.voice v).phaseInc = computePhaseIncrement s.cfg 0#14
          ∧ (e.voice v).oscPhase = 0#32 ∧ (e.voice v).envPhase = 0#32 ∧ (e.voice v).low = 0#16
          ∧ (e.voice v).band = 0#16 ∧ (e.voice v).shape = 0#8 ∧ (e.voice v).timbre = 0#8 ∧ (e.voice v).color = 0#8
          ∧ (e.voice v).fCoef = 32767#15 ∧ (e.voice v).dCoef = 32767#15 ∧ (e.voice v).volQ15 = 32767#15
          ∧ (e.voice v).attackInc = envInc s.cfg 0#8 ∧ (e.voice v).decayInc = envInc s.cfg 32#8)
      ∧ (∀ v id, e.par v id
          = if id = 0#5 ∨ id = 2#5 then 255#8 else if id = 7#5 then 32#8 else 0#8)
      ∧ (∀ v p, e.length v p = 16#7 ∧ e.rate v p = 0#8 ∧ e.noteCount v p = 0#7 ∧ e.lockHead v p = 0xFFFF#16
          ∧ ∀ st, e.note v p st = 0#8 ∧ e.key v p st = 0#8)
      ∧ (∀ i : PoolIx, i.toNat < s.cfg.poolC → e.record s.cfg i
          = ⟨0#8, 0#8, 0#8, if i.toNat + 1 < s.cfg.poolC then i + 1#16 else 0xFFFF#16⟩)
      ∧ (∀ v, e.curPat v = 0#4 ∧ ∀ g, e.trig v g = false ∧ e.gnote v g = 0#8)
      ∧ e.freeHead = 0#16 ∧ e.freeCount = BitVec.ofNat 16 s.cfg.poolC
      ∧ e.curStep = 0#4 ∧ e.playStep = 0#4 ∧ e.playValid = false ∧ e.playing = false ∧ e.countdown = 1#32
      ∧ e.selVoice = 0#4 ∧ e.mode = 0#3 ∧ e.tempo = 120#16 ∧ e.samplesPerStep = 5512#32
      ∧ e.pendingNote = false ∧ e.pendingNoteValue = 0#8 ∧ e.diag = 0#4 ∧ e.busy = false ∧ e.frameIdx = 0

end
end

