-- ==== Sys2Proof/Laws/Memory.lean ====
section
/-!
SUPPORT. The laws of a memory space: a read after a write (of any list whatever), the canonical form kept by every write,
and that spaces in canonical form with equal contents are equal.
-/

namespace Sys2Proof.Laws

open Sys2Proof.Machine

variable {α : Type} {unlisted : Nat → α}

@[simp] theorem read_nil (a : Nat) : Memory.read unlisted ([] : Memory α) a = unlisted a := rfl

theorem read_erase_same (m : Memory α) (a : Nat) : Memory.read unlisted (Memory.erase m a) a = unlisted a := by
  induction m with
  | nil => rfl
  | cons e m ih =>
    obtain ⟨b, y⟩ := e
    by_cases h : b = a
    · simpa [Memory.erase, h] using ih
    · have : Memory.erase ((b, y) :: m) a = (b, y) :: Memory.erase m a := by simp [Memory.erase, h]
      rw [this, Memory.read, if_neg (Ne.symm h)]
      exact ih

theorem read_erase_other (m : Memory α) {a b : Nat} (h : b ≠ a) :
    Memory.read unlisted (Memory.erase m a) b = Memory.read unlisted m b := by
  induction m with
  | nil => rfl
  | cons e m ih =>
    obtain ⟨c, y⟩ := e
    by_cases hc : c = a
    · have : Memory.erase ((c, y) :: m) a = Memory.erase m a := by simp [Memory.erase, hc]
      rw [this, ih, Memory.read, if_neg (by omega)]
    · have : Memory.erase ((c, y) :: m) a = (c, y) :: Memory.erase m a := by simp [Memory.erase, hc]
      rw [this, Memory.read, Memory.read, ih]

theorem read_insert_other (m : Memory α) {a b : Nat} (x : α) (h : b ≠ a) :
    Memory.read unlisted (Memory.insert m a x) b = Memory.read unlisted m b := by
  induction m with
  | nil => simp [Memory.insert, Memory.read, h]
  | cons e m ih =>
    obtain ⟨c, y⟩ := e
    simp only [Memory.insert]
    split
    · simp [Memory.read, h]
    · simp only [Memory.read, ih]

theorem read_insert_same (m : Memory α) {a : Nat} (x : α) (h : ∀ y, (a, y) ∉ m) :
    Memory.read unlisted (Memory.insert m a x) a = x := by
  induction m with
  | nil => simp [Memory.insert, Memory.read]
  | cons e m ih =>
    obtain ⟨c, y⟩ := e
    simp only [Memory.insert]
    split
    · simp [Memory.read]
    · rw [Memory.read, if_neg (fun hc => h y (by simp [hc]))]
      exact ih fun y' hy => h y' (List.mem_cons_of_mem _ hy)

variable [DecidableEq α]

/-- A read after a write to the same index gives the value written. -/
@[simp] theorem read_write_same (m : Memory α) (a : Nat) (x : α) :
    Memory.read unlisted (Memory.write unlisted m a x) a = x := by
  unfold Memory.write
  split
  · rename_i h
    rw [read_erase_same, h]
  · exact read_insert_same _ x fun y hy => by simp [Memory.erase] at hy

/-- A write leaves every other index alone. -/
theorem read_write_other (m : Memory α) {a b : Nat} (x : α) (h : b ≠ a) :
    Memory.read unlisted (Memory.write unlisted m a x) b = Memory.read unlisted m b := by
  unfold Memory.write
  split
  · exact read_erase_other m h
  · rw [read_insert_other _ x h, read_erase_other m h]

/-- What a read gives after a write. -/
theorem read_write (m : Memory α) (a b : Nat) (x : α) :
    Memory.read unlisted (Memory.write unlisted m a x) b = if b = a then x else Memory.read unlisted m b := by
  split
  · rename_i h
    rw [h, read_write_same]
  · rename_i h
    exact read_write_other m x h

theorem wfFrom_cons {size low : Nat} {e : Nat × α} {m : Memory α} :
    Memory.wfFrom unlisted size low (e :: m) = true ↔
      low ≤ e.1 ∧ e.1 < size ∧ e.2 ≠ unlisted e.1 ∧ Memory.wfFrom unlisted size (e.1 + 1) m = true := by
  obtain ⟨b, y⟩ := e
  simp [Memory.wfFrom, and_assoc]

theorem wfFrom_mono {size low low' : Nat} {m : Memory α} (h : low' ≤ low)
    (hm : Memory.wfFrom unlisted size low m = true) : Memory.wfFrom unlisted size low' m = true := by
  cases m with
  | nil => rfl
  | cons b m =>
    rw [wfFrom_cons] at hm ⊢
    exact ⟨by omega, hm.2⟩

theorem wfFrom_erase {size low : Nat} {m : Memory α} (hm : Memory.wfFrom unlisted size low m = true) (a : Nat) :
    Memory.wfFrom unlisted size low (Memory.erase m a) = true := by
  induction m generalizing low with
  | nil => rfl
  | cons e m ih =>
    rw [wfFrom_cons] at hm
    by_cases h : e.1 = a
    · have : Memory.erase (e :: m) a = Memory.erase m a := by simp [Memory.erase, h]
      rw [this]
      exact wfFrom_mono (by omega) (ih hm.2.2.2)
    · have : Memory.erase (e :: m) a = e :: Memory.erase m a := by simp [Memory.erase, h]
      rw [this, wfFrom_cons]
      exact ⟨hm.1, hm.2.1, hm.2.2.1, ih hm.2.2.2⟩

theorem wfFrom_insert {size low a : Nat} {m : Memory α} {x : α} (hm : Memory.wfFrom unlisted size low m = true)
    (hx : x ≠ unlisted a) (hl : low ≤ a) (ha : a < size) (hnot : ∀ y, (a, y) ∉ m) :
    Memory.wfFrom unlisted size low (Memory.insert m a x) = true := by
  induction m generalizing low with
  | nil => exact wfFrom_cons.2 ⟨hl, ha, hx, rfl⟩
  | cons e m ih =>
    obtain ⟨c, y⟩ := e
    rw [wfFrom_cons] at hm
    simp only [Memory.insert]
    split
    · rw [wfFrom_cons, wfFrom_cons]
      exact ⟨hl, ha, hx, by simp_all, hm.2.1, hm.2.2.1, hm.2.2.2⟩
    · rw [wfFrom_cons]
      have hne : a ≠ c := fun h => hnot y (by simp [h])
      exact ⟨hm.1, hm.2.1, hm.2.2.1, ih hm.2.2.2 (by simp at *; omega)
        fun y' hy => hnot y' (List.mem_cons_of_mem _ hy)⟩

/-- Every write inside the space keeps the canonical form. -/
theorem wf_write {size : Nat} {m : Memory α} (hm : Memory.wf unlisted size m = true) {a : Nat} (x : α)
    (ha : a < size) : Memory.wf unlisted size (Memory.write unlisted m a x) = true := by
  unfold Memory.write
  split
  · exact wfFrom_erase hm a
  · exact wfFrom_insert (wfFrom_erase hm a) (by assumption) (Nat.zero_le a) ha fun y hy => by
      simp [Memory.erase] at hy

theorem wf_nil (size : Nat) : Memory.wf unlisted size ([] : Memory α) = true := rfl

/-- Below the least listed index a canonical space reads as unlisted. -/
theorem read_below {size low : Nat} {m : Memory α} (hm : Memory.wfFrom unlisted size low m = true) {a : Nat}
    (ha : a < low) : Memory.read unlisted m a = unlisted a := by
  induction m generalizing low with
  | nil => rfl
  | cons e m ih =>
    obtain ⟨b, y⟩ := e
    rw [wfFrom_cons] at hm
    rw [Memory.read, if_neg (by simp at *; omega)]
    exact ih hm.2.2.2 (by simp at *; omega)

theorem wfFrom_ext {size low low' : Nat} {m m' : Memory α} (hm : Memory.wfFrom unlisted size low m = true)
    (hm' : Memory.wfFrom unlisted size low' m' = true)
    (h : ∀ a, Memory.read unlisted m a = Memory.read unlisted m' a) : m = m' := by
  induction m generalizing low low' m' with
  | nil =>
    cases m' with
    | nil => rfl
    | cons e m' =>
      obtain ⟨c, y⟩ := e
      have := h c
      simp only [Memory.read, if_pos] at this
      exact absurd this.symm (wfFrom_cons.1 hm').2.2.1
  | cons e m ih =>
    obtain ⟨b, x⟩ := e
    have hb0 := wfFrom_cons.1 hm
    cases m' with
    | nil =>
      have := h b
      simp only [Memory.read, if_pos] at this
      exact absurd this hb0.2.2.1
    | cons e' m' =>
      obtain ⟨c, y⟩ := e'
      have hc0 := wfFrom_cons.1 hm'
      rcases Nat.lt_trichotomy b c with hlt | heq | hgt
      · have := h b
        rw [Memory.read, if_pos rfl, Memory.read, if_neg (by omega), read_below hc0.2.2.2 (by simp; omega)] at this
        exact absurd this hb0.2.2.1
      · subst heq
        have hxy := h b
        rw [Memory.read, if_pos rfl, Memory.read, if_pos rfl] at hxy
        subst hxy
        congr 1
        refine ih hb0.2.2.2 hc0.2.2.2 fun a => ?_
        by_cases ha : a = b
        · subst ha
          rw [read_below hb0.2.2.2 (by simp), read_below hc0.2.2.2 (by simp)]
        · have := h a
          rwa [Memory.read, if_neg ha, Memory.read, if_neg ha] at this
      · have := h c
        rw [Memory.read, if_neg (by omega), read_below hb0.2.2.2 (by simp; omega), Memory.read, if_pos rfl] at this
        exact absurd this.symm hc0.2.2.1

/-- Spaces in canonical form with equal contents are equal. -/
theorem memory_ext {size : Nat} {m m' : Memory α} (hm : Memory.wf unlisted size m = true)
    (hm' : Memory.wf unlisted size m' = true) (h : ∀ a, Memory.read unlisted m a = Memory.read unlisted m' a) :
    m = m' := wfFrom_ext hm hm' h

end Sys2Proof.Laws
end

