-- ==== Sys2Proof/Laws/State.lean ====
section
/-!
SUPPORT. One lemma per field per update, each true by definition: what the named updates of the hardware's state leave
alone. Generated in one pattern; the fields that an update writes are read by Laws/Ops.lean.
-/

namespace Sys2Proof.Laws

open Sys2Proof.Machine

section setVoice

variable (e : Engine) (v : VoiceIx) (r : Instrument)

@[simp] theorem setVoice_parMem : (e.setVoice v r).parMem = e.parMem := rfl
@[simp] theorem setVoice_curPattern : (e.setVoice v r).curPattern = e.curPattern := rfl
@[simp] theorem setVoice_noteMem : (e.setVoice v r).noteMem = e.noteMem := rfl
@[simp] theorem setVoice_keyMem : (e.setVoice v r).keyMem = e.keyMem := rfl
@[simp] theorem setVoice_lengthMem : (e.setVoice v r).lengthMem = e.lengthMem := rfl
@[simp] theorem setVoice_rateMem : (e.setVoice v r).rateMem = e.rateMem := rfl
@[simp] theorem setVoice_noteCountMem : (e.setVoice v r).noteCountMem = e.noteCountMem := rfl
@[simp] theorem setVoice_lockHeadMem : (e.setVoice v r).lockHeadMem = e.lockHeadMem := rfl
@[simp] theorem setVoice_poolMem : (e.setVoice v r).poolMem = e.poolMem := rfl
@[simp] theorem setVoice_freeHead : (e.setVoice v r).freeHead = e.freeHead := rfl
@[simp] theorem setVoice_freeCount : (e.setVoice v r).freeCount = e.freeCount := rfl
@[simp] theorem setVoice_curStep : (e.setVoice v r).curStep = e.curStep := rfl
@[simp] theorem setVoice_countdown : (e.setVoice v r).countdown = e.countdown := rfl
@[simp] theorem setVoice_playStep : (e.setVoice v r).playStep = e.playStep := rfl
@[simp] theorem setVoice_playValid : (e.setVoice v r).playValid = e.playValid := rfl
@[simp] theorem setVoice_playing : (e.setVoice v r).playing = e.playing := rfl
@[simp] theorem setVoice_selVoice : (e.setVoice v r).selVoice = e.selVoice := rfl
@[simp] theorem setVoice_mode : (e.setVoice v r).mode = e.mode := rfl
@[simp] theorem setVoice_trigMem : (e.setVoice v r).trigMem = e.trigMem := rfl
@[simp] theorem setVoice_gnoteMem : (e.setVoice v r).gnoteMem = e.gnoteMem := rfl
@[simp] theorem setVoice_tempo : (e.setVoice v r).tempo = e.tempo := rfl
@[simp] theorem setVoice_samplesPerStep : (e.setVoice v r).samplesPerStep = e.samplesPerStep := rfl
@[simp] theorem setVoice_pendingNote : (e.setVoice v r).pendingNote = e.pendingNote := rfl
@[simp] theorem setVoice_pendingNoteValue : (e.setVoice v r).pendingNoteValue = e.pendingNoteValue := rfl
@[simp] theorem setVoice_diag : (e.setVoice v r).diag = e.diag := rfl
@[simp] theorem setVoice_busy : (e.setVoice v r).busy = e.busy := rfl
@[simp] theorem setVoice_frameIdx : (e.setVoice v r).frameIdx = e.frameIdx := rfl
@[simp] theorem setVoice_audioMem : (e.setVoice v r).audioMem = e.audioMem := rfl

end setVoice

section setCurPat

variable (e : Engine) (v : VoiceIx) (p : PatternIx)

@[simp] theorem setCurPat_x : (e.setCurPat v p).x = e.x := rfl
@[simp] theorem setCurPat_parMem : (e.setCurPat v p).parMem = e.parMem := rfl
@[simp] theorem setCurPat_noteMem : (e.setCurPat v p).noteMem = e.noteMem := rfl
@[simp] theorem setCurPat_keyMem : (e.setCurPat v p).keyMem = e.keyMem := rfl
@[simp] theorem setCurPat_lengthMem : (e.setCurPat v p).lengthMem = e.lengthMem := rfl
@[simp] theorem setCurPat_rateMem : (e.setCurPat v p).rateMem = e.rateMem := rfl
@[simp] theorem setCurPat_noteCountMem : (e.setCurPat v p).noteCountMem = e.noteCountMem := rfl
@[simp] theorem setCurPat_lockHeadMem : (e.setCurPat v p).lockHeadMem = e.lockHeadMem := rfl
@[simp] theorem setCurPat_poolMem : (e.setCurPat v p).poolMem = e.poolMem := rfl
@[simp] theorem setCurPat_freeHead : (e.setCurPat v p).freeHead = e.freeHead := rfl
@[simp] theorem setCurPat_freeCount : (e.setCurPat v p).freeCount = e.freeCount := rfl
@[simp] theorem setCurPat_curStep : (e.setCurPat v p).curStep = e.curStep := rfl
@[simp] theorem setCurPat_countdown : (e.setCurPat v p).countdown = e.countdown := rfl
@[simp] theorem setCurPat_playStep : (e.setCurPat v p).playStep = e.playStep := rfl
@[simp] theorem setCurPat_playValid : (e.setCurPat v p).playValid = e.playValid := rfl
@[simp] theorem setCurPat_playing : (e.setCurPat v p).playing = e.playing := rfl
@[simp] theorem setCurPat_selVoice : (e.setCurPat v p).selVoice = e.selVoice := rfl
@[simp] theorem setCurPat_mode : (e.setCurPat v p).mode = e.mode := rfl
@[simp] theorem setCurPat_trigMem : (e.setCurPat v p).trigMem = e.trigMem := rfl
@[simp] theorem setCurPat_gnoteMem : (e.setCurPat v p).gnoteMem = e.gnoteMem := rfl
@[simp] theorem setCurPat_tempo : (e.setCurPat v p).tempo = e.tempo := rfl
@[simp] theorem setCurPat_samplesPerStep : (e.setCurPat v p).samplesPerStep = e.samplesPerStep := rfl
@[simp] theorem setCurPat_pendingNote : (e.setCurPat v p).pendingNote = e.pendingNote := rfl
@[simp] theorem setCurPat_pendingNoteValue : (e.setCurPat v p).pendingNoteValue = e.pendingNoteValue := rfl
@[simp] theorem setCurPat_diag : (e.setCurPat v p).diag = e.diag := rfl
@[simp] theorem setCurPat_busy : (e.setCurPat v p).busy = e.busy := rfl
@[simp] theorem setCurPat_frameIdx : (e.setCurPat v p).frameIdx = e.frameIdx := rfl
@[simp] theorem setCurPat_audioMem : (e.setCurPat v p).audioMem = e.audioMem := rfl

end setCurPat

section setPar

variable (e : Engine) (v : VoiceIx) (id : ParamId) (b : Byte)

@[simp] theorem setPar_x : (e.setPar v id b).x = e.x := rfl
@[simp] theorem setPar_curPattern : (e.setPar v id b).curPattern = e.curPattern := rfl
@[simp] theorem setPar_noteMem : (e.setPar v id b).noteMem = e.noteMem := rfl
@[simp] theorem setPar_keyMem : (e.setPar v id b).keyMem = e.keyMem := rfl
@[simp] theorem setPar_lengthMem : (e.setPar v id b).lengthMem = e.lengthMem := rfl
@[simp] theorem setPar_rateMem : (e.setPar v id b).rateMem = e.rateMem := rfl
@[simp] theorem setPar_noteCountMem : (e.setPar v id b).noteCountMem = e.noteCountMem := rfl
@[simp] theorem setPar_lockHeadMem : (e.setPar v id b).lockHeadMem = e.lockHeadMem := rfl
@[simp] theorem setPar_poolMem : (e.setPar v id b).poolMem = e.poolMem := rfl
@[simp] theorem setPar_freeHead : (e.setPar v id b).freeHead = e.freeHead := rfl
@[simp] theorem setPar_freeCount : (e.setPar v id b).freeCount = e.freeCount := rfl
@[simp] theorem setPar_curStep : (e.setPar v id b).curStep = e.curStep := rfl
@[simp] theorem setPar_countdown : (e.setPar v id b).countdown = e.countdown := rfl
@[simp] theorem setPar_playStep : (e.setPar v id b).playStep = e.playStep := rfl
@[simp] theorem setPar_playValid : (e.setPar v id b).playValid = e.playValid := rfl
@[simp] theorem setPar_playing : (e.setPar v id b).playing = e.playing := rfl
@[simp] theorem setPar_selVoice : (e.setPar v id b).selVoice = e.selVoice := rfl
@[simp] theorem setPar_mode : (e.setPar v id b).mode = e.mode := rfl
@[simp] theorem setPar_trigMem : (e.setPar v id b).trigMem = e.trigMem := rfl
@[simp] theorem setPar_gnoteMem : (e.setPar v id b).gnoteMem = e.gnoteMem := rfl
@[simp] theorem setPar_tempo : (e.setPar v id b).tempo = e.tempo := rfl
@[simp] theorem setPar_samplesPerStep : (e.setPar v id b).samplesPerStep = e.samplesPerStep := rfl
@[simp] theorem setPar_pendingNote : (e.setPar v id b).pendingNote = e.pendingNote := rfl
@[simp] theorem setPar_pendingNoteValue : (e.setPar v id b).pendingNoteValue = e.pendingNoteValue := rfl
@[simp] theorem setPar_diag : (e.setPar v id b).diag = e.diag := rfl
@[simp] theorem setPar_busy : (e.setPar v id b).busy = e.busy := rfl
@[simp] theorem setPar_frameIdx : (e.setPar v id b).frameIdx = e.frameIdx := rfl
@[simp] theorem setPar_audioMem : (e.setPar v id b).audioMem = e.audioMem := rfl

end setPar

section setNoteByte

variable (e : Engine) (v : VoiceIx) (p : PatternIx) (st : StepIx) (b : Byte)

@[simp] theorem setNoteByte_x : (e.setNoteByte v p st b).x = e.x := rfl
@[simp] theorem setNoteByte_parMem : (e.setNoteByte v p st b).parMem = e.parMem := rfl
@[simp] theorem setNoteByte_curPattern : (e.setNoteByte v p st b).curPattern = e.curPattern := rfl
@[simp] theorem setNoteByte_keyMem : (e.setNoteByte v p st b).keyMem = e.keyMem := rfl
@[simp] theorem setNoteByte_lengthMem : (e.setNoteByte v p st b).lengthMem = e.lengthMem := rfl
@[simp] theorem setNoteByte_rateMem : (e.setNoteByte v p st b).rateMem = e.rateMem := rfl
@[simp] theorem setNoteByte_noteCountMem : (e.setNoteByte v p st b).noteCountMem = e.noteCountMem := rfl
@[simp] theorem setNoteByte_lockHeadMem : (e.setNoteByte v p st b).lockHeadMem = e.lockHeadMem := rfl
@[simp] theorem setNoteByte_poolMem : (e.setNoteByte v p st b).poolMem = e.poolMem := rfl
@[simp] theorem setNoteByte_freeHead : (e.setNoteByte v p st b).freeHead = e.freeHead := rfl
@[simp] theorem setNoteByte_freeCount : (e.setNoteByte v p st b).freeCount = e.freeCount := rfl
@[simp] theorem setNoteByte_curStep : (e.setNoteByte v p st b).curStep = e.curStep := rfl
@[simp] theorem setNoteByte_countdown : (e.setNoteByte v p st b).countdown = e.countdown := rfl
@[simp] theorem setNoteByte_playStep : (e.setNoteByte v p st b).playStep = e.playStep := rfl
@[simp] theorem setNoteByte_playValid : (e.setNoteByte v p st b).playValid = e.playValid := rfl
@[simp] theorem setNoteByte_playing : (e.setNoteByte v p st b).playing = e.playing := rfl
@[simp] theorem setNoteByte_selVoice : (e.setNoteByte v p st b).selVoice = e.selVoice := rfl
@[simp] theorem setNoteByte_mode : (e.setNoteByte v p st b).mode = e.mode := rfl
@[simp] theorem setNoteByte_trigMem : (e.setNoteByte v p st b).trigMem = e.trigMem := rfl
@[simp] theorem setNoteByte_gnoteMem : (e.setNoteByte v p st b).gnoteMem = e.gnoteMem := rfl
@[simp] theorem setNoteByte_tempo : (e.setNoteByte v p st b).tempo = e.tempo := rfl
@[simp] theorem setNoteByte_samplesPerStep : (e.setNoteByte v p st b).samplesPerStep = e.samplesPerStep := rfl
@[simp] theorem setNoteByte_pendingNote : (e.setNoteByte v p st b).pendingNote = e.pendingNote := rfl
@[simp] theorem setNoteByte_pendingNoteValue : (e.setNoteByte v p st b).pendingNoteValue = e.pendingNoteValue := rfl
@[simp] theorem setNoteByte_diag : (e.setNoteByte v p st b).diag = e.diag := rfl
@[simp] theorem setNoteByte_busy : (e.setNoteByte v p st b).busy = e.busy := rfl
@[simp] theorem setNoteByte_frameIdx : (e.setNoteByte v p st b).frameIdx = e.frameIdx := rfl
@[simp] theorem setNoteByte_audioMem : (e.setNoteByte v p st b).audioMem = e.audioMem := rfl

end setNoteByte

section setKey

variable (e : Engine) (v : VoiceIx) (p : PatternIx) (st : StepIx) (b : Byte)

@[simp] theorem setKey_x : (e.setKey v p st b).x = e.x := rfl
@[simp] theorem setKey_parMem : (e.setKey v p st b).parMem = e.parMem := rfl
@[simp] theorem setKey_curPattern : (e.setKey v p st b).curPattern = e.curPattern := rfl
@[simp] theorem setKey_noteMem : (e.setKey v p st b).noteMem = e.noteMem := rfl
@[simp] theorem setKey_lengthMem : (e.setKey v p st b).lengthMem = e.lengthMem := rfl
@[simp] theorem setKey_rateMem : (e.setKey v p st b).rateMem = e.rateMem := rfl
@[simp] theorem setKey_noteCountMem : (e.setKey v p st b).noteCountMem = e.noteCountMem := rfl
@[simp] theorem setKey_lockHeadMem : (e.setKey v p st b).lockHeadMem = e.lockHeadMem := rfl
@[simp] theorem setKey_poolMem : (e.setKey v p st b).poolMem = e.poolMem := rfl
@[simp] theorem setKey_freeHead : (e.setKey v p st b).freeHead = e.freeHead := rfl
@[simp] theorem setKey_freeCount : (e.setKey v p st b).freeCount = e.freeCount := rfl
@[simp] theorem setKey_curStep : (e.setKey v p st b).curStep = e.curStep := rfl
@[simp] theorem setKey_countdown : (e.setKey v p st b).countdown = e.countdown := rfl
@[simp] theorem setKey_playStep : (e.setKey v p st b).playStep = e.playStep := rfl
@[simp] theorem setKey_playValid : (e.setKey v p st b).playValid = e.playValid := rfl
@[simp] theorem setKey_playing : (e.setKey v p st b).playing = e.playing := rfl
@[simp] theorem setKey_selVoice : (e.setKey v p st b).selVoice = e.selVoice := rfl
@[simp] theorem setKey_mode : (e.setKey v p st b).mode = e.mode := rfl
@[simp] theorem setKey_trigMem : (e.setKey v p st b).trigMem = e.trigMem := rfl
@[simp] theorem setKey_gnoteMem : (e.setKey v p st b).gnoteMem = e.gnoteMem := rfl
@[simp] theorem setKey_tempo : (e.setKey v p st b).tempo = e.tempo := rfl
@[simp] theorem setKey_samplesPerStep : (e.setKey v p st b).samplesPerStep = e.samplesPerStep := rfl
@[simp] theorem setKey_pendingNote : (e.setKey v p st b).pendingNote = e.pendingNote := rfl
@[simp] theorem setKey_pendingNoteValue : (e.setKey v p st b).pendingNoteValue = e.pendingNoteValue := rfl
@[simp] theorem setKey_diag : (e.setKey v p st b).diag = e.diag := rfl
@[simp] theorem setKey_busy : (e.setKey v p st b).busy = e.busy := rfl
@[simp] theorem setKey_frameIdx : (e.setKey v p st b).frameIdx = e.frameIdx := rfl
@[simp] theorem setKey_audioMem : (e.setKey v p st b).audioMem = e.audioMem := rfl

end setKey

section setLength

variable (e : Engine) (v : VoiceIx) (p : PatternIx) (n : BitVec 7)

@[simp] theorem setLength_x : (e.setLength v p n).x = e.x := rfl
@[simp] theorem setLength_parMem : (e.setLength v p n).parMem = e.parMem := rfl
@[simp] theorem setLength_curPattern : (e.setLength v p n).curPattern = e.curPattern := rfl
@[simp] theorem setLength_noteMem : (e.setLength v p n).noteMem = e.noteMem := rfl
@[simp] theorem setLength_keyMem : (e.setLength v p n).keyMem = e.keyMem := rfl
@[simp] theorem setLength_rateMem : (e.setLength v p n).rateMem = e.rateMem := rfl
@[simp] theorem setLength_noteCountMem : (e.setLength v p n).noteCountMem = e.noteCountMem := rfl
@[simp] theorem setLength_lockHeadMem : (e.setLength v p n).lockHeadMem = e.lockHeadMem := rfl
@[simp] theorem setLength_poolMem : (e.setLength v p n).poolMem = e.poolMem := rfl
@[simp] theorem setLength_freeHead : (e.setLength v p n).freeHead = e.freeHead := rfl
@[simp] theorem setLength_freeCount : (e.setLength v p n).freeCount = e.freeCount := rfl
@[simp] theorem setLength_curStep : (e.setLength v p n).curStep = e.curStep := rfl
@[simp] theorem setLength_countdown : (e.setLength v p n).countdown = e.countdown := rfl
@[simp] theorem setLength_playStep : (e.setLength v p n).playStep = e.playStep := rfl
@[simp] theorem setLength_playValid : (e.setLength v p n).playValid = e.playValid := rfl
@[simp] theorem setLength_playing : (e.setLength v p n).playing = e.playing := rfl
@[simp] theorem setLength_selVoice : (e.setLength v p n).selVoice = e.selVoice := rfl
@[simp] theorem setLength_mode : (e.setLength v p n).mode = e.mode := rfl
@[simp] theorem setLength_trigMem : (e.setLength v p n).trigMem = e.trigMem := rfl
@[simp] theorem setLength_gnoteMem : (e.setLength v p n).gnoteMem = e.gnoteMem := rfl
@[simp] theorem setLength_tempo : (e.setLength v p n).tempo = e.tempo := rfl
@[simp] theorem setLength_samplesPerStep : (e.setLength v p n).samplesPerStep = e.samplesPerStep := rfl
@[simp] theorem setLength_pendingNote : (e.setLength v p n).pendingNote = e.pendingNote := rfl
@[simp] theorem setLength_pendingNoteValue : (e.setLength v p n).pendingNoteValue = e.pendingNoteValue := rfl
@[simp] theorem setLength_diag : (e.setLength v p n).diag = e.diag := rfl
@[simp] theorem setLength_busy : (e.setLength v p n).busy = e.busy := rfl
@[simp] theorem setLength_frameIdx : (e.setLength v p n).frameIdx = e.frameIdx := rfl
@[simp] theorem setLength_audioMem : (e.setLength v p n).audioMem = e.audioMem := rfl

end setLength

section setRate

variable (e : Engine) (v : VoiceIx) (p : PatternIx) (b : Byte)

@[simp] theorem setRate_x : (e.setRate v p b).x = e.x := rfl
@[simp] theorem setRate_parMem : (e.setRate v p b).parMem = e.parMem := rfl
@[simp] theorem setRate_curPattern : (e.setRate v p b).curPattern = e.curPattern := rfl
@[simp] theorem setRate_noteMem : (e.setRate v p b).noteMem = e.noteMem := rfl
@[simp] theorem setRate_keyMem : (e.setRate v p b).keyMem = e.keyMem := rfl
@[simp] theorem setRate_lengthMem : (e.setRate v p b).lengthMem = e.lengthMem := rfl
@[simp] theorem setRate_noteCountMem : (e.setRate v p b).noteCountMem = e.noteCountMem := rfl
@[simp] theorem setRate_lockHeadMem : (e.setRate v p b).lockHeadMem = e.lockHeadMem := rfl
@[simp] theorem setRate_poolMem : (e.setRate v p b).poolMem = e.poolMem := rfl
@[simp] theorem setRate_freeHead : (e.setRate v p b).freeHead = e.freeHead := rfl
@[simp] theorem setRate_freeCount : (e.setRate v p b).freeCount = e.freeCount := rfl
@[simp] theorem setRate_curStep : (e.setRate v p b).curStep = e.curStep := rfl
@[simp] theorem setRate_countdown : (e.setRate v p b).countdown = e.countdown := rfl
@[simp] theorem setRate_playStep : (e.setRate v p b).playStep = e.playStep := rfl
@[simp] theorem setRate_playValid : (e.setRate v p b).playValid = e.playValid := rfl
@[simp] theorem setRate_playing : (e.setRate v p b).playing = e.playing := rfl
@[simp] theorem setRate_selVoice : (e.setRate v p b).selVoice = e.selVoice := rfl
@[simp] theorem setRate_mode : (e.setRate v p b).mode = e.mode := rfl
@[simp] theorem setRate_trigMem : (e.setRate v p b).trigMem = e.trigMem := rfl
@[simp] theorem setRate_gnoteMem : (e.setRate v p b).gnoteMem = e.gnoteMem := rfl
@[simp] theorem setRate_tempo : (e.setRate v p b).tempo = e.tempo := rfl
@[simp] theorem setRate_samplesPerStep : (e.setRate v p b).samplesPerStep = e.samplesPerStep := rfl
@[simp] theorem setRate_pendingNote : (e.setRate v p b).pendingNote = e.pendingNote := rfl
@[simp] theorem setRate_pendingNoteValue : (e.setRate v p b).pendingNoteValue = e.pendingNoteValue := rfl
@[simp] theorem setRate_diag : (e.setRate v p b).diag = e.diag := rfl
@[simp] theorem setRate_busy : (e.setRate v p b).busy = e.busy := rfl
@[simp] theorem setRate_frameIdx : (e.setRate v p b).frameIdx = e.frameIdx := rfl
@[simp] theorem setRate_audioMem : (e.setRate v p b).audioMem = e.audioMem := rfl

end setRate

section setNoteCount

variable (e : Engine) (v : VoiceIx) (p : PatternIx) (n : BitVec 7)

@[simp] theorem setNoteCount_x : (e.setNoteCount v p n).x = e.x := rfl
@[simp] theorem setNoteCount_parMem : (e.setNoteCount v p n).parMem = e.parMem := rfl
@[simp] theorem setNoteCount_curPattern : (e.setNoteCount v p n).curPattern = e.curPattern := rfl
@[simp] theorem setNoteCount_noteMem : (e.setNoteCount v p n).noteMem = e.noteMem := rfl
@[simp] theorem setNoteCount_keyMem : (e.setNoteCount v p n).keyMem = e.keyMem := rfl
@[simp] theorem setNoteCount_lengthMem : (e.setNoteCount v p n).lengthMem = e.lengthMem := rfl
@[simp] theorem setNoteCount_rateMem : (e.setNoteCount v p n).rateMem = e.rateMem := rfl
@[simp] theorem setNoteCount_lockHeadMem : (e.setNoteCount v p n).lockHeadMem = e.lockHeadMem := rfl
@[simp] theorem setNoteCount_poolMem : (e.setNoteCount v p n).poolMem = e.poolMem := rfl
@[simp] theorem setNoteCount_freeHead : (e.setNoteCount v p n).freeHead = e.freeHead := rfl
@[simp] theorem setNoteCount_freeCount : (e.setNoteCount v p n).freeCount = e.freeCount := rfl
@[simp] theorem setNoteCount_curStep : (e.setNoteCount v p n).curStep = e.curStep := rfl
@[simp] theorem setNoteCount_countdown : (e.setNoteCount v p n).countdown = e.countdown := rfl
@[simp] theorem setNoteCount_playStep : (e.setNoteCount v p n).playStep = e.playStep := rfl
@[simp] theorem setNoteCount_playValid : (e.setNoteCount v p n).playValid = e.playValid := rfl
@[simp] theorem setNoteCount_playing : (e.setNoteCount v p n).playing = e.playing := rfl
@[simp] theorem setNoteCount_selVoice : (e.setNoteCount v p n).selVoice = e.selVoice := rfl
@[simp] theorem setNoteCount_mode : (e.setNoteCount v p n).mode = e.mode := rfl
@[simp] theorem setNoteCount_trigMem : (e.setNoteCount v p n).trigMem = e.trigMem := rfl
@[simp] theorem setNoteCount_gnoteMem : (e.setNoteCount v p n).gnoteMem = e.gnoteMem := rfl
@[simp] theorem setNoteCount_tempo : (e.setNoteCount v p n).tempo = e.tempo := rfl
@[simp] theorem setNoteCount_samplesPerStep : (e.setNoteCount v p n).samplesPerStep = e.samplesPerStep := rfl
@[simp] theorem setNoteCount_pendingNote : (e.setNoteCount v p n).pendingNote = e.pendingNote := rfl
@[simp] theorem setNoteCount_pendingNoteValue : (e.setNoteCount v p n).pendingNoteValue = e.pendingNoteValue := rfl
@[simp] theorem setNoteCount_diag : (e.setNoteCount v p n).diag = e.diag := rfl
@[simp] theorem setNoteCount_busy : (e.setNoteCount v p n).busy = e.busy := rfl
@[simp] theorem setNoteCount_frameIdx : (e.setNoteCount v p n).frameIdx = e.frameIdx := rfl
@[simp] theorem setNoteCount_audioMem : (e.setNoteCount v p n).audioMem = e.audioMem := rfl

end setNoteCount

section setLockHead

variable (e : Engine) (v : VoiceIx) (p : PatternIx) (i : PoolIx)

@[simp] theorem setLockHead_x : (e.setLockHead v p i).x = e.x := rfl
@[simp] theorem setLockHead_parMem : (e.setLockHead v p i).parMem = e.parMem := rfl
@[simp] theorem setLockHead_curPattern : (e.setLockHead v p i).curPattern = e.curPattern := rfl
@[simp] theorem setLockHead_noteMem : (e.setLockHead v p i).noteMem = e.noteMem := rfl
@[simp] theorem setLockHead_keyMem : (e.setLockHead v p i).keyMem = e.keyMem := rfl
@[simp] theorem setLockHead_lengthMem : (e.setLockHead v p i).lengthMem = e.lengthMem := rfl
@[simp] theorem setLockHead_rateMem : (e.setLockHead v p i).rateMem = e.rateMem := rfl
@[simp] theorem setLockHead_noteCountMem : (e.setLockHead v p i).noteCountMem = e.noteCountMem := rfl
@[simp] theorem setLockHead_poolMem : (e.setLockHead v p i).poolMem = e.poolMem := rfl
@[simp] theorem setLockHead_freeHead : (e.setLockHead v p i).freeHead = e.freeHead := rfl
@[simp] theorem setLockHead_freeCount : (e.setLockHead v p i).freeCount = e.freeCount := rfl
@[simp] theorem setLockHead_curStep : (e.setLockHead v p i).curStep = e.curStep := rfl
@[simp] theorem setLockHead_countdown : (e.setLockHead v p i).countdown = e.countdown := rfl
@[simp] theorem setLockHead_playStep : (e.setLockHead v p i).playStep = e.playStep := rfl
@[simp] theorem setLockHead_playValid : (e.setLockHead v p i).playValid = e.playValid := rfl
@[simp] theorem setLockHead_playing : (e.setLockHead v p i).playing = e.playing := rfl
@[simp] theorem setLockHead_selVoice : (e.setLockHead v p i).selVoice = e.selVoice := rfl
@[simp] theorem setLockHead_mode : (e.setLockHead v p i).mode = e.mode := rfl
@[simp] theorem setLockHead_trigMem : (e.setLockHead v p i).trigMem = e.trigMem := rfl
@[simp] theorem setLockHead_gnoteMem : (e.setLockHead v p i).gnoteMem = e.gnoteMem := rfl
@[simp] theorem setLockHead_tempo : (e.setLockHead v p i).tempo = e.tempo := rfl
@[simp] theorem setLockHead_samplesPerStep : (e.setLockHead v p i).samplesPerStep = e.samplesPerStep := rfl
@[simp] theorem setLockHead_pendingNote : (e.setLockHead v p i).pendingNote = e.pendingNote := rfl
@[simp] theorem setLockHead_pendingNoteValue : (e.setLockHead v p i).pendingNoteValue = e.pendingNoteValue := rfl
@[simp] theorem setLockHead_diag : (e.setLockHead v p i).diag = e.diag := rfl
@[simp] theorem setLockHead_busy : (e.setLockHead v p i).busy = e.busy := rfl
@[simp] theorem setLockHead_frameIdx : (e.setLockHead v p i).frameIdx = e.frameIdx := rfl
@[simp] theorem setLockHead_audioMem : (e.setLockHead v p i).audioMem = e.audioMem := rfl

end setLockHead

section setTrig

variable (e : Engine) (v : VoiceIx) (g : GridIx) (b : Bool)

@[simp] theorem setTrig_x : (e.setTrig v g b).x = e.x := rfl
@[simp] theorem setTrig_parMem : (e.setTrig v g b).parMem = e.parMem := rfl
@[simp] theorem setTrig_curPattern : (e.setTrig v g b).curPattern = e.curPattern := rfl
@[simp] theorem setTrig_noteMem : (e.setTrig v g b).noteMem = e.noteMem := rfl
@[simp] theorem setTrig_keyMem : (e.setTrig v g b).keyMem = e.keyMem := rfl
@[simp] theorem setTrig_lengthMem : (e.setTrig v g b).lengthMem = e.lengthMem := rfl
@[simp] theorem setTrig_rateMem : (e.setTrig v g b).rateMem = e.rateMem := rfl
@[simp] theorem setTrig_noteCountMem : (e.setTrig v g b).noteCountMem = e.noteCountMem := rfl
@[simp] theorem setTrig_lockHeadMem : (e.setTrig v g b).lockHeadMem = e.lockHeadMem := rfl
@[simp] theorem setTrig_poolMem : (e.setTrig v g b).poolMem = e.poolMem := rfl
@[simp] theorem setTrig_freeHead : (e.setTrig v g b).freeHead = e.freeHead := rfl
@[simp] theorem setTrig_freeCount : (e.setTrig v g b).freeCount = e.freeCount := rfl
@[simp] theorem setTrig_curStep : (e.setTrig v g b).curStep = e.curStep := rfl
@[simp] theorem setTrig_countdown : (e.setTrig v g b).countdown = e.countdown := rfl
@[simp] theorem setTrig_playStep : (e.setTrig v g b).playStep = e.playStep := rfl
@[simp] theorem setTrig_playValid : (e.setTrig v g b).playValid = e.playValid := rfl
@[simp] theorem setTrig_playing : (e.setTrig v g b).playing = e.playing := rfl
@[simp] theorem setTrig_selVoice : (e.setTrig v g b).selVoice = e.selVoice := rfl
@[simp] theorem setTrig_mode : (e.setTrig v g b).mode = e.mode := rfl
@[simp] theorem setTrig_gnoteMem : (e.setTrig v g b).gnoteMem = e.gnoteMem := rfl
@[simp] theorem setTrig_tempo : (e.setTrig v g b).tempo = e.tempo := rfl
@[simp] theorem setTrig_samplesPerStep : (e.setTrig v g b).samplesPerStep = e.samplesPerStep := rfl
@[simp] theorem setTrig_pendingNote : (e.setTrig v g b).pendingNote = e.pendingNote := rfl
@[simp] theorem setTrig_pendingNoteValue : (e.setTrig v g b).pendingNoteValue = e.pendingNoteValue := rfl
@[simp] theorem setTrig_diag : (e.setTrig v g b).diag = e.diag := rfl
@[simp] theorem setTrig_busy : (e.setTrig v g b).busy = e.busy := rfl
@[simp] theorem setTrig_frameIdx : (e.setTrig v g b).frameIdx = e.frameIdx := rfl
@[simp] theorem setTrig_audioMem : (e.setTrig v g b).audioMem = e.audioMem := rfl

end setTrig

section setGnote

variable (e : Engine) (v : VoiceIx) (g : GridIx) (b : Byte)

@[simp] theorem setGnote_x : (e.setGnote v g b).x = e.x := rfl
@[simp] theorem setGnote_parMem : (e.setGnote v g b).parMem = e.parMem := rfl
@[simp] theorem setGnote_curPattern : (e.setGnote v g b).curPattern = e.curPattern := rfl
@[simp] theorem setGnote_noteMem : (e.setGnote v g b).noteMem = e.noteMem := rfl
@[simp] theorem setGnote_keyMem : (e.setGnote v g b).keyMem = e.keyMem := rfl
@[simp] theorem setGnote_lengthMem : (e.setGnote v g b).lengthMem = e.lengthMem := rfl
@[simp] theorem setGnote_rateMem : (e.setGnote v g b).rateMem = e.rateMem := rfl
@[simp] theorem setGnote_noteCountMem : (e.setGnote v g b).noteCountMem = e.noteCountMem := rfl
@[simp] theorem setGnote_lockHeadMem : (e.setGnote v g b).lockHeadMem = e.lockHeadMem := rfl
@[simp] theorem setGnote_poolMem : (e.setGnote v g b).poolMem = e.poolMem := rfl
@[simp] theorem setGnote_freeHead : (e.setGnote v g b).freeHead = e.freeHead := rfl
@[simp] theorem setGnote_freeCount : (e.setGnote v g b).freeCount = e.freeCount := rfl
@[simp] theorem setGnote_curStep : (e.setGnote v g b).curStep = e.curStep := rfl
@[simp] theorem setGnote_countdown : (e.setGnote v g b).countdown = e.countdown := rfl
@[simp] theorem setGnote_playStep : (e.setGnote v g b).playStep = e.playStep := rfl
@[simp] theorem setGnote_playValid : (e.setGnote v g b).playValid = e.playValid := rfl
@[simp] theorem setGnote_playing : (e.setGnote v g b).playing = e.playing := rfl
@[simp] theorem setGnote_selVoice : (e.setGnote v g b).selVoice = e.selVoice := rfl
@[simp] theorem setGnote_mode : (e.setGnote v g b).mode = e.mode := rfl
@[simp] theorem setGnote_trigMem : (e.setGnote v g b).trigMem = e.trigMem := rfl
@[simp] theorem setGnote_tempo : (e.setGnote v g b).tempo = e.tempo := rfl
@[simp] theorem setGnote_samplesPerStep : (e.setGnote v g b).samplesPerStep = e.samplesPerStep := rfl
@[simp] theorem setGnote_pendingNote : (e.setGnote v g b).pendingNote = e.pendingNote := rfl
@[simp] theorem setGnote_pendingNoteValue : (e.setGnote v g b).pendingNoteValue = e.pendingNoteValue := rfl
@[simp] theorem setGnote_diag : (e.setGnote v g b).diag = e.diag := rfl
@[simp] theorem setGnote_busy : (e.setGnote v g b).busy = e.busy := rfl
@[simp] theorem setGnote_frameIdx : (e.setGnote v g b).frameIdx = e.frameIdx := rfl
@[simp] theorem setGnote_audioMem : (e.setGnote v g b).audioMem = e.audioMem := rfl

end setGnote

section setAudio

variable (e : Engine) (n : Nat) (right : Bool) (y : Sample)

@[simp] theorem setAudio_x : (e.setAudio n right y).x = e.x := rfl
@[simp] theorem setAudio_parMem : (e.setAudio n right y).parMem = e.parMem := rfl
@[simp] theorem setAudio_curPattern : (e.setAudio n right y).curPattern = e.curPattern := rfl
@[simp] theorem setAudio_noteMem : (e.setAudio n right y).noteMem = e.noteMem := rfl
@[simp] theorem setAudio_keyMem : (e.setAudio n right y).keyMem = e.keyMem := rfl
@[simp] theorem setAudio_lengthMem : (e.setAudio n right y).lengthMem = e.lengthMem := rfl
@[simp] theorem setAudio_rateMem : (e.setAudio n right y).rateMem = e.rateMem := rfl
@[simp] theorem setAudio_noteCountMem : (e.setAudio n right y).noteCountMem = e.noteCountMem := rfl
@[simp] theorem setAudio_lockHeadMem : (e.setAudio n right y).lockHeadMem = e.lockHeadMem := rfl
@[simp] theorem setAudio_poolMem : (e.setAudio n right y).poolMem = e.poolMem := rfl
@[simp] theorem setAudio_freeHead : (e.setAudio n right y).freeHead = e.freeHead := rfl
@[simp] theorem setAudio_freeCount : (e.setAudio n right y).freeCount = e.freeCount := rfl
@[simp] theorem setAudio_curStep : (e.setAudio n right y).curStep = e.curStep := rfl
@[simp] theorem setAudio_countdown : (e.setAudio n right y).countdown = e.countdown := rfl
@[simp] theorem setAudio_playStep : (e.setAudio n right y).playStep = e.playStep := rfl
@[simp] theorem setAudio_playValid : (e.setAudio n right y).playValid = e.playValid := rfl
@[simp] theorem setAudio_playing : (e.setAudio n right y).playing = e.playing := rfl
@[simp] theorem setAudio_selVoice : (e.setAudio n right y).selVoice = e.selVoice := rfl
@[simp] theorem setAudio_mode : (e.setAudio n right y).mode = e.mode := rfl
@[simp] theorem setAudio_trigMem : (e.setAudio n right y).trigMem = e.trigMem := rfl
@[simp] theorem setAudio_gnoteMem : (e.setAudio n right y).gnoteMem = e.gnoteMem := rfl
@[simp] theorem setAudio_tempo : (e.setAudio n right y).tempo = e.tempo := rfl
@[simp] theorem setAudio_samplesPerStep : (e.setAudio n right y).samplesPerStep = e.samplesPerStep := rfl
@[simp] theorem setAudio_pendingNote : (e.setAudio n right y).pendingNote = e.pendingNote := rfl
@[simp] theorem setAudio_pendingNoteValue : (e.setAudio n right y).pendingNoteValue = e.pendingNoteValue := rfl
@[simp] theorem setAudio_diag : (e.setAudio n right y).diag = e.diag := rfl
@[simp] theorem setAudio_busy : (e.setAudio n right y).busy = e.busy := rfl
@[simp] theorem setAudio_frameIdx : (e.setAudio n right y).frameIdx = e.frameIdx := rfl

end setAudio

section setRecord

variable (c : Config) (e : Engine) (i : PoolIx) (r : LockRecord)

@[simp] theorem setRecord_x : (e.setRecord c i r).x = e.x := rfl
@[simp] theorem setRecord_parMem : (e.setRecord c i r).parMem = e.parMem := rfl
@[simp] theorem setRecord_curPattern : (e.setRecord c i r).curPattern = e.curPattern := rfl
@[simp] theorem setRecord_noteMem : (e.setRecord c i r).noteMem = e.noteMem := rfl
@[simp] theorem setRecord_keyMem : (e.setRecord c i r).keyMem = e.keyMem := rfl
@[simp] theorem setRecord_lengthMem : (e.setRecord c i r).lengthMem = e.lengthMem := rfl
@[simp] theorem setRecord_rateMem : (e.setRecord c i r).rateMem = e.rateMem := rfl
@[simp] theorem setRecord_noteCountMem : (e.setRecord c i r).noteCountMem = e.noteCountMem := rfl
@[simp] theorem setRecord_lockHeadMem : (e.setRecord c i r).lockHeadMem = e.lockHeadMem := rfl
@[simp] theorem setRecord_freeHead : (e.setRecord c i r).freeHead = e.freeHead := rfl
@[simp] theorem setRecord_freeCount : (e.setRecord c i r).freeCount = e.freeCount := rfl
@[simp] theorem setRecord_curStep : (e.setRecord c i r).curStep = e.curStep := rfl
@[simp] theorem setRecord_countdown : (e.setRecord c i r).countdown = e.countdown := rfl
@[simp] theorem setRecord_playStep : (e.setRecord c i r).playStep = e.playStep := rfl
@[simp] theorem setRecord_playValid : (e.setRecord c i r).playValid = e.playValid := rfl
@[simp] theorem setRecord_playing : (e.setRecord c i r).playing = e.playing := rfl
@[simp] theorem setRecord_selVoice : (e.setRecord c i r).selVoice = e.selVoice := rfl
@[simp] theorem setRecord_mode : (e.setRecord c i r).mode = e.mode := rfl
@[simp] theorem setRecord_trigMem : (e.setRecord c i r).trigMem = e.trigMem := rfl
@[simp] theorem setRecord_gnoteMem : (e.setRecord c i r).gnoteMem = e.gnoteMem := rfl
@[simp] theorem setRecord_tempo : (e.setRecord c i r).tempo = e.tempo := rfl
@[simp] theorem setRecord_samplesPerStep : (e.setRecord c i r).samplesPerStep = e.samplesPerStep := rfl
@[simp] theorem setRecord_pendingNote : (e.setRecord c i r).pendingNote = e.pendingNote := rfl
@[simp] theorem setRecord_pendingNoteValue : (e.setRecord c i r).pendingNoteValue = e.pendingNoteValue := rfl
@[simp] theorem setRecord_diag : (e.setRecord c i r).diag = e.diag := rfl
@[simp] theorem setRecord_busy : (e.setRecord c i r).busy = e.busy := rfl
@[simp] theorem setRecord_frameIdx : (e.setRecord c i r).frameIdx = e.frameIdx := rfl
@[simp] theorem setRecord_audioMem : (e.setRecord c i r).audioMem = e.audioMem := rfl

end setRecord

section raiseDiag

variable (cause : BitVec 4) (e : Engine)

@[simp] theorem raiseDiag_x : (raiseDiag cause e).x = e.x := rfl
@[simp] theorem raiseDiag_parMem : (raiseDiag cause e).parMem = e.parMem := rfl
@[simp] theorem raiseDiag_curPattern : (raiseDiag cause e).curPattern = e.curPattern := rfl
@[simp] theorem raiseDiag_noteMem : (raiseDiag cause e).noteMem = e.noteMem := rfl
@[simp] theorem raiseDiag_keyMem : (raiseDiag cause e).keyMem = e.keyMem := rfl
@[simp] theorem raiseDiag_lengthMem : (raiseDiag cause e).lengthMem = e.lengthMem := rfl
@[simp] theorem raiseDiag_rateMem : (raiseDiag cause e).rateMem = e.rateMem := rfl
@[simp] theorem raiseDiag_noteCountMem : (raiseDiag cause e).noteCountMem = e.noteCountMem := rfl
@[simp] theorem raiseDiag_lockHeadMem : (raiseDiag cause e).lockHeadMem = e.lockHeadMem := rfl
@[simp] theorem raiseDiag_poolMem : (raiseDiag cause e).poolMem = e.poolMem := rfl
@[simp] theorem raiseDiag_freeHead : (raiseDiag cause e).freeHead = e.freeHead := rfl
@[simp] theorem raiseDiag_freeCount : (raiseDiag cause e).freeCount = e.freeCount := rfl
@[simp] theorem raiseDiag_curStep : (raiseDiag cause e).curStep = e.curStep := rfl
@[simp] theorem raiseDiag_countdown : (raiseDiag cause e).countdown = e.countdown := rfl
@[simp] theorem raiseDiag_playStep : (raiseDiag cause e).playStep = e.playStep := rfl
@[simp] theorem raiseDiag_playValid : (raiseDiag cause e).playValid = e.playValid := rfl
@[simp] theorem raiseDiag_playing : (raiseDiag cause e).playing = e.playing := rfl
@[simp] theorem raiseDiag_selVoice : (raiseDiag cause e).selVoice = e.selVoice := rfl
@[simp] theorem raiseDiag_mode : (raiseDiag cause e).mode = e.mode := rfl
@[simp] theorem raiseDiag_trigMem : (raiseDiag cause e).trigMem = e.trigMem := rfl
@[simp] theorem raiseDiag_gnoteMem : (raiseDiag cause e).gnoteMem = e.gnoteMem := rfl
@[simp] theorem raiseDiag_tempo : (raiseDiag cause e).tempo = e.tempo := rfl
@[simp] theorem raiseDiag_samplesPerStep : (raiseDiag cause e).samplesPerStep = e.samplesPerStep := rfl
@[simp] theorem raiseDiag_pendingNote : (raiseDiag cause e).pendingNote = e.pendingNote := rfl
@[simp] theorem raiseDiag_pendingNoteValue : (raiseDiag cause e).pendingNoteValue = e.pendingNoteValue := rfl
@[simp] theorem raiseDiag_busy : (raiseDiag cause e).busy = e.busy := rfl
@[simp] theorem raiseDiag_frameIdx : (raiseDiag cause e).frameIdx = e.frameIdx := rfl
@[simp] theorem raiseDiag_audioMem : (raiseDiag cause e).audioMem = e.audioMem := rfl

end raiseDiag

section release

variable (c : Config) (e : Engine) (i : PoolIx)

@[simp] theorem release_x : (release c e i).x = e.x := rfl
@[simp] theorem release_parMem : (release c e i).parMem = e.parMem := rfl
@[simp] theorem release_curPattern : (release c e i).curPattern = e.curPattern := rfl
@[simp] theorem release_noteMem : (release c e i).noteMem = e.noteMem := rfl
@[simp] theorem release_keyMem : (release c e i).keyMem = e.keyMem := rfl
@[simp] theorem release_lengthMem : (release c e i).lengthMem = e.lengthMem := rfl
@[simp] theorem release_rateMem : (release c e i).rateMem = e.rateMem := rfl
@[simp] theorem release_noteCountMem : (release c e i).noteCountMem = e.noteCountMem := rfl
@[simp] theorem release_lockHeadMem : (release c e i).lockHeadMem = e.lockHeadMem := rfl
@[simp] theorem release_curStep : (release c e i).curStep = e.curStep := rfl
@[simp] theorem release_countdown : (release c e i).countdown = e.countdown := rfl
@[simp] theorem release_playStep : (release c e i).playStep = e.playStep := rfl
@[simp] theorem release_playValid : (release c e i).playValid = e.playValid := rfl
@[simp] theorem release_playing : (release c e i).playing = e.playing := rfl
@[simp] theorem release_selVoice : (release c e i).selVoice = e.selVoice := rfl
@[simp] theorem release_mode : (release c e i).mode = e.mode := rfl
@[simp] theorem release_trigMem : (release c e i).trigMem = e.trigMem := rfl
@[simp] theorem release_gnoteMem : (release c e i).gnoteMem = e.gnoteMem := rfl
@[simp] theorem release_tempo : (release c e i).tempo = e.tempo := rfl
@[simp] theorem release_samplesPerStep : (release c e i).samplesPerStep = e.samplesPerStep := rfl
@[simp] theorem release_pendingNote : (release c e i).pendingNote = e.pendingNote := rfl
@[simp] theorem release_pendingNoteValue : (release c e i).pendingNoteValue = e.pendingNoteValue := rfl
@[simp] theorem release_diag : (release c e i).diag = e.diag := rfl
@[simp] theorem release_busy : (release c e i).busy = e.busy := rfl
@[simp] theorem release_frameIdx : (release c e i).frameIdx = e.frameIdx := rfl
@[simp] theorem release_audioMem : (release c e i).audioMem = e.audioMem := rfl

end release

section setNote

variable (e : Engine) (v : VoiceIx) (p : PatternIx) (st : StepIx) (nb : Byte)

@[simp] theorem setNote_x : (setNote e v p st nb).x = e.x := rfl
@[simp] theorem setNote_parMem : (setNote e v p st nb).parMem = e.parMem := rfl
@[simp] theorem setNote_curPattern : (setNote e v p st nb).curPattern = e.curPattern := rfl
@[simp] theorem setNote_keyMem : (setNote e v p st nb).keyMem = e.keyMem := rfl
@[simp] theorem setNote_lengthMem : (setNote e v p st nb).lengthMem = e.lengthMem := rfl
@[simp] theorem setNote_rateMem : (setNote e v p st nb).rateMem = e.rateMem := rfl
@[simp] theorem setNote_lockHeadMem : (setNote e v p st nb).lockHeadMem = e.lockHeadMem := rfl
@[simp] theorem setNote_poolMem : (setNote e v p st nb).poolMem = e.poolMem := rfl
@[simp] theorem setNote_freeHead : (setNote e v p st nb).freeHead = e.freeHead := rfl
@[simp] theorem setNote_freeCount : (setNote e v p st nb).freeCount = e.freeCount := rfl
@[simp] theorem setNote_curStep : (setNote e v p st nb).curStep = e.curStep := rfl
@[simp] theorem setNote_countdown : (setNote e v p st nb).countdown = e.countdown := rfl
@[simp] theorem setNote_playStep : (setNote e v p st nb).playStep = e.playStep := rfl
@[simp] theorem setNote_playValid : (setNote e v p st nb).playValid = e.playValid := rfl
@[simp] theorem setNote_playing : (setNote e v p st nb).playing = e.playing := rfl
@[simp] theorem setNote_selVoice : (setNote e v p st nb).selVoice = e.selVoice := rfl
@[simp] theorem setNote_mode : (setNote e v p st nb).mode = e.mode := rfl
@[simp] theorem setNote_trigMem : (setNote e v p st nb).trigMem = e.trigMem := rfl
@[simp] theorem setNote_gnoteMem : (setNote e v p st nb).gnoteMem = e.gnoteMem := rfl
@[simp] theorem setNote_tempo : (setNote e v p st nb).tempo = e.tempo := rfl
@[simp] theorem setNote_samplesPerStep : (setNote e v p st nb).samplesPerStep = e.samplesPerStep := rfl
@[simp] theorem setNote_pendingNote : (setNote e v p st nb).pendingNote = e.pendingNote := rfl
@[simp] theorem setNote_pendingNoteValue : (setNote e v p st nb).pendingNoteValue = e.pendingNoteValue := rfl
@[simp] theorem setNote_diag : (setNote e v p st nb).diag = e.diag := rfl
@[simp] theorem setNote_busy : (setNote e v p st nb).busy = e.busy := rfl
@[simp] theorem setNote_frameIdx : (setNote e v p st nb).frameIdx = e.frameIdx := rfl
@[simp] theorem setNote_audioMem : (setNote e v p st nb).audioMem = e.audioMem := rfl

end setNote

section setPitch

variable (c : Config) (v : VoiceIx) (note : Byte) (e : Engine)

@[simp] theorem setPitch_parMem : (setPitch c v note e).parMem = e.parMem := rfl
@[simp] theorem setPitch_curPattern : (setPitch c v note e).curPattern = e.curPattern := rfl
@[simp] theorem setPitch_noteMem : (setPitch c v note e).noteMem = e.noteMem := rfl
@[simp] theorem setPitch_keyMem : (setPitch c v note e).keyMem = e.keyMem := rfl
@[simp] theorem setPitch_lengthMem : (setPitch c v note e).lengthMem = e.lengthMem := rfl
@[simp] theorem setPitch_rateMem : (setPitch c v note e).rateMem = e.rateMem := rfl
@[simp] theorem setPitch_noteCountMem : (setPitch c v note e).noteCountMem = e.noteCountMem := rfl
@[simp] theorem setPitch_lockHeadMem : (setPitch c v note e).lockHeadMem = e.lockHeadMem := rfl
@[simp] theorem setPitch_poolMem : (setPitch c v note e).poolMem = e.poolMem := rfl
@[simp] theorem setPitch_freeHead : (setPitch c v note e).freeHead = e.freeHead := rfl
@[simp] theorem setPitch_freeCount : (setPitch c v note e).freeCount = e.freeCount := rfl
@[simp] theorem setPitch_curStep : (setPitch c v note e).curStep = e.curStep := rfl
@[simp] theorem setPitch_countdown : (setPitch c v note e).countdown = e.countdown := rfl
@[simp] theorem setPitch_playStep : (setPitch c v note e).playStep = e.playStep := rfl
@[simp] theorem setPitch_playValid : (setPitch c v note e).playValid = e.playValid := rfl
@[simp] theorem setPitch_playing : (setPitch c v note e).playing = e.playing := rfl
@[simp] theorem setPitch_selVoice : (setPitch c v note e).selVoice = e.selVoice := rfl
@[simp] theorem setPitch_mode : (setPitch c v note e).mode = e.mode := rfl
@[simp] theorem setPitch_trigMem : (setPitch c v note e).trigMem = e.trigMem := rfl
@[simp] theorem setPitch_gnoteMem : (setPitch c v note e).gnoteMem = e.gnoteMem := rfl
@[simp] theorem setPitch_tempo : (setPitch c v note e).tempo = e.tempo := rfl
@[simp] theorem setPitch_samplesPerStep : (setPitch c v note e).samplesPerStep = e.samplesPerStep := rfl
@[simp] theorem setPitch_pendingNote : (setPitch c v note e).pendingNote = e.pendingNote := rfl
@[simp] theorem setPitch_pendingNoteValue : (setPitch c v note e).pendingNoteValue = e.pendingNoteValue := rfl
@[simp] theorem setPitch_diag : (setPitch c v note e).diag = e.diag := rfl
@[simp] theorem setPitch_busy : (setPitch c v note e).busy = e.busy := rfl
@[simp] theorem setPitch_frameIdx : (setPitch c v note e).frameIdx = e.frameIdx := rfl
@[simp] theorem setPitch_audioMem : (setPitch c v note e).audioMem = e.audioMem := rfl

end setPitch

section raiseCycleIf

variable (fault : Bool) (e : Engine)

@[simp] theorem raiseCycleIf_x : (raiseCycleIf fault e).x = e.x := by cases fault <;> rfl
@[simp] theorem raiseCycleIf_parMem : (raiseCycleIf fault e).parMem = e.parMem := by cases fault <;> rfl
@[simp] theorem raiseCycleIf_curPattern : (raiseCycleIf fault e).curPattern = e.curPattern := by cases fault <;> rfl
@[simp] theorem raiseCycleIf_noteMem : (raiseCycleIf fault e).noteMem = e.noteMem := by cases fault <;> rfl
@[simp] theorem raiseCycleIf_keyMem : (raiseCycleIf fault e).keyMem = e.keyMem := by cases fault <;> rfl
@[simp] theorem raiseCycleIf_lengthMem : (raiseCycleIf fault e).lengthMem = e.lengthMem := by cases fault <;> rfl
@[simp] theorem raiseCycleIf_rateMem : (raiseCycleIf fault e).rateMem = e.rateMem := by cases fault <;> rfl
@[simp] theorem raiseCycleIf_noteCountMem : (raiseCycleIf fault e).noteCountMem = e.noteCountMem := by cases fault <;> rfl
@[simp] theorem raiseCycleIf_lockHeadMem : (raiseCycleIf fault e).lockHeadMem = e.lockHeadMem := by cases fault <;> rfl
@[simp] theorem raiseCycleIf_poolMem : (raiseCycleIf fault e).poolMem = e.poolMem := by cases fault <;> rfl
@[simp] theorem raiseCycleIf_freeHead : (raiseCycleIf fault e).freeHead = e.freeHead := by cases fault <;> rfl
@[simp] theorem raiseCycleIf_freeCount : (raiseCycleIf fault e).freeCount = e.freeCount := by cases fault <;> rfl
@[simp] theorem raiseCycleIf_curStep : (raiseCycleIf fault e).curStep = e.curStep := by cases fault <;> rfl
@[simp] theorem raiseCycleIf_countdown : (raiseCycleIf fault e).countdown = e.countdown := by cases fault <;> rfl
@[simp] theorem raiseCycleIf_playStep : (raiseCycleIf fault e).playStep = e.playStep := by cases fault <;> rfl
@[simp] theorem raiseCycleIf_playValid : (raiseCycleIf fault e).playValid = e.playValid := by cases fault <;> rfl
@[simp] theorem raiseCycleIf_playing : (raiseCycleIf fault e).playing = e.playing := by cases fault <;> rfl
@[simp] theorem raiseCycleIf_selVoice : (raiseCycleIf fault e).selVoice = e.selVoice := by cases fault <;> rfl
@[simp] theorem raiseCycleIf_mode : (raiseCycleIf fault e).mode = e.mode := by cases fault <;> rfl
@[simp] theorem raiseCycleIf_trigMem : (raiseCycleIf fault e).trigMem = e.trigMem := by cases fault <;> rfl
@[simp] theorem raiseCycleIf_gnoteMem : (raiseCycleIf fault e).gnoteMem = e.gnoteMem := by cases fault <;> rfl
@[simp] theorem raiseCycleIf_tempo : (raiseCycleIf fault e).tempo = e.tempo := by cases fault <;> rfl
@[simp] theorem raiseCycleIf_samplesPerStep : (raiseCycleIf fault e).samplesPerStep = e.samplesPerStep := by cases fault <;> rfl
@[simp] theorem raiseCycleIf_pendingNote : (raiseCycleIf fault e).pendingNote = e.pendingNote := by cases fault <;> rfl
@[simp] theorem raiseCycleIf_pendingNoteValue : (raiseCycleIf fault e).pendingNoteValue = e.pendingNoteValue := by cases fault <;> rfl
@[simp] theorem raiseCycleIf_busy : (raiseCycleIf fault e).busy = e.busy := by cases fault <;> rfl
@[simp] theorem raiseCycleIf_frameIdx : (raiseCycleIf fault e).frameIdx = e.frameIdx := by cases fault <;> rfl
@[simp] theorem raiseCycleIf_audioMem : (raiseCycleIf fault e).audioMem = e.audioMem := by cases fault <;> rfl

end raiseCycleIf

section withHw

variable (s : State) (e : Engine)

@[simp] theorem withHw_hw : (s.withHw e).hw = e := rfl
@[simp] theorem withHw_cfg : (s.withHw e).cfg = s.cfg := rfl
@[simp] theorem withHw_inputs : (s.withHw e).inputs = s.inputs := rfl
@[simp] theorem withHw_response : (s.withHw e).response = s.response := rfl

end withHw

end Sys2Proof.Laws
end

