-- ==== Sys2Proof/Laws/Ops.lean ====
section
/-!
SUPPORT. What each shared operation of Machine/Ops.lean does, said once: places of distinct elements are distinct; reading
an element after writing one; raising a diagnostic; the pool's primitives; `setNote`.
-/

namespace Sys2Proof.Laws

open Sys2Proof.Machine

/-! Places. -/

theorem parIx_inj {v v' : VoiceIx} {id id' : ParamId} (h : parIx v id = parIx v' id') : v = v' ∧ id = id' := by
  simp only [parIx] at h
  exact ⟨by bv_omega, by bv_omega⟩

theorem patIx_inj {v v' : VoiceIx} {p p' : PatternIx} (h : patIx v p = patIx v' p') : v = v' ∧ p = p' := by
  simp only [patIx] at h
  exact ⟨by bv_omega, by bv_omega⟩

theorem slotIx_inj {v v' : VoiceIx} {p p' : PatternIx} {st st' : StepIx} (h : slotIx v p st = slotIx v' p' st') :
    v = v' ∧ p = p' ∧ st = st' := by
  simp only [slotIx, patIx] at h
  exact ⟨by bv_omega, by bv_omega, by bv_omega⟩

theorem gridIx_inj {v v' : VoiceIx} {g g' : GridIx} (h : gridIx v g = gridIx v' g') : v = v' ∧ g = g' := by
  simp only [gridIx] at h
  exact ⟨by bv_omega, by bv_omega⟩

theorem audioIx_inj {n n' : Nat} {r r' : Bool} (h : audioIx n r = audioIx n' r') : n = n' ∧ r = r' := by
  cases r <;> cases r' <;> simp only [audioIx, Bool.false_eq_true, if_false, if_true] at h <;>
    exact ⟨by omega, by first | rfl | omega⟩

theorem parIx_lt (v : VoiceIx) (id : ParamId) : parIx v id < 512 := by
  simp only [parIx]
  omega

theorem patIx_lt (v : VoiceIx) (p : PatternIx) : patIx v p < 256 := by
  simp only [patIx]
  omega

theorem slotIx_lt (v : VoiceIx) (p : PatternIx) (st : StepIx) : slotIx v p st < 16384 := by
  simp only [slotIx, patIx]
  omega

theorem gridIx_lt (v : VoiceIx) (g : GridIx) : gridIx v g < 256 := by
  simp only [gridIx]
  omega

/-! Reading an element after writing one. -/

section accessors

variable (e : Engine) (c : Config)

theorem voice_setVoice (v v' : VoiceIx) (r : Instrument) :
    (e.setVoice v r).voice v' = if v' = v then r else e.voice v' := by
  simp only [Engine.voice, Engine.setVoice]
  by_cases h : v' = v
  · simp [h]
  · rw [if_neg h]
    exact Vector.getElem_set_ne _ _ fun hv => h (BitVec.eq_of_toNat_eq hv.symm)

@[simp] theorem voice_setVoice_same (v : VoiceIx) (r : Instrument) : (e.setVoice v r).voice v = r := by
  rw [voice_setVoice, if_pos rfl]

theorem setVoice_setVoice (v : VoiceIx) (r r' : Instrument) : (e.setVoice v r).setVoice v r' = e.setVoice v r' := by
  simp [Engine.setVoice]

@[simp] theorem setVoice_voice (v : VoiceIx) : e.setVoice v (e.voice v) = e := by
  simp [Engine.setVoice, Engine.voice]

theorem curPat_setCurPat (v v' : VoiceIx) (p : PatternIx) :
    (e.setCurPat v p).curPat v' = if v' = v then p else e.curPat v' := by
  simp only [Engine.curPat, Engine.setCurPat]
  by_cases h : v' = v
  · simp [h]
  · rw [if_neg h]
    exact Vector.getElem_set_ne _ _ fun hv => h (BitVec.eq_of_toNat_eq hv.symm)

theorem par_setPar (v v' : VoiceIx) (id id' : ParamId) (b : Byte) :
    (e.setPar v id b).par v' id' = if v' = v ∧ id' = id then b else e.par v' id' := by
  simp only [Engine.par, Engine.setPar, read_write]
  congr 1
  exact propext ⟨parIx_inj, fun h => by rw [h.1, h.2]⟩

theorem note_setNoteByte (v v' : VoiceIx) (p p' : PatternIx) (st st' : StepIx) (b : Byte) :
    (e.setNoteByte v p st b).note v' p' st' = if v' = v ∧ p' = p ∧ st' = st then b else e.note v' p' st' := by
  simp only [Engine.note, Engine.setNoteByte, read_write]
  congr 1
  exact propext ⟨slotIx_inj, fun h => by rw [h.1, h.2.1, h.2.2]⟩

theorem key_setKey (v v' : VoiceIx) (p p' : PatternIx) (st st' : StepIx) (b : Byte) :
    (e.setKey v p st b).key v' p' st' = if v' = v ∧ p' = p ∧ st' = st then b else e.key v' p' st' := by
  simp only [Engine.key, Engine.setKey, read_write]
  congr 1
  exact propext ⟨slotIx_inj, fun h => by rw [h.1, h.2.1, h.2.2]⟩

theorem length_setLength (v v' : VoiceIx) (p p' : PatternIx) (n : BitVec 7) :
    (e.setLength v p n).length v' p' = if v' = v ∧ p' = p then n else e.length v' p' := by
  simp only [Engine.length, Engine.setLength, read_write]
  congr 1
  exact propext ⟨patIx_inj, fun h => by rw [h.1, h.2]⟩

theorem rate_setRate (v v' : VoiceIx) (p p' : PatternIx) (b : Byte) :
    (e.setRate v p b).rate v' p' = if v' = v ∧ p' = p then b else e.rate v' p' := by
  simp only [Engine.rate, Engine.setRate, read_write]
  congr 1
  exact propext ⟨patIx_inj, fun h => by rw [h.1, h.2]⟩

theorem noteCount_setNoteCount (v v' : VoiceIx) (p p' : PatternIx) (n : BitVec 7) :
    (e.setNoteCount v p n).noteCount v' p' = if v' = v ∧ p' = p then n else e.noteCount v' p' := by
  simp only [Engine.noteCount, Engine.setNoteCount, read_write]
  congr 1
  exact propext ⟨patIx_inj, fun h => by rw [h.1, h.2]⟩

theorem lockHead_setLockHead (v v' : VoiceIx) (p p' : PatternIx) (i : PoolIx) :
    (e.setLockHead v p i).lockHead v' p' = if v' = v ∧ p' = p then i else e.lockHead v' p' := by
  simp only [Engine.lockHead, Engine.setLockHead, read_write]
  congr 1
  exact propext ⟨patIx_inj, fun h => by rw [h.1, h.2]⟩

theorem record_setRecord (i j : PoolIx) (r : LockRecord) :
    (e.setRecord c i r).record c j = if j = i then r else e.record c j := by
  simp only [Engine.record, Engine.setRecord, read_write]
  congr 1
  exact propext ⟨BitVec.eq_of_toNat_eq, fun h => by rw [h]⟩

theorem trig_setTrig (v v' : VoiceIx) (g g' : GridIx) (b : Bool) :
    (e.setTrig v g b).trig v' g' = if v' = v ∧ g' = g then b else e.trig v' g' := by
  simp only [Engine.trig, Engine.setTrig, read_write]
  congr 1
  exact propext ⟨gridIx_inj, fun h => by rw [h.1, h.2]⟩

theorem gnote_setGnote (v v' : VoiceIx) (g g' : GridIx) (b : Byte) :
    (e.setGnote v g b).gnote v' g' = if v' = v ∧ g' = g then b else e.gnote v' g' := by
  simp only [Engine.gnote, Engine.setGnote, read_write]
  congr 1
  exact propext ⟨gridIx_inj, fun h => by rw [h.1, h.2]⟩

theorem audio_setAudio (n n' : Nat) (r r' : Bool) (y : Sample) :
    (e.setAudio n r y).audio n' r' = if n' = n ∧ r' = r then y else e.audio n' r' := by
  simp only [Engine.audio, Engine.setAudio, read_write]
  congr 1
  exact propext ⟨audioIx_inj, fun h => by rw [h.1, h.2]⟩

end accessors

/-! Diagnostics and responses. -/

/-- Raising a diagnostic writes `DIAG` alone. -/
theorem raiseDiag_eq (cause : BitVec 4) (e : Engine) : raiseDiag cause e = { e with diag := e.diag ||| cause } := rfl

/-- A walk's fault flag writes `DIAG` alone. -/
theorem raiseCycleIf_eq (fault : Bool) (e : Engine) :
    raiseCycleIf fault e = { e with diag := if fault then e.diag ||| diagListCycle else e.diag } := by
  cases fault <;> rfl

/-- A response is a next state that differs in the hardware state and the last response alone. -/
theorem respond_eq (s : State) (e : Engine) (st : Status) (d : Word) :
    respond s e st d = .next { s with hw := e, response := some ⟨statusCode st, d⟩ } := rfl

/-- Every status code is one of the five that the spec assigns. -/
theorem statusCode_lt (st : Status) : (statusCode st).toNat < 5 := by cases st <;> decide

/-- Two statuses have two codes. -/
theorem statusCode_inj {st st' : Status} (h : statusCode st = statusCode st') : st = st' := by
  revert h; cases st <;> cases st' <;> decide

/-! The pool's primitives. -/

/-- All that `allocate` can answer. -/
theorem allocate_cases (c : Config) (e : Engine) :
    (e.freeHead = sentinel ∧ allocate c e = .ok none)
    ∨ (e.freeHead ≠ sentinel ∧ poolIxInRange c e.freeHead = true
        ∧ allocate c e = .ok (some (e.freeHead,
            { e with freeHead := (e.record c e.freeHead).next, freeCount := e.freeCount - 1#16 })))
    ∨ (e.freeHead ≠ sentinel ∧ poolIxInRange c e.freeHead = false
        ∧ allocate c e = .error .poolIndexOutOfRange) := by
  by_cases h : e.freeHead = sentinel
  · exact .inl ⟨h, by rw [allocate, if_pos h]⟩
  · by_cases hr : poolIxInRange c e.freeHead = true
    · exact .inr (.inl ⟨h, hr, by rw [allocate, if_neg h, if_pos hr]⟩)
    · exact .inr (.inr ⟨h, by simpa using hr, by rw [allocate, if_neg h, if_neg hr]⟩)

/-- What a record holds after a release: the released one only its new `next`. -/
theorem record_release (c : Config) (e : Engine) (i j : PoolIx) :
    (release c e i).record c j
      = if j = i then { e.record c i with next := e.freeHead } else e.record c j := by
  exact record_setRecord e c i j _

/-- `release` writes the released record, `freeHead` and `freeCount` alone. -/
theorem release_eq (c : Config) (e : Engine) (i : PoolIx) :
    release c e i = { e with poolMem := (release c e i).poolMem, freeHead := i, freeCount := e.freeCount + 1#16 } := rfl

/-- The note byte after `setNote`. -/
theorem note_setNote (e : Engine) (v v' : VoiceIx) (p p' : PatternIx) (st st' : StepIx) (b : Byte) :
    (setNote e v p st b).note v' p' st' = if v' = v ∧ p' = p ∧ st' = st then b else e.note v' p' st' :=
  note_setNoteByte e v v' p p' st st' b

/-- The note count after `setNote`. -/
theorem noteCount_setNote (e : Engine) (v v' : VoiceIx) (p p' : PatternIx) (st : StepIx) (b : Byte) :
    (setNote e v p st b).noteCount v' p'
      = if v' = v ∧ p' = p then
          e.noteCount v p + (b.extractLsb' 7 1).setWidth 7 - ((e.note v p st).extractLsb' 7 1).setWidth 7
        else e.noteCount v' p' :=
  noteCount_setNoteCount (e.setNoteByte v p st b) v v' p p' _

/-- `setNote` writes the notes and the note counts alone. -/
theorem setNote_eq (e : Engine) (v : VoiceIx) (p : PatternIx) (st : StepIx) (b : Byte) :
    setNote e v p st b
      = { e with noteMem := (setNote e v p st b).noteMem, noteCountMem := (setNote e v p st b).noteCountMem } := rfl

end Sys2Proof.Laws
end

