-- ==== Sys2Proof/Laws/Canonical.lean ====
section
/-!
SUPPORT. Every memory operation keeps the canonical form of the memory spaces (log 9), and the reset state has it
(`reset_canonical` of Laws/Reset.lean).
-/

namespace Sys2Proof.Laws

open Sys2Proof.Machine

/-- The canonical form, space by space. -/
theorem canonical_iff (c : Config) (e : Engine) :
    memoryCanonical c e = true ↔
      Memory.wf parReset 512 e.parMem = true ∧ Memory.wf byteReset 16384 e.noteMem = true
      ∧ Memory.wf byteReset 16384 e.keyMem = true ∧ Memory.wf lengthReset 256 e.lengthMem = true
      ∧ Memory.wf byteReset 256 e.rateMem = true ∧ Memory.wf noteCountReset 256 e.noteCountMem = true
      ∧ Memory.wf lockHeadReset 256 e.lockHeadMem = true ∧ Memory.wf (recordReset c) c.poolC e.poolMem = true
      ∧ Memory.wf trigReset 256 e.trigMem = true ∧ Memory.wf byteReset 256 e.gnoteMem = true
      ∧ Memory.wf audioReset 256 e.audioMem = true := by
  simp only [memoryCanonical, Bool.and_eq_true, and_assoc]

/-- The canonical form depends on the memory spaces alone. -/
theorem canonical_congr {c : Config} {e e' : Engine}
    (h : e' = { e' with
      parMem := e.parMem, noteMem := e.noteMem, keyMem := e.keyMem, lengthMem := e.lengthMem, rateMem := e.rateMem,
      noteCountMem := e.noteCountMem, lockHeadMem := e.lockHeadMem, poolMem := e.poolMem, trigMem := e.trigMem,
      gnoteMem := e.gnoteMem, audioMem := e.audioMem }) : memoryCanonical c e' = memoryCanonical c e := by
  rw [h]
  rfl

variable {c : Config} {e : Engine}

theorem canonical_setPar (h : memoryCanonical c e = true) (v : VoiceIx) (id : ParamId) (b : Byte) :
    memoryCanonical c (e.setPar v id b) = true := by
  rw [canonical_iff] at h ⊢
  exact ⟨wf_write h.1 b (parIx_lt v id), h.2⟩

theorem canonical_setNoteByte (h : memoryCanonical c e = true) (v : VoiceIx) (p : PatternIx) (st : StepIx) (b : Byte) :
    memoryCanonical c (e.setNoteByte v p st b) = true := by
  rw [canonical_iff] at h ⊢
  exact ⟨h.1, wf_write h.2.1 b (slotIx_lt v p st), h.2.2⟩

theorem canonical_setKey (h : memoryCanonical c e = true) (v : VoiceIx) (p : PatternIx) (st : StepIx) (b : Byte) :
    memoryCanonical c (e.setKey v p st b) = true := by
  rw [canonical_iff] at h ⊢
  exact ⟨h.1, h.2.1, wf_write h.2.2.1 b (slotIx_lt v p st), h.2.2.2⟩

theorem canonical_setLength (h : memoryCanonical c e = true) (v : VoiceIx) (p : PatternIx) (n : BitVec 7) :
    memoryCanonical c (e.setLength v p n) = true := by
  rw [canonical_iff] at h ⊢
  exact ⟨h.1, h.2.1, h.2.2.1, wf_write h.2.2.2.1 n (patIx_lt v p), h.2.2.2.2⟩

theorem canonical_setRate (h : memoryCanonical c e = true) (v : VoiceIx) (p : PatternIx) (b : Byte) :
    memoryCanonical c (e.setRate v p b) = true := by
  rw [canonical_iff] at h ⊢
  exact ⟨h.1, h.2.1, h.2.2.1, h.2.2.2.1, wf_write h.2.2.2.2.1 b (patIx_lt v p), h.2.2.2.2.2⟩

theorem canonical_setNoteCount (h : memoryCanonical c e = true) (v : VoiceIx) (p : PatternIx) (n : BitVec 7) :
    memoryCanonical c (e.setNoteCount v p n) = true := by
  rw [canonical_iff] at h ⊢
  exact ⟨h.1, h.2.1, h.2.2.1, h.2.2.2.1, h.2.2.2.2.1, wf_write h.2.2.2.2.2.1 n (patIx_lt v p), h.2.2.2.2.2.2⟩

theorem canonical_setLockHead (h : memoryCanonical c e = true) (v : VoiceIx) (p : PatternIx) (i : PoolIx) :
    memoryCanonical c (e.setLockHead v p i) = true := by
  rw [canonical_iff] at h ⊢
  obtain ⟨h1, h2, h3, h4, h5, h6, h7, h8⟩ := h
  exact ⟨h1, h2, h3, h4, h5, h6, wf_write h7 i (patIx_lt v p), h8⟩

theorem canonical_setRecord (h : memoryCanonical c e = true) {i : PoolIx} (hi : poolIxInRange c i = true)
    (r : LockRecord) : memoryCanonical c (e.setRecord c i r) = true := by
  rw [canonical_iff] at h ⊢
  obtain ⟨h1, h2, h3, h4, h5, h6, h7, h8, h9⟩ := h
  exact ⟨h1, h2, h3, h4, h5, h6, h7, wf_write h8 r (by simpa [poolIxInRange] using hi), h9⟩

theorem canonical_setTrig (h : memoryCanonical c e = true) (v : VoiceIx) (g : GridIx) (b : Bool) :
    memoryCanonical c (e.setTrig v g b) = true := by
  rw [canonical_iff] at h ⊢
  obtain ⟨h1, h2, h3, h4, h5, h6, h7, h8, h9, h10⟩ := h
  exact ⟨h1, h2, h3, h4, h5, h6, h7, h8, wf_write h9 b (gridIx_lt v g), h10⟩

theorem canonical_setGnote (h : memoryCanonical c e = true) (v : VoiceIx) (g : GridIx) (b : Byte) :
    memoryCanonical c (e.setGnote v g b) = true := by
  rw [canonical_iff] at h ⊢
  obtain ⟨h1, h2, h3, h4, h5, h6, h7, h8, h9, h10, h11⟩ := h
  exact ⟨h1, h2, h3, h4, h5, h6, h7, h8, h9, wf_write h10 b (gridIx_lt v g), h11⟩

theorem canonical_setAudio (h : memoryCanonical c e = true) {n : Nat} (hn : n < blockN) (right : Bool) (y : Sample) :
    memoryCanonical c (e.setAudio n right y) = true := by
  rw [canonical_iff] at h ⊢
  obtain ⟨h1, h2, h3, h4, h5, h6, h7, h8, h9, h10, h11⟩ := h
  refine ⟨h1, h2, h3, h4, h5, h6, h7, h8, h9, h10, wf_write h11 y ?_⟩
  simp only [blockN] at hn
  simp only [audioIx]
  split <;> omega

theorem canonical_setNote (h : memoryCanonical c e = true) (v : VoiceIx) (p : PatternIx) (st : StepIx) (b : Byte) :
    memoryCanonical c (setNote e v p st b) = true :=
  canonical_setNoteCount (canonical_setNoteByte h v p st b) v p _

theorem canonical_release (h : memoryCanonical c e = true) {i : PoolIx} (hi : poolIxInRange c i = true) :
    memoryCanonical c (release c e i) = true :=
  canonical_setRecord h hi _

end Sys2Proof.Laws
end

