-- ==== Sys2Proof/Laws/Lists.lean ====
section
/-!
SUPPORT. Lock lists: a list that reaches the sentinel is unique, has no repeats and at most `POOL_C` records; writing a
record off the list leaves it alone; the walks that only read (`findLockFrom`, `hasLockFrom`).
-/

namespace Sys2Proof.Laws

open Sys2Proof.Machine

variable {c : Config} {e e' : Engine}

@[simp] theorem path_nil {head stop : PoolIx} : LockPath c e head [] stop ↔ head = stop := Iff.rfl

@[simp] theorem path_cons {head stop i : PoolIx} {l : List PoolIx} :
    LockPath c e head (i :: l) stop ↔
      head = i ∧ i ≠ sentinel ∧ poolIxInRange c i = true ∧ LockPath c e (e.record c i).next l stop := Iff.rfl

/-- A path depends on the `next` fields of its records alone. -/
theorem path_congr {head stop : PoolIx} {l : List PoolIx}
    (h : ∀ i ∈ l, (e'.record c i).next = (e.record c i).next) :
    LockPath c e' head l stop ↔ LockPath c e head l stop := by
  induction l generalizing head with
  | nil => rfl
  | cons i l ih =>
    rw [path_cons, path_cons, h i (by simp), ih fun j hj => h j (by simp [hj])]

theorem path_append {head stop : PoolIx} {a b : List PoolIx} :
    LockPath c e head (a ++ b) stop ↔ ∃ mid, LockPath c e head a mid ∧ LockPath c e mid b stop := by
  induction a generalizing head with
  | nil => simp
  | cons i a ih =>
    simp only [List.cons_append, path_cons, ih]
    constructor
    · rintro ⟨h1, h2, h3, mid, h4, h5⟩
      exact ⟨mid, ⟨h1, h2, h3, h4⟩, h5⟩
    · rintro ⟨mid, ⟨h1, h2, h3, h4⟩, h5⟩
      exact ⟨h1, h2, h3, mid, h4, h5⟩

theorem path_mem {head stop i : PoolIx} {l : List PoolIx} (h : LockPath c e head l stop) (hi : i ∈ l) :
    i ≠ sentinel ∧ poolIxInRange c i = true := by
  induction l generalizing head with
  | nil => simp at hi
  | cons j l ih =>
    rw [path_cons] at h
    rcases List.mem_cons.1 hi with rfl | hi
    · exact ⟨h.2.1, h.2.2.1⟩
    · exact ih h.2.2.2 hi

/-- Only one list starts at a head. -/
theorem list_unique {head : PoolIx} {l l' : List PoolIx} (h : IsList c e head l) (h' : IsList c e head l') :
    l = l' := by
  induction l generalizing head l' with
  | nil =>
    cases l' with
    | nil => rfl
    | cons i l' =>
      have h0 : head = sentinel := h
      exact absurd (h'.1.symm.trans h0) h'.2.1
  | cons i l ih =>
    cases l' with
    | nil =>
      have h0 : head = sentinel := h'
      exact absurd (h.1.symm.trans h0) h.2.1
    | cons j l' =>
      have hij : i = j := h.1.symm.trans h'.1
      subst hij
      rw [ih h.2.2.2 h'.2.2.2]

/-- A list that reaches the sentinel visits no record twice. -/
theorem list_nodup {head : PoolIx} {l : List PoolIx} (h : IsList c e head l) : l.Nodup := by
  induction l generalizing head with
  | nil => exact List.nodup_nil
  | cons i l ih =>
    refine List.nodup_cons.2 ⟨fun hi => ?_, ih h.2.2.2⟩
    obtain ⟨a, b, hab⟩ := List.append_of_mem hi
    have h2 := h.2.2.2
    rw [hab] at h2
    obtain ⟨mid, _, h3⟩ := path_append.1 h2
    have h4 : IsList c e i (i :: b) := ⟨rfl, h3.2⟩
    have h5 : IsList c e i (i :: l) := ⟨rfl, h.2⟩
    have := congrArg List.length (list_unique h4 h5)
    rw [hab] at this
    simp at this
    omega

/-- Indices in range without repeats are at most `POOL_C`. -/
theorem length_le_poolC {l : List PoolIx} (hn : l.Nodup) (h : ∀ i ∈ l, poolIxInRange c i = true) :
    l.length ≤ c.poolC := by
  have hsub : l.map BitVec.toNat ⊆ List.range c.poolC := by
    intro x hx
    obtain ⟨i, hi, rfl⟩ := List.mem_map.1 hx
    simpa [poolIxInRange] using h i hi
  have hnd : (l.map BitVec.toNat).Nodup := hn.map fun a b hab => BitVec.eq_of_toNat_eq hab
  simpa using (List.subperm_of_subset hnd hsub).length_le

theorem list_length_le {head : PoolIx} {l : List PoolIx} (h : IsList c e head l) : l.length ≤ c.poolC :=
  length_le_poolC (list_nodup h) fun _ hi => (path_mem h hi).2

/-- No record of a list that reaches the sentinel is its own successor. -/
theorem list_next_ne {i : PoolIx} {l : List PoolIx} (h : IsList c e i (i :: l)) : (e.record c i).next ≠ i := by
  intro hi
  have h2 : IsList c e i l := by
    have := h.2.2.2
    rw [hi] at this
    exact this
  have := congrArg List.length (list_unique h2 h)
  simp at this

/-! Walks that only read. -/

/-- A search of a list finds the first record that matches, and no guard fires. -/
theorem findLockFrom_list {st id : Byte} {n : Nat} {cur : PoolIx} {l : List PoolIx} (h : IsList c e cur l)
    (hn : l.length ≤ n) :
    findLockFrom c e st id n cur
      = (l.find? fun i => (e.record c i).step == st && (e.record c i).param == id, false) := by
  induction l generalizing n cur with
  | nil =>
    have h0 : cur = sentinel := h
    cases n <;> simp [findLockFrom, h0]
  | cons i l ih =>
    obtain ⟨n, rfl⟩ : ∃ m, n = m + 1 := ⟨n - 1, by simp at hn; omega⟩
    have hc : cur = i := h.1
    subst hc
    have hne := list_next_ne h
    simp only [findLockFrom, if_neg h.2.1, if_pos h.2.2.1, if_neg hne, List.find?_cons]
    rw [ih h.2.2.2 (by simp at hn; omega)]
    have hb : ((e.record c cur).step == st && (e.record c cur).param == id)
        = decide ((e.record c cur).step = st ∧ (e.record c cur).param = id) := by
      rw [Bool.decide_and, beq_eq_decide, beq_eq_decide]
    rw [hb]
    by_cases hm : (e.record c cur).step = st ∧ (e.record c cur).param = id
    · rw [if_pos hm, decide_eq_true hm]
    · rw [if_neg hm, decide_eq_false hm]

/-- A search of a corrupt chain in which no record matches ends with a guard. -/
theorem findLockFrom_corrupt {st id : Byte} {n : Nat} {cur stop : PoolIx} {l : List PoolIx}
    (h : LockPath c e cur l stop) (hs : stop ≠ sentinel)
    (hc : poolIxInRange c stop = false ∨ l.getLast? = some stop ∨ n ≤ l.length)
    (hm : holdsKey c e l st id = false) : findLockFrom c e st id n cur = (none, true) := by
  induction l generalizing n cur with
  | nil =>
    have h0 : cur = stop := h
    cases n with
    | zero => simp [findLockFrom, h0, hs]
    | succ n =>
      have hr : poolIxInRange c stop = false := by simpa using hc
      simp [findLockFrom, h0, hs, hr]
  | cons i l ih =>
    have hci : cur = i := h.1
    subst hci
    cases n with
    | zero => simp [findLockFrom, h.2.1]
    | succ n =>
      have hm' : ¬((e.record c cur).step = st ∧ (e.record c cur).param = id) ∧ holdsKey c e l st id = false := by
        simp only [holdsKey, List.any_cons, Bool.or_eq_false_iff] at hm ⊢
        exact ⟨by simpa using hm.1, hm.2⟩
      simp only [findLockFrom, if_neg h.2.1, if_pos h.2.2.1, if_neg hm'.1]
      split
      · rfl
      · rename_i hne
        refine ih h.2.2.2 ?_ hm'.2
        cases l with
        | nil =>
          rcases hc with hc | hc | hc
          · exact .inl hc
          · have h3 : (e.record c cur).next = stop := h.2.2.2
            simp only [List.getLast?_singleton, Option.some.injEq] at hc
            exact absurd (h3.trans hc.symm) hne
          · exact .inr (.inr (by simp at hc; omega))
        | cons j l =>
          rcases hc with hc | hc | hc
          · exact .inl hc
          · exact .inr (.inl (by simpa [List.getLast?_cons_cons] using hc))
          · exact .inr (.inr (by simp at hc ⊢; omega))

/-- What `findLock` answers on a list. -/
theorem findLock_list {v : VoiceIx} {p : PatternIx} {st id : Byte} {l : List PoolIx}
    (h : IsList c e (e.lockHead v p) l) :
    findLock c e v p st id
      = (l.find? fun i => (e.record c i).step == st && (e.record c i).param == id, false) :=
  findLockFrom_list h (list_length_le h)

/-- What `findLock` answers on a corrupt chain in which no record matches. -/
theorem findLock_corrupt {v : VoiceIx} {p : PatternIx} {st id : Byte} {l : List PoolIx}
    (h : CorruptAfter c e (e.lockHead v p) l) (hm : holdsKey c e l st id = false) :
    findLock c e v p st id = (none, true) := by
  obtain ⟨stop, hp, hs, hc⟩ := h
  exact findLockFrom_corrupt hp hs (hc.imp_right fun h => h.imp_right fun h => h.ge) hm

/-- What a resolution under a step context gives on a list. -/
theorem resolveParam_list {v : VoiceIx} {id : ParamId} {p : PatternIx} {st : StepIx} {l : List PoolIx}
    (h : IsList c e (e.lockHead v p) l) :
    resolveParam c e v id (some (p, st))
      = ((lockedValue c e l (st.setWidth 8) (id.setWidth 8)).getD (e.par v id), false) := by
  simp only [resolveParam, findLock_list h, lockedValue]
  cases l.find? fun i =>
    (e.record c i).step == BitVec.setWidth 8 st && (e.record c i).param == BitVec.setWidth 8 id <;> rfl

/-- What `hasAnyLockForStep` answers on a list. -/
theorem hasLockFrom_list {st : Byte} {n : Nat} {cur : PoolIx} {l : List PoolIx} (h : IsList c e cur l)
    (hn : l.length ≤ n) :
    hasLockFrom c e st n cur = (l.any fun i => (e.record c i).step == st, false) := by
  induction l generalizing n cur with
  | nil =>
    have h0 : cur = sentinel := h
    cases n <;> simp [hasLockFrom, h0]
  | cons i l ih =>
    obtain ⟨n, rfl⟩ : ∃ m, n = m + 1 := ⟨n - 1, by simp at hn; omega⟩
    have hc : cur = i := h.1
    subst hc
    have hne := list_next_ne h
    simp only [hasLockFrom, if_neg h.2.1, if_pos h.2.2.1, if_neg hne, List.any_cons]
    rw [ih h.2.2.2 (by simp at hn; omega)]
    by_cases h1 : (e.record c cur).step = st <;> simp [h1]

theorem hasAnyLockForStep_list {v : VoiceIx} {p : PatternIx} {st : Byte} {l : List PoolIx}
    (h : IsList c e (e.lockHead v p) l) :
    hasAnyLockForStep c e v p st = (l.any fun i => (e.record c i).step == st, false) :=
  hasLockFrom_list h (list_length_le h)

/-- A search for a step in a corrupt chain in which no record has it ends with a guard. -/
theorem hasLockFrom_corrupt {st : Byte} {n : Nat} {cur stop : PoolIx} {l : List PoolIx}
    (h : LockPath c e cur l stop) (hs : stop ≠ sentinel)
    (hc : poolIxInRange c stop = false ∨ l.getLast? = some stop ∨ n ≤ l.length)
    (hm : ∀ i ∈ l, (e.record c i).step ≠ st) : hasLockFrom c e st n cur = (false, true) := by
  induction l generalizing n cur with
  | nil =>
    have h0 : cur = stop := h
    cases n with
    | zero => simp [hasLockFrom, h0, hs]
    | succ n =>
      have hr : poolIxInRange c stop = false := by simpa using hc
      simp [hasLockFrom, h0, hs, hr]
  | cons i l ih =>
    have hci : cur = i := h.1
    subst hci
    cases n with
    | zero => simp [hasLockFrom, h.2.1]
    | succ n =>
      simp only [hasLockFrom, if_neg h.2.1, if_pos h.2.2.1, if_neg (hm cur (by simp))]
      split
      · rfl
      · rename_i hne
        refine ih h.2.2.2 ?_ fun i hi => hm i (by simp [hi])
        cases l with
        | nil =>
          rcases hc with hc | hc | hc
          · exact .inl hc
          · have h3 : (e.record c cur).next = stop := h.2.2.2
            simp only [List.getLast?_singleton, Option.some.injEq] at hc
            exact absurd (h3.trans hc.symm) hne
          · exact .inr (.inr (by simp at hc; omega))
        | cons j l =>
          rcases hc with hc | hc | hc
          · exact .inl hc
          · exact .inr (.inl (by simpa [List.getLast?_cons_cons] using hc))
          · exact .inr (.inr (by simp at hc ⊢; omega))

end Sys2Proof.Laws
end

