-- ==== Sys2Proof/Laws/Pool.lean ====
section
/-!
SUPPORT. What `storeLock`, `clearLocks`, `removeLocksForStep` and `copyLocks` do to a pool whose ownership is sound: each
keeps `PoolOwned`, with the lists it leaves, and says what every record then holds.
-/

namespace Sys2Proof.Laws

open Sys2Proof.Machine

variable {c : Config} {e e' : Engine} {free : List PoolIx} {own : VoiceIx → PatternIx → List PoolIx}

@[simp] theorem setList_same (v : VoiceIx) (p : PatternIx) (l : List PoolIx) : setList own v p l v p = l := by
  simp [setList]

theorem setList_setList (v : VoiceIx) (p : PatternIx) (l l' : List PoolIx) :
    setList (setList own v p l) v p l' = setList own v p l' := by
  funext v' p'
  simp only [setList]
  split <;> rfl

theorem setList_self (v : VoiceIx) (p : PatternIx) : setList own v p (own v p) = own := by
  funext v' p'
  simp only [setList]
  split
  · rename_i h
    rw [h.1, h.2]
  · rfl

theorem setList_other {v v' : VoiceIx} {p p' : PatternIx} {l : List PoolIx} (h : ¬(v' = v ∧ p' = p)) :
    setList own v p l v' p' = own v' p' := if_neg h

theorem sameLock_refl (r : LockRecord) : SameLock r r := ⟨rfl, rfl, rfl⟩

theorem sameLock_trans {r r' r'' : LockRecord} (h : SameLock r r') (h' : SameLock r' r'') : SameLock r r'' :=
  ⟨h.1.trans h'.1, h.2.1.trans h'.2.1, h.2.2.trans h'.2.2⟩

/-- Ownership depends on the lock heads, the free head and count, and the records' links and keys alone. -/
theorem owned_congr (h : PoolOwned c e free own) (hf : e'.freeHead = e.freeHead) (hc : e'.freeCount = e.freeCount)
    (hh : ∀ v p, e'.lockHead v p = e.lockHead v p)
    (hr : ∀ i, (e'.record c i).next = (e.record c i).next ∧ (e'.record c i).step = (e.record c i).step
      ∧ (e'.record c i).param = (e.record c i).param) : PoolOwned c e' free own where
  freeList := by
    rw [IsList, hf]
    exact (path_congr fun i _ => (hr i).1).2 h.freeList
  freeCount := by rw [hc, h.freeCount]
  lists v p := by
    rw [IsList, hh]
    exact (path_congr fun i _ => (hr i).1).2 (h.lists v p)
  apart := h.apart
  single := h.single
  covered := h.covered
  keys v p i hi j hj h1 h2 := by
    rw [(hr i).2.1, (hr j).2.1] at h1
    rw [(hr i).2.2, (hr j).2.2] at h2
    exact h.keys v p i hi j hj h1 h2
  operands v p i hi := by
    rw [(hr i).2.1, (hr i).2.2]
    exact h.operands v p i hi

theorem owned_mem_own {v : VoiceIx} {p : PatternIx} {i : PoolIx} (h : PoolOwned c e free own) (hi : i ∈ own v p) :
    i ≠ sentinel ∧ poolIxInRange c i = true := path_mem (h.lists v p) hi

theorem owned_mem_free {i : PoolIx} (h : PoolOwned c e free own) (hi : i ∈ free) :
    i ≠ sentinel ∧ poolIxInRange c i = true := path_mem h.freeList hi

/-- There are fewer than 2^16 records on a list. -/
theorem length_lt {l : List PoolIx} (hn : l.Nodup) (h : ∀ i ∈ l, i ≠ sentinel) : l.length < 2 ^ 16 := by
  have hsub : l.map BitVec.toNat ⊆ List.range 65535 := by
    intro x hx
    obtain ⟨i, hi, rfl⟩ := List.mem_map.1 hx
    have := h i hi
    simp only [sentinel] at this
    rw [List.mem_range]
    bv_omega
  have hnd : (l.map BitVec.toNat).Nodup := hn.map fun a b hab => BitVec.eq_of_toNat_eq hab
  have := (List.subperm_of_subset hnd hsub).length_le
  simp at this
  omega

/-- The free head is the first of the free list, or the sentinel. -/
theorem owned_freeHead_nil (h : PoolOwned c e [] own) : e.freeHead = sentinel := h.freeList

theorem owned_freeHead_cons {i : PoolIx} (h : PoolOwned c e (i :: free) own) : e.freeHead = i := h.freeList.1

/-- A sound pool's free head names a record or is the sentinel. -/
theorem owned_freeHeadNames (h : PoolOwned c e free own) : FreeHeadNames c e := by
  cases free with
  | nil => exact .inl (owned_freeHead_nil h)
  | cons i free =>
    right
    rw [(owned_freeHead_cons h)]
    exact (owned_mem_free h (by simp)).2

/-! Updating a record in place. -/

/-- The value of a record is no part of the ownership. -/
theorem owned_setValue (h : PoolOwned c e free own) (i : PoolIx) (val : Byte) :
    PoolOwned c (e.setRecord c i { e.record c i with value := val }) free own :=
  owned_congr h rfl rfl (fun _ _ => rfl) fun j => by
    rw [record_setRecord]
    split
    · rename_i hj
      rw [hj]
      exact ⟨rfl, rfl, rfl⟩
    · exact ⟨rfl, rfl, rfl⟩

/-! Taking a free record and pushing it on a list. -/

/-- The state in which the free record `i` has become the first lock of a pattern (41_params_locks.md R115). -/
def pushed (c : Config) (e : Engine) (v : VoiceIx) (p : PatternIx) (i : PoolIx) (st id val : Byte) : Engine :=
  (({ e with freeHead := (e.record c i).next, freeCount := e.freeCount - 1#16 } : Engine).setRecord c i
    ⟨id, st, val, e.lockHead v p⟩).setLockHead v p i

theorem record_pushed (v : VoiceIx) (p : PatternIx) (i j : PoolIx) (st id val : Byte) :
    (pushed c e v p i st id val).record c j = if j = i then ⟨id, st, val, e.lockHead v p⟩ else e.record c j := by
  rw [show (pushed c e v p i st id val).record c j
    = (({ e with freeHead := (e.record c i).next, freeCount := e.freeCount - 1#16 } : Engine).setRecord c i
      ⟨id, st, val, e.lockHead v p⟩).record c j from rfl, record_setRecord]
  rfl

theorem lockHead_pushed (v v' : VoiceIx) (p p' : PatternIx) (i : PoolIx) (st id val : Byte) :
    (pushed c e v p i st id val).lockHead v' p' = if v' = v ∧ p' = p then i else e.lockHead v' p' := by
  simp only [pushed]
  rw [lockHead_setLockHead]
  rfl

/-- Pushing a free record keeps the ownership sound, where the key is new to the list. -/
theorem owned_push {v : VoiceIx} {p : PatternIx} {i : PoolIx} {st id val : Byte}
    (h : PoolOwned c e (i :: free) own) (hk : holdsKey c e (own v p) st id = false) (hs : st.toNat < maxSteps)
    (hi : id.toNat < nParams) :
    PoolOwned c (pushed c e v p i st id val) free (setList own v p (i :: own v p)) := by
  have hin : i ∉ free := (List.nodup_cons.1 (list_nodup h.freeList)).1
  have hio : ∀ v p, i ∉ own v p := fun v p hi => h.apart v p i hi (by simp)
  have hsame : ∀ j, j ≠ i → (pushed c e v p i st id val).record c j = e.record c j := fun j hj => by
    rw [record_pushed, if_neg hj]
  have hself : (pushed c e v p i st id val).record c i = ⟨id, st, val, e.lockHead v p⟩ := by
    rw [record_pushed, if_pos rfl]
  have hmem : ∀ v' p' j, j ∈ setList own v p (i :: own v p) v' p' →
      j = i ∧ v' = v ∧ p' = p ∨ j ≠ i ∧ j ∈ own v' p' := by
    intro v' p' j hj
    by_cases hvp : v' = v ∧ p' = p
    · rw [hvp.1, hvp.2, setList_same] at hj
      rcases List.mem_cons.1 hj with hj | hj
      · exact .inl ⟨hj, hvp⟩
      · exact .inr ⟨fun hji => hio v p (hji ▸ hj), by rw [hvp.1, hvp.2]; exact hj⟩
    · rw [setList_other hvp] at hj
      exact .inr ⟨fun hji => hio v' p' (hji ▸ hj), hj⟩
  have hnew : ∀ j ∈ own v p, ¬((e.record c j).step = st ∧ (e.record c j).param = id) := by
    intro j hj hc
    have : holdsKey c e (own v p) st id = true :=
      List.any_eq_true.2 ⟨j, hj, by simp [hc.1, hc.2]⟩
    rw [hk] at this
    exact absurd this (by simp)
  refine ⟨?_, ?_, ?_, ?_, ?_, ?_, ?_, ?_⟩
  · have : IsList c e (e.record c i).next free := h.freeList.2.2.2
    exact (path_congr fun j hj => by rw [hsame j fun hji => hin (hji ▸ hj)]).2 this
  · have h1 := h.freeCount
    have h2 : (pushed c e v p i st id val).freeCount = e.freeCount - 1#16 := rfl
    rw [h2]
    simp only [List.length_cons] at h1
    have := e.freeCount.isLt
    rw [BitVec.toNat_sub]
    simp
    omega
  · intro v' p'
    by_cases hvp : v' = v ∧ p' = p
    · obtain ⟨rfl, rfl⟩ := hvp
      rw [setList_same, IsList, lockHead_pushed, if_pos ⟨rfl, rfl⟩, path_cons, hself]
      exact ⟨rfl, (owned_mem_free h (by simp)).1, (owned_mem_free h (by simp)).2,
        (path_congr fun j hj => by rw [hsame j fun hji => hio _ _ (hji ▸ hj)]).2 (h.lists v' p')⟩
    · rw [setList_other hvp, IsList, lockHead_pushed, if_neg hvp]
      exact (path_congr fun j hj => by rw [hsame j fun hji => hio _ _ (hji ▸ hj)]).2 (h.lists v' p')
  · intro v' p' j hj hf
    rcases hmem v' p' j hj with ⟨rfl, _⟩ | ⟨_, hj⟩
    · exact hin hf
    · exact h.apart v' p' j hj (List.mem_cons_of_mem _ hf)
  · intro v1 p1 v2 p2 j hj1 hj2
    rcases hmem v1 p1 j hj1 with ⟨rfl, h1, h2⟩ | ⟨hne, hj1⟩
    · rcases hmem v2 p2 j hj2 with ⟨_, h3, h4⟩ | ⟨hne, _⟩
      · exact ⟨h1.trans h3.symm, h2.trans h4.symm⟩
      · exact absurd rfl hne
    · rcases hmem v2 p2 j hj2 with ⟨h3, _⟩ | ⟨_, hj2⟩
      · exact absurd h3 hne
      · exact h.single v1 p1 v2 p2 j hj1 hj2
  · intro j hj
    have hmem' : ∀ v' p', j ∈ own v' p' → j ∈ setList own v p (i :: own v p) v' p' := by
      intro v' p' hjo
      by_cases hvp : v' = v ∧ p' = p
      · rw [hvp.1, hvp.2, setList_same]
        rw [hvp.1, hvp.2] at hjo
        exact List.mem_cons_of_mem _ hjo
      · rwa [setList_other hvp]
    rcases h.covered j hj with hf | ⟨v', p', ho⟩
    · rcases List.mem_cons.1 hf with rfl | hf
      · exact .inr ⟨v, p, by rw [setList_same]; simp⟩
      · exact .inl hf
    · exact .inr ⟨v', p', hmem' v' p' ho⟩
  · intro v' p' j hj k hk' h1 h2
    rcases hmem v' p' j hj with ⟨rfl, hv, hp⟩ | ⟨hjne, hjo⟩ <;>
      rcases hmem v' p' k hk' with ⟨rfl, hv', hp'⟩ | ⟨hkne, hko⟩
    · rfl
    · rw [hself, hsame k hkne] at h1 h2
      exact absurd ⟨h1.symm, h2.symm⟩ (hnew k (by rw [← hv, ← hp]; exact hko))
    · rw [hself, hsame j hjne] at h1 h2
      exact absurd ⟨h1, h2⟩ (hnew j (by rw [← hv', ← hp']; exact hjo))
    · rw [hsame j hjne, hsame k hkne] at h1 h2
      exact h.keys v' p' j hjo k hko h1 h2
  · intro v' p' j hj
    rcases hmem v' p' j hj with ⟨rfl, _⟩ | ⟨hjne, hj⟩
    · rw [hself]
      exact ⟨hs, hi⟩
    · rw [hsame j hjne]
      exact h.operands v' p' j hj

/-! Unlinking a record and releasing it. -/

/-- The record after which a list's rest stands: the last of the part before it, or the sentinel. -/
def prevOf (a : List PoolIx) : PoolIx := a.getLast?.getD sentinel

theorem record_unlink (v : VoiceIx) (p : PatternIx) (prev nxt j : PoolIx) :
    (unlink c e v p prev nxt).record c j
      = if j = prev ∧ prev ≠ sentinel then { e.record c j with next := nxt } else e.record c j := by
  simp only [unlink]
  by_cases hp : prev = sentinel
  · rw [if_pos hp, if_neg (fun h => h.2 hp)]
    rfl
  · rw [if_neg hp, record_setRecord]
    by_cases hj : j = prev
    · rw [if_pos hj, if_pos ⟨hj, hp⟩, hj]
    · rw [if_neg hj, if_neg (fun h => hj h.1)]

theorem lockHead_unlink (v v' : VoiceIx) (p p' : PatternIx) (prev nxt : PoolIx) :
    (unlink c e v p prev nxt).lockHead v' p'
      = if v' = v ∧ p' = p ∧ prev = sentinel then nxt else e.lockHead v' p' := by
  simp only [unlink]
  by_cases hp : prev = sentinel
  · rw [if_pos hp, lockHead_setLockHead]
    by_cases hvp : v' = v ∧ p' = p
    · rw [if_pos hvp, if_pos ⟨hvp.1, hvp.2, hp⟩]
    · rw [if_neg hvp, if_neg fun h => hvp ⟨h.1, h.2.1⟩]
  · rw [if_neg hp, if_neg fun h => hp h.2.2]
    rfl

theorem freeHead_unlink (v : VoiceIx) (p : PatternIx) (prev nxt : PoolIx) :
    (unlink c e v p prev nxt).freeHead = e.freeHead := by
  simp only [unlink]
  split <;> rfl

theorem freeCount_unlink (v : VoiceIx) (p : PatternIx) (prev nxt : PoolIx) :
    (unlink c e v p prev nxt).freeCount = e.freeCount := by
  simp only [unlink]
  split <;> rfl

/-- `unlink` writes one link alone: the lock head or the record before. -/
theorem unlink_eq (v : VoiceIx) (p : PatternIx) (prev nxt : PoolIx) :
    unlink c e v p prev nxt
      = { e with poolMem := (unlink c e v p prev nxt).poolMem,
                 lockHeadMem := (unlink c e v p prev nxt).lockHeadMem } := by
  simp only [unlink]
  split <;> rfl

/-- Unlinking one record of a list and releasing it keeps the ownership sound. -/
theorem owned_unlinkRelease {v : VoiceIx} {p : PatternIx} {i : PoolIx} {a b : List PoolIx}
    (h : PoolOwned c e free own) (hl : own v p = a ++ i :: b) :
    PoolOwned c (release c (unlink c e v p (prevOf a) (e.record c i).next) i) (i :: free) (setList own v p (a ++ b)) := by
  have hnd := list_nodup (h.lists v p)
  rw [hl] at hnd
  have hia : i ∉ a := fun hi => (List.nodup_append.1 hnd).2.2 i hi i (by simp) rfl
  have hib : i ∉ b := (List.nodup_cons.1 (List.nodup_append.1 hnd).2.1).1
  have hiown : i ∈ own v p := by rw [hl]; simp
  have hif : i ∉ free := h.apart v p i hiown
  have hmemown : ∀ j, j ∈ a ++ b → j ∈ own v p ∧ j ≠ i := by
    intro j hj
    rw [hl]
    rcases List.mem_append.1 hj with hj | hj
    · exact ⟨by simp [hj], fun hji => hia (hji ▸ hj)⟩
    · exact ⟨by simp [hj], fun hji => hib (hji ▸ hj)⟩
  have hprev : prevOf a ≠ sentinel → prevOf a ∈ a := by
    intro hne
    cases ha : a.getLast? with
    | none => simp [prevOf, ha] at hne
    | some x =>
      have : prevOf a = x := by simp [prevOf, ha]
      rw [this]
      exact List.mem_of_getLast? ha
  have hsent : prevOf a = sentinel → a = [] := by
    intro hs
    cases ha : a.getLast? with
    | none => exact List.getLast?_eq_none_iff.1 ha
    | some x =>
      have hx : x ∈ a := List.mem_of_getLast? ha
      have hxs : x = sentinel := by simpa [prevOf, ha] using hs
      exact absurd hxs (owned_mem_own h (hmemown x (by simp [hx])).1).1
  -- what a record holds afterwards
  have hrec : ∀ j, (release c (unlink c e v p (prevOf a) (e.record c i).next) i).record c j
      = if j = i then { e.record c i with next := e.freeHead }
        else if j = prevOf a ∧ prevOf a ≠ sentinel then { e.record c j with next := (e.record c i).next }
        else e.record c j := by
    intro j
    rw [record_release]
    split
    · rw [record_unlink, if_neg, freeHead_unlink]
      rintro ⟨h1, h2⟩
      exact hia (h1 ▸ hprev h2)
    · rw [record_unlink]
  have hkey : ∀ j, ((release c (unlink c e v p (prevOf a) (e.record c i).next) i).record c j).step
        = (e.record c j).step
      ∧ ((release c (unlink c e v p (prevOf a) (e.record c i).next) i).record c j).param
        = (e.record c j).param := by
    intro j
    rw [hrec j]
    split
    · rename_i hj
      rw [hj]
      exact ⟨rfl, rfl⟩
    · split <;> exact ⟨rfl, rfl⟩
  have hout : ∀ j, j ≠ i → j ∉ a → (release c (unlink c e v p (prevOf a) (e.record c i).next) i).record c j
      = e.record c j := by
    intro j hj hja
    rw [hrec j, if_neg hj, if_neg]
    rintro ⟨h1, h2⟩
    exact hja (h1 ▸ hprev h2)
  have hmem : ∀ v' p' j, j ∈ setList own v p (a ++ b) v' p' → j ∈ own v' p' ∧ j ≠ i := by
    intro v' p' j hj
    by_cases hvp : v' = v ∧ p' = p
    · rw [hvp.1, hvp.2, setList_same] at hj
      rw [hvp.1, hvp.2]
      exact hmemown j hj
    · rw [setList_other hvp] at hj
      exact ⟨hj, fun hji => hvp (h.single v' p' v p j hj (hji ▸ hiown))⟩
  have hhead : ∀ v' p', (release c (unlink c e v p (prevOf a) (e.record c i).next) i).lockHead v' p'
      = if v' = v ∧ p' = p ∧ prevOf a = sentinel then (e.record c i).next else e.lockHead v' p' :=
    fun v' p' => lockHead_unlink v v' p p' _ _
  refine ⟨?_, ?_, ?_, ?_, ?_, ?_, ?_, ?_⟩
  · refine ⟨rfl, (owned_mem_own h hiown).1, (owned_mem_own h hiown).2, ?_⟩
    rw [hrec i, if_pos rfl]
    refine (path_congr fun j hj => ?_).2 h.freeList
    rw [hout j (fun hji => hif (hji ▸ hj)) fun hja => h.apart v p j (hmemown j (by simp [hja])).1 hj]
  · have h1 := h.freeCount
    have h2 : (release c (unlink c e v p (prevOf a) (e.record c i).next) i).freeCount = e.freeCount + 1#16 := by
      rw [release_eq, freeCount_unlink]
    have h3 : (i :: free).length < 2 ^ 16 := by
      refine length_lt (List.nodup_cons.2 ⟨hif, list_nodup h.freeList⟩) fun j hj => ?_
      rcases List.mem_cons.1 hj with rfl | hj
      · exact (owned_mem_own h hiown).1
      · exact (owned_mem_free h hj).1
    rw [h2]
    simp only [List.length_cons] at h3 ⊢
    rw [BitVec.toNat_add, h1]
    simp
    omega
  · intro v' p'
    by_cases hvp : v' = v ∧ p' = p
    · obtain ⟨rfl, rfl⟩ := hvp
      rw [setList_same, IsList, hhead]
      have hlist := h.lists v' p'
      rw [hl, IsList] at hlist
      obtain ⟨mid, ha1, hb1⟩ := path_append.1 hlist
      have hmid : mid = i := hb1.1
      subst hmid
      have hb2 : LockPath c (release c (unlink c e v' p' (prevOf a) (e.record c mid).next) mid)
          (e.record c mid).next b sentinel := by
        refine (path_congr fun j hj => ?_).2 hb1.2.2.2
        rw [hout j (fun hji => hib (hji ▸ hj)) fun hja =>
          (List.nodup_append.1 hnd).2.2 j hja j (by simp [hj]) rfl]
      by_cases hp : prevOf a = sentinel
      · rw [if_pos ⟨rfl, rfl, hp⟩, hsent hp, List.nil_append]
        rw [hsent hp] at hb2
        exact hb2
      · rw [if_neg fun h => hp h.2.2]
        obtain ⟨a', x, rfl⟩ : ∃ a' x, a = a' ++ [x] := by
          rcases List.eq_nil_or_concat a with ha | ⟨a', x, ha⟩
          · exact absurd (by rw [ha]; rfl) hp
          · exact ⟨a', x, by simpa using ha⟩
        have hpx : prevOf (a' ++ [x]) = x := by simp [prevOf]
        obtain ⟨mid', ha2, ha3⟩ := path_append.1 ha1
        have hmx : mid' = x := ha3.1
        subst hmx
        rw [List.append_assoc]
        refine path_append.2 ⟨mid', (path_congr fun j hj => ?_).2 ha2, rfl, ha3.2.1, ha3.2.2.1, ?_⟩
        · rw [hrec j, if_neg fun hji => hia (by simp [← hji, hj]), if_neg]
          rw [hpx]
          rintro ⟨h1, _⟩
          have := (List.nodup_append.1 (List.nodup_append.1 hnd).1).2.2 j hj mid' (by simp)
          exact this h1
        · rw [hrec mid', if_neg fun hji => hia (by simp [← hji]), if_pos ⟨hpx.symm, hp⟩]
          exact hb2
    · rw [setList_other hvp, IsList, hhead, if_neg fun h => hvp ⟨h.1, h.2.1⟩]
      refine (path_congr fun j hj => ?_).2 (h.lists v' p')
      have hji : j ≠ i := fun hji => hvp (h.single v' p' v p j hj (hji ▸ hiown))
      rw [hout j hji fun hja => hvp (h.single v' p' v p j hj (hmemown j (by simp [hja])).1)]
  · intro v' p' j hj hf
    rcases List.mem_cons.1 hf with rfl | hf
    · exact (hmem v' p' j hj).2 rfl
    · exact h.apart v' p' j (hmem v' p' j hj).1 hf
  · intro v1 p1 v2 p2 j hj1 hj2
    exact h.single v1 p1 v2 p2 j (hmem v1 p1 j hj1).1 (hmem v2 p2 j hj2).1
  · intro j hj
    by_cases hji : j = i
    · exact .inl (by simp [hji])
    · rcases h.covered j hj with hf | ⟨v', p', ho⟩
      · exact .inl (by simp [hf])
      · refine .inr ⟨v', p', ?_⟩
        by_cases hvp : v' = v ∧ p' = p
        · rw [hvp.1, hvp.2, setList_same]
          rw [hvp.1, hvp.2, hl] at ho
          simp only [List.mem_append, List.mem_cons] at ho ⊢
          rcases ho with ho | ho | ho
          · exact .inl ho
          · exact absurd ho hji
          · exact .inr ho
        · rwa [setList_other hvp]
  · intro v' p' j hj k hk h1 h2
    rw [(hkey j).1, (hkey k).1] at h1
    rw [(hkey j).2, (hkey k).2] at h2
    exact h.keys v' p' j (hmem v' p' j hj).1 k (hmem v' p' k hk).1 h1 h2
  · intro v' p' j hj
    rw [(hkey j).1, (hkey j).2]
    exact h.operands v' p' j (hmem v' p' j hj).1

/-- An unlink and a release leave every lock's contents. -/
theorem sameLock_unlinkRelease (v : VoiceIx) (p : PatternIx) (prev nxt i j : PoolIx) :
    SameLock ((release c (unlink c e v p prev nxt) i).record c j) (e.record c j) := by
  rw [record_release, record_unlink, record_unlink]
  split
  · rename_i h
    rw [h]
    split <;> exact sameLock_refl _
  · split <;> exact sameLock_refl _

end Sys2Proof.Laws
end

