-- ==== Sys2Proof/Laws/Walks.lean ====
section
/-!
SUPPORT. What each lock operation does to a sound pool, said once: `storeLock`, `clearLocks`, `removeLocksForStep`,
`copyLocks` (41_params_locks.md R115 to R119).
-/

namespace Sys2Proof.Laws

open Sys2Proof.Machine

variable {c : Config} {e e' : Engine} {free : List PoolIx} {own : VoiceIx → PatternIx → List PoolIx}

/-! `storeLock`. -/

theorem storeLock_found {v : VoiceIx} {p : PatternIx} {st id val : Byte} {i : PoolIx} {l : List PoolIx}
    (h : IsList c e (e.lockHead v p) l)
    (hf : l.find? (fun i => (e.record c i).step == st && (e.record c i).param == id) = some i) :
    storeLock c e v p st id val = .ok (.ok, e.setRecord c i { e.record c i with value := val }) := by
  rw [storeLock, findLock_list h, hf]

theorem storeLock_exhausted {v : VoiceIx} {p : PatternIx} {st id val : Byte} {l : List PoolIx}
    (h : IsList c e (e.lockHead v p) l) (hk : holdsKey c e l st id = false) (hf : e.freeHead = sentinel) :
    storeLock c e v p st id val = .ok (.exhausted, raiseDiag diagPoolExhausted e) := by
  have : l.find? (fun i => (e.record c i).step == st && (e.record c i).param == id) = none := by
    rw [List.find?_eq_none]
    intro i hi hc
    have : holdsKey c e l st id = true := List.any_eq_true.2 ⟨i, hi, hc⟩
    rw [hk] at this
    exact absurd this (by simp)
  rw [storeLock, findLock_list h, this]
  simp [allocate, hf]

theorem storeLock_fresh {v : VoiceIx} {p : PatternIx} {st id val : Byte} {l : List PoolIx}
    (h : IsList c e (e.lockHead v p) l) (hk : holdsKey c e l st id = false) (hf : e.freeHead ≠ sentinel)
    (hr : poolIxInRange c e.freeHead = true) :
    storeLock c e v p st id val = .ok (.ok, pushed c e v p e.freeHead st id val) := by
  have : l.find? (fun i => (e.record c i).step == st && (e.record c i).param == id) = none := by
    rw [List.find?_eq_none]
    intro i hi hc
    have : holdsKey c e l st id = true := List.any_eq_true.2 ⟨i, hi, hc⟩
    rw [hk] at this
    exact absurd this (by simp)
  rw [storeLock, findLock_list h, this]
  simp only [allocate, if_neg hf, if_pos hr]
  rfl

theorem storeLock_corrupt {v : VoiceIx} {p : PatternIx} {st id val : Byte} {l : List PoolIx}
    (h : CorruptAfter c e (e.lockHead v p) l) (hk : holdsKey c e l st id = false) :
    storeLock c e v p st id val = .ok (.cycle, raiseDiag diagListCycle e) := by
  rw [storeLock, findLock_corrupt h hk]

theorem find_of_holdsKey {l : List PoolIx} {st id : Byte} (h : holdsKey c e l st id = true) :
    ∃ i ∈ l, l.find? (fun i => (e.record c i).step == st && (e.record c i).param == id) = some i
      ∧ (e.record c i).step = st ∧ (e.record c i).param = id := by
  have : (l.find? fun i => (e.record c i).step == st && (e.record c i).param == id).isSome := by
    rw [List.find?_isSome]
    exact List.any_eq_true.1 h
  obtain ⟨i, hi⟩ := Option.isSome_iff_exists.1 this
  refine ⟨i, List.mem_of_find?_eq_some hi, hi, ?_⟩
  simpa using List.find?_some hi

/-- All that `storeLock` does to a sound pool. -/
theorem storeLock_owned {v : VoiceIx} {p : PatternIx} {st id val : Byte} (h : PoolOwned c e free own)
    (hs : st.toNat < maxSteps) (hi : id.toNat < nParams) :
    (∃ i ∈ own v p, (e.record c i).step = st ∧ (e.record c i).param = id
        ∧ storeLock c e v p st id val = .ok (.ok, e.setRecord c i { e.record c i with value := val })
        ∧ PoolOwned c (e.setRecord c i { e.record c i with value := val }) free own)
    ∨ (holdsKey c e (own v p) st id = false ∧ free = []
        ∧ storeLock c e v p st id val = .ok (.exhausted, raiseDiag diagPoolExhausted e))
    ∨ (∃ i rest, holdsKey c e (own v p) st id = false ∧ free = i :: rest
        ∧ storeLock c e v p st id val = .ok (.ok, pushed c e v p i st id val)
        ∧ PoolOwned c (pushed c e v p i st id val) rest (setList own v p (i :: own v p))) := by
  cases hk : holdsKey c e (own v p) st id with
  | true =>
    obtain ⟨i, hm, hf, h1, h2⟩ := find_of_holdsKey hk
    exact .inl ⟨i, hm, h1, h2, storeLock_found (h.lists v p) hf, owned_setValue h i val⟩
  | false =>
    cases free with
    | nil => exact .inr (.inl ⟨rfl, rfl, storeLock_exhausted (h.lists v p) hk (owned_freeHead_nil h)⟩)
    | cons i rest =>
      refine .inr (.inr ⟨i, rest, rfl, rfl, ?_, owned_push h hk hs hi⟩)
      have hh := owned_freeHead_cons h
      have hm := owned_mem_free h (i := i) (by simp)
      rw [← hh] at hm
      rw [storeLock_fresh (h.lists v p) hk hm.1 hm.2, hh]

/-! `clearLocks`. -/

theorem erase_erase {α : Type} (m : Memory α) (a : Nat) : Memory.erase (Memory.erase m a) a = Memory.erase m a := by
  simp [Memory.erase]

theorem erase_insert {α : Type} (m : Memory α) (a : Nat) (x : α) :
    Memory.erase (Memory.insert m a x) a = Memory.erase m a := by
  induction m with
  | nil => simp [Memory.erase, Memory.insert]
  | cons b m ih =>
    obtain ⟨b, y⟩ := b
    simp only [Memory.insert]
    split
    · simp [Memory.erase]
    · simp only [Memory.erase, List.filter_cons] at ih ⊢
      split <;> simp [ih]

/-- The last of two writes to one index counts. -/
theorem write_write {α : Type} [DecidableEq α] {unlisted : Nat → α} (m : Memory α) (a : Nat) (x y : α) :
    Memory.write unlisted (Memory.write unlisted m a x) a y = Memory.write unlisted m a y := by
  have : Memory.erase (Memory.write unlisted m a x) a = Memory.erase m a := by
    simp only [Memory.write]
    split
    · exact erase_erase m a
    · rw [erase_insert, erase_erase]
  simp only [Memory.write] at this ⊢
  rw [this]

theorem setLockHead_setLockHead (v : VoiceIx) (p : PatternIx) (i j : PoolIx) :
    (e.setLockHead v p i).setLockHead v p j = e.setLockHead v p j := by
  simp only [Engine.setLockHead, write_write]

theorem release_setLockHead (v : VoiceIx) (p : PatternIx) (i j : PoolIx) :
    release c (e.setLockHead v p j) i = (release c e i).setLockHead v p j := rfl

/-- The walk of `ClearLocks` over a list: the pool it leaves, and what every record then holds. -/
theorem clearFrom_owned {v : VoiceIx} {p : PatternIx} {l : List PoolIx} {fuel : Nat} {cur : PoolIx} {n : Nat}
    (h : PoolOwned c (e.setLockHead v p cur) free own) (hl : own v p = l) (hn : l.length ≤ fuel) :
    ∃ e', clearFrom c fuel cur e n = (.ok, n + l.length, e')
      ∧ PoolOwned c (e'.setLockHead v p sentinel) (l.reverse ++ free) (setList own v p [])
      ∧ (∀ i, SameLock (e'.record c i) (e.record c i))
      ∧ e' = { e with poolMem := e'.poolMem, freeHead := e'.freeHead, freeCount := e'.freeCount } := by
  induction l generalizing e free own fuel cur n with
  | nil =>
    have hcur : cur = sentinel := by
      have := h.lists v p
      rw [hl, IsList, lockHead_setLockHead, if_pos ⟨rfl, rfl⟩] at this
      exact this
    subst hcur
    refine ⟨e, ?_, ?_, fun i => sameLock_refl _, rfl⟩
    · cases fuel <;> simp [clearFrom]
    · have hself := setList_self (own := own) v p
      rw [hl] at hself
      rw [hself]
      simpa using h
  | cons i l ih =>
    obtain ⟨fuel, rfl⟩ : ∃ m, fuel = m + 1 := ⟨fuel - 1, by simp at hn; omega⟩
    have hlist : IsList c e cur (i :: l) := by
      have := h.lists v p
      rw [hl, IsList, lockHead_setLockHead, if_pos ⟨rfl, rfl⟩] at this
      exact (path_congr (e := e) (e' := e.setLockHead v p cur) fun _ _ => rfl).1 this
    have hcur : cur = i := hlist.1
    subst hcur
    have hne := list_next_ne hlist
    have h1 := owned_unlinkRelease (a := []) h (by rw [hl]; rfl)
    have h2 : release c (unlink c (e.setLockHead v p cur) v p (prevOf []) ((e.setLockHead v p cur).record c cur).next) cur
        = (release c e cur).setLockHead v p (e.record c cur).next := by
      rw [show prevOf [] = sentinel from rfl, unlink, if_pos rfl, setLockHead_setLockHead, release_setLockHead]
      rfl
    rw [h2, List.nil_append] at h1
    obtain ⟨e', he, ho, hs, hfr⟩ := ih (n := n + 1) h1 (by simp) (by simp at hn; omega) (fuel := fuel)
    refine ⟨e', ?_, ?_, ?_, ?_⟩
    · simp only [clearFrom, if_neg hlist.2.1, if_pos hlist.2.2.1, if_neg hne]
      rw [he]
      simp only [List.length_cons]
      congr 2
      omega
    · rw [setList_setList] at ho
      simpa using ho
    · intro j
      refine sameLock_trans (hs j) ?_
      rw [record_release]
      split
      · rename_i hj
        rw [hj]
        exact ⟨rfl, rfl, rfl⟩
      · exact sameLock_refl _
    · rw [hfr, release_eq]

/-- All that `clearLocks` does to a sound pool: the list's records are freed, last first. -/
theorem clearLocks_owned {v : VoiceIx} {p : PatternIx} (h : PoolOwned c e free own) :
    ∃ e', clearLocks c e v p = (.ok, (own v p).length, e')
      ∧ PoolOwned c e' ((own v p).reverse ++ free) (setList own v p [])
      ∧ (∀ i, SameLock (e'.record c i) (e.record c i))
      ∧ e' = { e with poolMem := e'.poolMem, freeHead := e'.freeHead, freeCount := e'.freeCount,
                      lockHeadMem := e'.lockHeadMem } := by
  have h0 : PoolOwned c (e.setLockHead v p (e.lockHead v p)) free own := by
    refine owned_congr h rfl rfl (fun v' p' => ?_) fun _ => ⟨rfl, rfl, rfl⟩
    rw [lockHead_setLockHead]
    split
    · rename_i hvp
      rw [hvp.1, hvp.2]
    · rfl
  obtain ⟨e', he, ho, hs, hfr⟩ := clearFrom_owned (n := 0) h0 rfl (list_length_le (h.lists v p))
  refine ⟨e'.setLockHead v p sentinel, ?_, ho, hs, ?_⟩
  · simp only [clearLocks, he, Nat.zero_add]
  · rw [hfr]
    rfl

/-! `removeLocksForStep`. -/

theorem prevOf_append (a : List PoolIx) (i : PoolIx) : prevOf (a ++ [i]) = i := by simp [prevOf]

/-- The walk of `RemoveLocksForStep` over the rest of a list, of which the part `a` is kept. -/
theorem removeFrom_owned {v : VoiceIx} {p : PatternIx} {st : Byte} {a rest : List PoolIx} {fuel : Nat} {cur : PoolIx}
    {n : Nat} (h : PoolOwned c e free own) (hl : own v p = a ++ rest) (hc : IsList c e cur rest)
    (hn : rest.length ≤ fuel) :
    ∃ e', removeFrom c v p st fuel (prevOf a) cur e n
        = (.ok, n + rest.countP fun i => (e.record c i).step == st, e')
      ∧ PoolOwned c e' ((rest.filter fun i => (e.record c i).step == st).reverse ++ free)
          (setList own v p (a ++ rest.filter fun i => !((e.record c i).step == st)))
      ∧ (∀ i, SameLock (e'.record c i) (e.record c i))
      ∧ e' = { e with poolMem := e'.poolMem, freeHead := e'.freeHead, freeCount := e'.freeCount,
                      lockHeadMem := e'.lockHeadMem } := by
  induction rest generalizing e free own fuel cur n a with
  | nil =>
    have hcur : cur = sentinel := hc
    subst hcur
    refine ⟨e, ?_, ?_, fun i => sameLock_refl _, rfl⟩
    · cases fuel <;> simp [removeFrom]
    · simp only [List.filter_nil, List.reverse_nil, List.nil_append]
      rw [← hl, setList_self]
      exact h
  | cons i rest ih =>
    obtain ⟨fuel, rfl⟩ : ∃ m, fuel = m + 1 := ⟨fuel - 1, by simp at hn; omega⟩
    have hcur : cur = i := hc.1
    subst hcur
    have hne := list_next_ne hc
    have hfuel : rest.length ≤ fuel := by simp at hn; omega
    by_cases hst : (e.record c cur).step = st
    · have h1 := owned_unlinkRelease h hl
      have hsl := fun j => sameLock_unlinkRelease (c := c) (e := e) v p (prevOf a) (e.record c cur).next cur j
      have hc1 : IsList c (release c (unlink c e v p (prevOf a) (e.record c cur).next) cur) (e.record c cur).next
          rest := by
        have h2 := h1.lists v p
        rw [setList_same] at h2
        obtain ⟨mid, _, h3⟩ := path_append.1 h2
        have h4 : mid = (e.record c cur).next := by
          cases rest with
          | nil =>
            have h5 : mid = sentinel := h3
            have h6 : (e.record c cur).next = sentinel := hc.2.2.2
            rw [h5, h6]
          | cons k rest =>
            have h5 : mid = k := h3.1
            have h6 : (e.record c cur).next = k := hc.2.2.2.1
            rw [h5, h6]
        rw [h4] at h3
        exact h3
      obtain ⟨e', he, ho, hs, hfr⟩ := ih (a := a) (n := n + 1) h1 (by simp) hc1 hfuel
      refine ⟨e', ?_, ?_, fun j => sameLock_trans (hs j) (hsl j), ?_⟩
      · simp only [removeFrom, if_neg hc.2.1, if_pos hc.2.2.1, if_neg hne, if_pos hst]
        rw [he]
        simp only [(hsl _).2.1, List.countP_cons, hst, beq_self_eq_true, if_true]
        congr 2
        omega
      · simp only [(hsl _).2.1, setList_setList] at ho
        simp only [List.filter_cons, hst, beq_self_eq_true, if_true, Bool.not_true, Bool.false_eq_true, if_false,
          List.reverse_cons, List.append_assoc, List.singleton_append]
        exact ho
      · rw [hfr, release_eq, unlink_eq]
    · obtain ⟨e', he, ho, hs, hfr⟩ := ih (a := a ++ [cur]) (n := n) h (by rw [hl]; simp) hc.2.2.2 hfuel
      refine ⟨e', ?_, ?_, hs, hfr⟩
      · simp only [removeFrom, if_neg hc.2.1, if_pos hc.2.2.1, if_neg hne, if_neg hst]
        rw [prevOf_append] at he
        rw [he]
        simp [hst]
      · simpa [List.filter_cons, hst] using ho

/-- All that `removeLocksForStep` does to a sound pool: the records of the step are freed, the others stay in order. -/
theorem removeLocksForStep_owned {v : VoiceIx} {p : PatternIx} {st : Byte} (h : PoolOwned c e free own) :
    ∃ e', removeLocksForStep c e v p st = (.ok, (own v p).countP (fun i => (e.record c i).step == st), e')
      ∧ PoolOwned c e' (((own v p).filter fun i => (e.record c i).step == st).reverse ++ free)
          (setList own v p ((own v p).filter fun i => !((e.record c i).step == st)))
      ∧ (∀ i, SameLock (e'.record c i) (e.record c i))
      ∧ e' = { e with poolMem := e'.poolMem, freeHead := e'.freeHead, freeCount := e'.freeCount,
                      lockHeadMem := e'.lockHeadMem } := by
  obtain ⟨e', he, ho⟩ := removeFrom_owned (a := []) (st := st) (n := 0) h rfl (h.lists v p)
    (list_length_le (h.lists v p))
  exact ⟨e', by simpa [removeLocksForStep, prevOf] using he, by simpa using ho⟩

end Sys2Proof.Laws
end

