-- ==== Sys2Proof/Laws/Copy.lean ====
section
/-!
SUPPORT. What `copyLocks` does to a sound pool, said once (41_params_locks.md R119).
-/

namespace Sys2Proof.Laws

open Sys2Proof.Machine

variable {c : Config} {e e' : Engine} {free : List PoolIx} {own : VoiceIx → PatternIx → List PoolIx}

/-! Searches of lists whose records agree. -/

theorem holdsKey_congr {l : List PoolIx} {st id : Byte}
    (h : ∀ i ∈ l, (e'.record c i).step = (e.record c i).step ∧ (e'.record c i).param = (e.record c i).param) :
    holdsKey c e' l st id = holdsKey c e l st id := by
  induction l with
  | nil => rfl
  | cons i l ih =>
    simp only [holdsKey, List.any_cons] at ih ⊢
    rw [ih fun j hj => h j (by simp [hj]), (h i (by simp)).1, (h i (by simp)).2]

theorem newLocks_congr {src dst : List PoolIx}
    (hs : ∀ i ∈ src, (e'.record c i).step = (e.record c i).step ∧ (e'.record c i).param = (e.record c i).param)
    (hd : ∀ i ∈ dst, (e'.record c i).step = (e.record c i).step ∧ (e'.record c i).param = (e.record c i).param) :
    newLocks c e' src dst = newLocks c e src dst := by
  refine List.filter_congr fun i hi => ?_
  rw [holdsKey_congr hd, (hs i hi).1, (hs i hi).2]

theorem lockedValue_congr {l : List PoolIx} {st id : Byte} (h : ∀ i ∈ l, e'.record c i = e.record c i) :
    lockedValue c e' l st id = lockedValue c e l st id := by
  induction l with
  | nil => rfl
  | cons i l ih =>
    have h0 := ih fun j hj => h j (by simp [hj])
    simp only [lockedValue, List.find?_cons, h i (by simp)] at h0 ⊢
    cases ((e.record c i).step == st && (e.record c i).param == id) with
    | true => simp [h i]
    | false => exact h0

theorem lockedValue_cons_hit {i : PoolIx} {l : List PoolIx} {st id : Byte}
    (h : (e.record c i).step = st ∧ (e.record c i).param = id) :
    lockedValue c e (i :: l) st id = some (e.record c i).value := by
  simp [lockedValue, h.1, h.2]

theorem lockedValue_cons_miss {i : PoolIx} {l : List PoolIx} {st id : Byte}
    (h : ¬((e.record c i).step = st ∧ (e.record c i).param = id)) :
    lockedValue c e (i :: l) st id = lockedValue c e l st id := by
  have : ((e.record c i).step == st && (e.record c i).param == id) = false := by
    rw [beq_eq_decide, beq_eq_decide, ← Bool.decide_and]
    exact decide_eq_false h
  simp only [lockedValue, List.find?_cons, this]

theorem lockedValue_none {l : List PoolIx} {st id : Byte}
    (h : ∀ i ∈ l, ¬((e.record c i).step = st ∧ (e.record c i).param = id)) : lockedValue c e l st id = none := by
  induction l with
  | nil => rfl
  | cons i l ih => rw [lockedValue_cons_miss (h i (by simp)), ih fun j hj => h j (by simp [hj])]

theorem newLocks_cons_held {i : PoolIx} {l dst : List PoolIx}
    (h : holdsKey c e dst (e.record c i).step (e.record c i).param = true) :
    newLocks c e (i :: l) dst = newLocks c e l dst := by
  simp [newLocks, h]

theorem newLocks_cons_new {i : PoolIx} {l dst : List PoolIx}
    (h : holdsKey c e dst (e.record c i).step (e.record c i).param = false) :
    newLocks c e (i :: l) dst = i :: newLocks c e l dst := by
  simp [newLocks, h]

/-- The walk of `CopyLocks` over the rest of a list, into another pattern. -/
theorem copyFrom_owned {v : VoiceIx} {p q : PatternIx} {done rest : List PoolIx} {fuel : Nat} {cur : PoolIx}
    {dropped : Nat} {acc : Status} (h : PoolOwned c e free own) (hpq : p ≠ q) (hl : own v p = done ++ rest)
    (hc : IsList c e cur rest) (hn : rest.length ≤ fuel) :
    ∃ e', copyFrom c v q fuel cur e dropped acc
        = .ok (if (newLocks c e rest (own v q)).length ≤ free.length then acc else .exhausted,
            dropped + ((newLocks c e rest (own v q)).length - free.length), e')
      ∧ PoolOwned c e' (free.drop (newLocks c e rest (own v q)).length)
          (setList own v q ((free.take (newLocks c e rest (own v q)).length).reverse ++ own v q))
      ∧ (∀ x ∈ (newLocks c e rest (own v q)).zip free, SameLock (e'.record c x.2) (e.record c x.1))
      ∧ (∀ j ∈ own v q, SameLock (e'.record c j)
          { e.record c j with
            value := (lockedValue c e rest (e.record c j).step (e.record c j).param).getD (e.record c j).value })
      ∧ (∀ j, j ∉ own v q → j ∉ free.take (newLocks c e rest (own v q)).length → e'.record c j = e.record c j)
      ∧ e' = { e with
          poolMem := e'.poolMem, freeHead := e'.freeHead, freeCount := e'.freeCount, lockHeadMem := e'.lockHeadMem,
          diag := if (newLocks c e rest (own v q)).length ≤ free.length then e.diag
                  else e.diag ||| diagPoolExhausted } := by
  induction rest generalizing e free own fuel cur dropped acc done with
  | nil =>
    have hcur : cur = sentinel := hc
    subst hcur
    refine ⟨e, ?_, ?_, ?_, ?_, fun j _ _ => rfl, ?_⟩
    · cases fuel <;> simp [copyFrom, newLocks]
    · have hself := setList_self (own := own) v q
      simpa [newLocks, hself] using h
    · simp [newLocks]
    · intro j _
      exact ⟨rfl, rfl, rfl⟩
    · simp [newLocks]
  | cons i rest ih =>
    obtain ⟨fuel, rfl⟩ : ∃ m, fuel = m + 1 := ⟨fuel - 1, by simp at hn; omega⟩
    have hcur : cur = i := hc.1
    subst hcur
    have hne := list_next_ne hc
    have hfuel : rest.length ≤ fuel := by simp at hn; omega
    have hnd := list_nodup hc
    have hcr : cur ∉ rest := (List.nodup_cons.1 hnd).1
    have hown : ∀ k, k ∈ cur :: rest → k ∈ own v p := fun k hk => by
      rw [hl]
      exact List.mem_append_right _ hk
    have hsrc : ∀ k, k ∈ cur :: rest → k ∉ own v q := fun k hk hkq =>
      hpq (h.single v p v q k (hown k hk) hkq).2
    have hkeys : ∀ k ∈ rest, ¬((e.record c k).step = (e.record c cur).step
        ∧ (e.record c k).param = (e.record c cur).param) := fun k hk hkk =>
      hcr ((h.keys v p k (hown k (by simp [hk])) cur (hown cur (by simp)) hkk.1 hkk.2) ▸ hk)
    have hop := h.operands v p cur (hown cur (by simp))
    rcases storeLock_owned (v := v) (p := q) (val := (e.record c cur).value) h hop.1 hop.2 with
      ⟨j, hj, hj1, hj2, hst, ho⟩ | ⟨hk, hf, hst⟩ | ⟨f, frest, hk, hf, hst, ho⟩
    · -- the destination has the key
      have hheld : holdsKey c e (own v q) (e.record c cur).step (e.record c cur).param = true :=
        List.any_eq_true.2 ⟨j, hj, by simp [hj1, hj2]⟩
      have hrec := fun k => record_setRecord e c j k { e.record c j with value := (e.record c cur).value }
      have hrec' : ∀ k, k ∈ cur :: rest →
          (e.setRecord c j { e.record c j with value := (e.record c cur).value }).record c k = e.record c k :=
        fun k hk => by rw [hrec, if_neg (show ¬k = j from fun hkj => hsrc k hk (hkj ▸ hj))]
      have hkey : ∀ k,
          ((e.setRecord c j { e.record c j with value := (e.record c cur).value }).record c k).step
              = (e.record c k).step
          ∧ ((e.setRecord c j { e.record c j with value := (e.record c cur).value }).record c k).param
              = (e.record c k).param
          ∧ ((e.setRecord c j { e.record c j with value := (e.record c cur).value }).record c k).next
              = (e.record c k).next := by
        intro k
        rw [hrec]
        split
        · rename_i hkj
          rw [hkj]
          exact ⟨rfl, rfl, rfl⟩
        · exact ⟨rfl, rfl, rfl⟩
      have hnew : newLocks c (e.setRecord c j { e.record c j with value := (e.record c cur).value }) rest (own v q)
          = newLocks c e rest (own v q) :=
        newLocks_congr (fun k _ => ⟨(hkey k).1, (hkey k).2.1⟩) fun k _ => ⟨(hkey k).1, (hkey k).2.1⟩
      have hlist : IsList c (e.setRecord c j { e.record c j with value := (e.record c cur).value })
          (e.record c cur).next rest := (path_congr fun k _ => (hkey k).2.2).2 hc.2.2.2
      obtain ⟨e', he, ho', h1, h2, h3, h4⟩ :=
        ih (done := done ++ [cur]) (dropped := dropped) (acc := acc) ho (by rw [hl]; simp) hlist hfuel
      rw [hnew] at he ho' h1 h3 h4
      rw [newLocks_cons_held hheld]
      refine ⟨e', ?_, ho', ?_, ?_, ?_, ?_⟩
      · simp only [copyFrom, if_neg hc.2.1, if_pos hc.2.2.1, hst, if_neg hne]
        exact he
      · intro x hx
        have hx1 : x.1 ∈ rest := (List.mem_filter.1 (List.of_mem_zip hx).1).1
        have := h1 x hx
        rwa [hrec' x.1 (by simp [hx1])] at this
      · intro k hk
        have hk2 := h2 k hk
        rw [(hkey k).1, (hkey k).2.1, lockedValue_congr fun m hm => hrec' m (by simp [hm])] at hk2
        by_cases hkj : k = j
        · subst hkj
          rw [lockedValue_none fun m hm hmk => hkeys m hm ⟨hmk.1.trans hj1, hmk.2.trans hj2⟩, hrec, if_pos rfl] at hk2
          rw [lockedValue_cons_hit ⟨hj1.symm, hj2.symm⟩]
          exact hk2
        · rw [hrec, if_neg hkj] at hk2
          rw [lockedValue_cons_miss fun hck => hkj
            (h.keys v q k hk j hj (hck.1.symm.trans hj1.symm) (hck.2.symm.trans hj2.symm))]
          exact hk2
      · intro k hk hkf
        rw [h3 k hk hkf, hrec, if_neg (show ¬k = j from fun hkj => hk (hkj ▸ hj))]
      · rw [h4]
        rfl
    · -- the pool is exhausted
      subst hf
      obtain ⟨e', he, ho', h1, h2, h3, h4⟩ :=
        ih (e := raiseDiag diagPoolExhausted e) (done := done ++ [cur]) (dropped := dropped + 1) (acc := .exhausted)
          (free := []) (own := own) (owned_congr h rfl rfl (fun _ _ => rfl) fun _ => ⟨rfl, rfl, rfl⟩)
          (by rw [hl]; simp) ((path_congr (e := e) (e' := raiseDiag diagPoolExhausted e) fun _ _ => rfl).2 hc.2.2.2)
          hfuel
      have hnew : newLocks c (raiseDiag diagPoolExhausted e) rest (own v q) = newLocks c e rest (own v q) := rfl
      rw [hnew] at he ho' h1 h3 h4
      rw [newLocks_cons_new hk]
      refine ⟨e', ?_, ?_, ?_, ?_, ?_, ?_⟩
      · simp only [copyFrom, if_neg hc.2.1, if_pos hc.2.2.1, hst, if_neg hne]
        rw [he]
        simp only [List.length_nil, List.length_cons, Nat.le_zero, Nat.sub_zero, Nat.add_one_ne_zero, if_false,
          ite_self]
        congr 3
        omega
      · simpa using ho'
      · simp
      · intro k hk'
        rw [lockedValue_cons_miss]
        · exact h2 k hk'
        · intro hck
          have : holdsKey c e (own v q) (e.record c cur).step (e.record c cur).param = true :=
            List.any_eq_true.2 ⟨k, hk', by simp [hck.1, hck.2]⟩
          rw [hk] at this
          exact absurd this (by simp)
      · intro k hk' _
        exact h3 k hk' (by simp)
      · rw [h4]
        simp only [raiseDiag, List.length_nil, List.length_cons, Nat.le_zero, Nat.add_one_ne_zero, if_false,
          BitVec.or_assoc, BitVec.or_self, ite_self]
    · -- a free record is taken
      subst hf
      have hfo : ∀ v' p', f ∉ own v' p' := fun v' p' hfo => h.apart v' p' f hfo (by simp)
      have hff : f ∉ frest := (List.nodup_cons.1 (list_nodup h.freeList)).1
      have hrec := fun k => record_pushed (c := c) (e := e) v q f k (e.record c cur).step (e.record c cur).param
        (e.record c cur).value
      have hrec' : ∀ k, k ≠ f → (pushed c e v q f (e.record c cur).step (e.record c cur).param
          (e.record c cur).value).record c k = e.record c k := fun k hk => by rw [hrec, if_neg hk]
      have hself : (pushed c e v q f (e.record c cur).step (e.record c cur).param
          (e.record c cur).value).record c f
          = ⟨(e.record c cur).param, (e.record c cur).step, (e.record c cur).value, e.lockHead v q⟩ := by
        rw [hrec, if_pos rfl]
      have hsrcf : ∀ k, k ∈ cur :: rest → k ≠ f := fun k hk hkf => hfo v p (hkf ▸ hown k hk)
      have hp' : setList own v q (f :: own v q) v p = own v p := setList_other fun hh => hpq hh.2
      have hnew : newLocks c (pushed c e v q f (e.record c cur).step (e.record c cur).param (e.record c cur).value) rest
          (f :: own v q) = newLocks c e rest (own v q) := by
        refine List.filter_congr fun k hk => ?_
        rw [hrec' k (hsrcf k (by simp [hk]))]
        congr 1
        rw [holdsKey, List.any_cons, hself]
        have hno : ((e.record c cur).step == (e.record c k).step && (e.record c cur).param == (e.record c k).param)
            = false := by
          rw [beq_eq_decide, beq_eq_decide, ← Bool.decide_and]
          exact decide_eq_false fun hh => hkeys k hk ⟨hh.1.symm, hh.2.symm⟩
        rw [hno, Bool.false_or]
        exact holdsKey_congr fun m hm => by rw [hrec' m fun hmf => hfo v q (hmf ▸ hm)]; exact ⟨rfl, rfl⟩
      have hlist : IsList c (pushed c e v q f (e.record c cur).step (e.record c cur).param (e.record c cur).value)
          (e.record c cur).next rest :=
        (path_congr fun k hk => by rw [hrec' k (hsrcf k (by simp [hk]))]).2 hc.2.2.2
      obtain ⟨e', he, ho', h1, h2, h3, h4⟩ :=
        ih (done := done ++ [cur]) (dropped := dropped) (acc := acc) ho (by rw [hp', hl]; simp) hlist hfuel
      rw [setList_same] at he ho' h1 h2 h3 h4
      rw [hnew] at he ho' h1 h3 h4
      rw [newLocks_cons_new hk]
      have hlv : ∀ st id, lockedValue c (pushed c e v q f (e.record c cur).step (e.record c cur).param
          (e.record c cur).value) rest st id = lockedValue c e rest st id := fun st id =>
        lockedValue_congr fun m hm => hrec' m (hsrcf m (by simp [hm]))
      refine ⟨e', ?_, ?_, ?_, ?_, ?_, ?_⟩
      · simp only [copyFrom, if_neg hc.2.1, if_pos hc.2.2.1, hst, if_neg hne]
        rw [he]
        simp
      · rw [setList_setList] at ho'
        simpa using ho'
      · intro x hx
        rw [List.zip_cons_cons] at hx
        rcases List.mem_cons.1 hx with rfl | hx
        · have := h2 f (by simp)
          rw [hself, hlv, lockedValue_none fun m hm hmk => hkeys m hm hmk] at this
          exact this
        · have hx1 : x.1 ∈ rest := (List.mem_filter.1 (List.of_mem_zip hx).1).1
          have := h1 x hx
          rwa [hrec' x.1 (hsrcf x.1 (by simp [hx1]))] at this
      · intro k hk'
        have hkf : k ≠ f := fun hkf => hfo v q (hkf ▸ hk')
        have := h2 k (by simp [hk'])
        rw [hrec' k hkf, hlv] at this
        rw [lockedValue_cons_miss]
        · exact this
        · intro hck
          have : holdsKey c e (own v q) (e.record c cur).step (e.record c cur).param = true :=
            List.any_eq_true.2 ⟨k, hk', by simp [hck.1, hck.2]⟩
          rw [hk] at this
          exact absurd this (by simp)
      · intro k hk' hkt
        simp only [List.length_cons, List.take_succ_cons, List.mem_cons, not_or] at hkt
        rw [h3 k (by simp [hkt.1, hk']) hkt.2, hrec' k hkt.1]
      · rw [h4]
        simp only [pushed, Engine.setRecord, Engine.setLockHead, List.length_cons, Nat.add_le_add_iff_right]

/-- All that `copyLocks` does to a sound pool, between two patterns. -/
theorem copyLocks_owned {v : VoiceIx} {p q : PatternIx} (h : PoolOwned c e free own) (hpq : p ≠ q) :
    ∃ e', copyLocks c e v p q
        = .ok (if (newLocks c e (own v p) (own v q)).length ≤ free.length then .ok else .exhausted,
            (newLocks c e (own v p) (own v q)).length - free.length, e')
      ∧ PoolOwned c e' (free.drop (newLocks c e (own v p) (own v q)).length)
          (setList own v q ((free.take (newLocks c e (own v p) (own v q)).length).reverse ++ own v q))
      ∧ (∀ x ∈ (newLocks c e (own v p) (own v q)).zip free, SameLock (e'.record c x.2) (e.record c x.1))
      ∧ (∀ j ∈ own v q, SameLock (e'.record c j)
          { e.record c j with
            value := (lockedValue c e (own v p) (e.record c j).step (e.record c j).param).getD (e.record c j).value })
      ∧ (∀ j, j ∉ own v q → j ∉ free.take (newLocks c e (own v p) (own v q)).length →
          e'.record c j = e.record c j)
      ∧ e' = { e with
          poolMem := e'.poolMem, freeHead := e'.freeHead, freeCount := e'.freeCount, lockHeadMem := e'.lockHeadMem,
          diag := if (newLocks c e (own v p) (own v q)).length ≤ free.length then e.diag
                  else e.diag ||| diagPoolExhausted } := by
  obtain ⟨e', he, ho⟩ := copyFrom_owned (done := []) (dropped := 0) (acc := .ok) h hpq rfl (h.lists v p)
    (list_length_le (h.lists v p))
  exact ⟨e', by simpa [copyLocks] using he, ho⟩

/-- The walk of `CopyLocks` of a list onto itself: every record rewrites the value it has. -/
theorem copyFrom_self {v : VoiceIx} {p : PatternIx} {done rest : List PoolIx} {fuel : Nat} {cur : PoolIx}
    {dropped : Nat} {acc : Status} (h : PoolOwned c e free own) (hl : own v p = done ++ rest)
    (hc : IsList c e cur rest) (hn : rest.length ≤ fuel) :
    ∃ e', copyFrom c v p fuel cur e dropped acc = .ok (acc, dropped, e')
      ∧ PoolOwned c e' free own ∧ (∀ j, e'.record c j = e.record c j) ∧ e' = { e with poolMem := e'.poolMem } := by
  induction rest generalizing e fuel cur dropped acc done with
  | nil =>
    have hcur : cur = sentinel := hc
    subst hcur
    refine ⟨e, ?_, h, fun _ => rfl, rfl⟩
    cases fuel <;> simp [copyFrom]
  | cons i rest ih =>
    obtain ⟨fuel, rfl⟩ : ∃ m, fuel = m + 1 := ⟨fuel - 1, by simp at hn; omega⟩
    have hcur : cur = i := hc.1
    subst hcur
    have hne := list_next_ne hc
    have hfuel : rest.length ≤ fuel := by simp at hn; omega
    have hmem : cur ∈ own v p := by rw [hl]; simp
    have hop := h.operands v p cur hmem
    rcases storeLock_owned (v := v) (p := p) (val := (e.record c cur).value) h hop.1 hop.2 with
      ⟨j, hj, hj1, hj2, hst, ho⟩ | ⟨hk, _, _⟩ | ⟨f, frest, hk, _, _, _⟩
    · have hjc : j = cur := h.keys v p j hj cur hmem hj1 hj2
      subst hjc
      have hrec : ∀ k, (e.setRecord c j { e.record c j with value := (e.record c j).value }).record c k
          = e.record c k := fun k => by
        rw [record_setRecord]
        split
        · rename_i hkj
          rw [hkj]
        · rfl
      obtain ⟨e', he, ho', h1, h2⟩ := ih (done := done ++ [j]) (dropped := dropped) (acc := acc) ho (by rw [hl]; simp)
        ((path_congr fun k _ => by rw [hrec k]).2 hc.2.2.2) hfuel
      refine ⟨e', ?_, ho', fun k => (h1 k).trans (hrec k), ?_⟩
      · simp only [copyFrom, if_neg hc.2.1, if_pos hc.2.2.1, hst, if_neg hne]
        exact he
      · rw [h2]
        rfl
    all_goals
      have : holdsKey c e (own v p) (e.record c cur).step (e.record c cur).param = true :=
        List.any_eq_true.2 ⟨cur, hmem, by simp⟩
      rw [hk] at this
      exact absurd this (by simp)

/-- `copyLocks` of a pattern onto itself changes no record. -/
theorem copyLocks_self {v : VoiceIx} {p : PatternIx} (h : PoolOwned c e free own) :
    ∃ e', copyLocks c e v p p = .ok (.ok, 0, e')
      ∧ PoolOwned c e' free own ∧ (∀ j, e'.record c j = e.record c j) ∧ e' = { e with poolMem := e'.poolMem } :=
  copyFrom_self (done := []) h rfl (h.lists v p) (list_length_le (h.lists v p))

end Sys2Proof.Laws
end

