-- ==== Sys2Proof/Laws/Corrupt.lean ====
section
/-!
SUPPORT. What the walks that write do on a corrupt chain, said once: `clearFrom`, `removeFrom`, `copyFrom`
(41_params_locks.md R117 to R119; 60_exceptions.md R222).
-/

namespace Sys2Proof.Laws

open Sys2Proof.Machine

variable {c : Config} {e : Engine}

/-- Why a walk that stands at `stop` with `fuel` records still allowed, after the records `l`, cannot end well. -/
theorem corrupt_tail {i stop : PoolIx} {l : List PoolIx} {fuel : Nat}
    (hc : poolIxInRange c stop = false ∨ (i :: l).getLast? = some stop ∨ (i :: l).length = fuel + 1)
    (hi : ¬(l = [] ∧ i = stop)) : poolIxInRange c stop = false ∨ l.getLast? = some stop ∨ l.length = fuel := by
  cases l with
  | nil =>
    rcases hc with hc | hc | hc
    · exact .inl hc
    · exact absurd ⟨rfl, by simpa using hc⟩ hi
    · exact .inr (.inr (by simp at hc; simp [hc]))
  | cons j l =>
    rcases hc with hc | hc | hc
    · exact .inl hc
    · exact .inr (.inl (by simpa [List.getLast?_cons_cons] using hc))
    · exact .inr (.inr (by simpa using hc))

/-- Along a path without repeats only the last record may link to itself, and then the path stops at it. -/
theorem path_self {i stop : PoolIx} {l : List PoolIx} (h : LockPath c e i (i :: l) stop) (hn : (i :: l).Nodup) :
    (e.record c i).next = i ↔ l = [] ∧ i = stop := by
  cases l with
  | nil =>
    have h3 : (e.record c i).next = stop := h.2.2.2
    rw [h3]
    exact ⟨fun h => ⟨rfl, h.symm⟩, fun h => h.2.symm⟩
  | cons j l =>
    have h3 : (e.record c i).next = j := h.2.2.2.1
    rw [h3]
    constructor
    · rintro rfl
      simp at hn
    · exact fun h => absurd h.1 (by simp)

/-- `clearFrom` on a corrupt chain of distinct records frees each of them. -/
theorem clearFrom_corrupt {l : List PoolIx} {fuel : Nat} {cur stop : PoolIx} {n : Nat} (h : LockPath c e cur l stop)
    (hn : l.Nodup) (hs : stop ≠ sentinel) (hf : l.length ≤ fuel)
    (hc : poolIxInRange c stop = false ∨ l.getLast? = some stop ∨ l.length = fuel) :
    ∃ e', clearFrom c fuel cur e n = (.cycle, n + l.length, raiseDiag diagListCycle e')
      ∧ e' = { e with
          poolMem := e'.poolMem, freeHead := e'.freeHead, freeCount := e.freeCount + BitVec.ofNat 16 l.length }
      ∧ LockPath c e' e'.freeHead l.reverse e.freeHead
      ∧ (∀ i, SameLock (e'.record c i) (e.record c i))
      ∧ ∀ i, i ∉ l → e'.record c i = e.record c i := by
  induction l generalizing fuel cur e n with
  | nil =>
    have h0 : cur = stop := h
    subst h0
    refine ⟨e, ?_, by simp, path_nil.2 rfl, fun i => sameLock_refl _, fun i _ => rfl⟩
    cases fuel with
    | zero => simp [clearFrom, hs]
    | succ fuel =>
      have hr : poolIxInRange c cur = false := by simpa using hc
      simp [clearFrom, hs, hr]
  | cons i l ih =>
    have hci : cur = i := h.1
    subst hci
    obtain ⟨hil, hnl⟩ := List.nodup_cons.1 hn
    cases fuel with
    | zero => simp at hf
    | succ fuel =>
      have hself := path_self h hn
      have hcnt : e.freeCount + BitVec.ofNat 16 (l.length + 1) = e.freeCount + 1#16 + BitVec.ofNat 16 l.length := by
        apply BitVec.eq_of_toNat_eq
        simp only [BitVec.toNat_add, BitVec.toNat_ofNat]
        omega
      simp only [clearFrom, if_neg h.2.1, if_pos h.2.2.1]
      by_cases hlast : l = [] ∧ cur = stop
      · rw [if_pos (hself.2 hlast)]
        obtain ⟨rfl, rfl⟩ := hlast
        refine ⟨release c e cur, rfl, rfl, ⟨rfl, h.2.1, h.2.2.1, ?_⟩, fun i => ?_, fun i hi => ?_⟩
        · rw [record_release, if_pos rfl]
          rfl
        · rw [record_release]
          split
          · rename_i hi
            rw [hi]
            exact ⟨rfl, rfl, rfl⟩
          · exact sameLock_refl _
        · rw [record_release, if_neg (by simpa using hi)]
      · rw [if_neg fun h => hlast (hself.1 h)]
        have hpath : LockPath c (release c e cur) (e.record c cur).next l stop := by
          refine (path_congr fun j hj => ?_).2 h.2.2.2
          rw [record_release, if_neg (ne_of_mem_of_not_mem hj hil)]
        obtain ⟨e', h1, h2, h3, h4, h5⟩ :=
          ih (n := n + 1) hpath hnl (by simpa using hf) (corrupt_tail hc hlast)
        refine ⟨e', ?_, ?_, ?_, fun j => ?_, fun j hj => ?_⟩
        · rw [h1, List.length_cons, Nat.add_assoc, Nat.add_comm 1]
        · rw [h2, List.length_cons, hcnt]
          rfl
        · rw [List.reverse_cons, path_append]
          refine ⟨cur, h3, rfl, h.2.1, h.2.2.1, ?_⟩
          rw [h5 cur hil, record_release, if_pos rfl]
          rfl
        · refine sameLock_trans (h4 j) ?_
          rw [record_release]
          split
          · rename_i hi
            rw [hi]
            exact ⟨rfl, rfl, rfl⟩
          · exact sameLock_refl _
        · simp only [List.mem_cons, not_or] at hj
          rw [h5 j hj.2, record_release, if_neg hj.1]

/-- The records of a corrupt chain that `removeFrom` passes: all but one that links to itself. -/
def passed (l : List PoolIx) (stop : PoolIx) : List PoolIx := if l.getLast? = some stop then l.dropLast else l

theorem passed_cons {i stop : PoolIx} {l : List PoolIx} (h : ¬(l = [] ∧ i = stop)) :
    passed (i :: l) stop = i :: passed l stop := by
  cases l with
  | nil =>
    have : i ≠ stop := fun hi => h ⟨rfl, hi⟩
    simp [passed, this]
  | cons j l =>
    simp only [passed, List.getLast?_cons_cons]
    split <;> rfl

theorem passed_subset {i stop : PoolIx} {l : List PoolIx} (h : i ∈ passed l stop) : i ∈ l := by
  rw [passed] at h
  split at h
  · exact List.mem_of_mem_dropLast h
  · exact h

/-- Where the walk's next record hangs: on the record before, or on the head. -/
def linkOf (c : Config) (e : Engine) (v : VoiceIx) (p : PatternIx) (prev : PoolIx) : PoolIx :=
  if prev = sentinel then e.lockHead v p else (e.record c prev).next

/-- `removeFrom` on a corrupt chain of distinct records, none of them `prev`: it frees those of the step that it passes
and keeps the others in order before the corrupt link. -/
theorem removeFrom_corrupt {v : VoiceIx} {p : PatternIx} {st : Byte} {l : List PoolIx} {fuel : Nat}
    {prev cur stop : PoolIx} {n : Nat} (h : LockPath c e cur l stop) (hn : l.Nodup) (hs : stop ≠ sentinel)
    (hf : l.length ≤ fuel) (hc : poolIxInRange c stop = false ∨ l.getLast? = some stop ∨ l.length = fuel)
    (hp : prev ∉ l) (hl : linkOf c e v p prev = cur) :
    ∃ (e' : Engine) (removed kept : List PoolIx),
      removed = (passed l stop).filter (fun i => (e.record c i).step == st)
      ∧ kept = (passed l stop).filter (fun i => !((e.record c i).step == st))
      ∧ removeFrom c v p st fuel prev cur e n = (.cycle, n + removed.length, raiseDiag diagListCycle e')
      ∧ e' = { e with
          poolMem := e'.poolMem, freeHead := e'.freeHead, freeCount := e.freeCount + BitVec.ofNat 16 removed.length,
          lockHeadMem := e'.lockHeadMem }
      ∧ (∀ v' p', ¬(v' = v ∧ p' = p ∧ prev = sentinel) → e'.lockHead v' p' = e.lockHead v' p')
      ∧ LockPath c e' (linkOf c e' v p prev) kept stop
      ∧ LockPath c e' e'.freeHead removed.reverse e.freeHead
      ∧ (∀ i, SameLock (e'.record c i) (e.record c i))
      ∧ ∀ i, i ∉ passed l stop → i ≠ prev ∨ prev = sentinel → e'.record c i = e.record c i := by
  induction l generalizing fuel prev cur e n with
  | nil =>
    have h0 : cur = stop := h
    subst h0
    refine ⟨e, [], [], rfl, rfl, ?_, by simp, fun _ _ _ => rfl, path_nil.2 hl, path_nil.2 rfl, fun i => sameLock_refl _,
      fun i _ _ => rfl⟩
    cases fuel with
    | zero => simp [removeFrom, hs]
    | succ fuel =>
      have hr : poolIxInRange c cur = false := by simpa using hc
      simp [removeFrom, hs, hr]
  | cons i l ih =>
    have hci : cur = i := h.1
    subst hci
    obtain ⟨hil, hnl⟩ := List.nodup_cons.1 hn
    simp only [List.mem_cons, not_or] at hp
    cases fuel with
    | zero => simp at hf
    | succ fuel =>
      have hself := path_self h hn
      simp only [removeFrom, if_neg h.2.1, if_pos h.2.2.1]
      by_cases hlast : l = [] ∧ cur = stop
      · rw [if_pos (hself.2 hlast)]
        obtain ⟨rfl, rfl⟩ := hlast
        exact ⟨e, [], [], by simp [passed], by simp [passed], rfl, by simp, fun _ _ _ => rfl, path_nil.2 hl,
          path_nil.2 rfl, fun i => sameLock_refl _, fun i _ _ => rfl⟩
      · rw [if_neg fun h => hlast (hself.1 h), passed_cons hlast]
        have hcl := corrupt_tail hc hlast
        have hfl : l.length ≤ fuel := by simpa using hf
        by_cases hst : (e.record c cur).step = st
        · -- the record is unlinked and released
          rw [if_pos hst]
          have hrec : ∀ j, (release c (unlink c e v p prev (e.record c cur).next) cur).record c j
              = if j = cur then { e.record c cur with next := e.freeHead }
                else if j = prev ∧ prev ≠ sentinel then { e.record c j with next := (e.record c cur).next }
                else e.record c j := by
            intro j
            have hcp : ¬(cur = prev ∧ prev ≠ sentinel) := fun h => hp.1 h.1.symm
            rw [record_release, record_unlink, record_unlink, freeHead_unlink, if_neg hcp]
          have hsame := sameLock_unlinkRelease (c := c) (e := e) v p prev (e.record c cur).next cur
          have hlock : ∀ v' p', (release c (unlink c e v p prev (e.record c cur).next) cur).lockHead v' p'
              = if v' = v ∧ p' = p ∧ prev = sentinel then (e.record c cur).next else e.lockHead v' p' :=
            fun v' p' => lockHead_unlink v v' p p' prev _
          have heq : release c (unlink c e v p prev (e.record c cur).next) cur
              = { e with
                  poolMem := (release c (unlink c e v p prev (e.record c cur).next) cur).poolMem, freeHead := cur,
                  freeCount := e.freeCount + 1#16,
                  lockHeadMem := (release c (unlink c e v p prev (e.record c cur).next) cur).lockHeadMem } := by
            rw [release_eq, unlink_eq]
          generalize release c (unlink c e v p prev (e.record c cur).next) cur = e1 at hrec hsame hlock heq ⊢
          have hfree : e1.freeHead = cur := by rw [heq]
          have hcount : e1.freeCount = e.freeCount + 1#16 := by rw [heq]
          have hpath : LockPath c e1 (e.record c cur).next l stop := by
            refine (path_congr fun j hj => ?_).2 h.2.2.2
            rw [hrec, if_neg (ne_of_mem_of_not_mem hj hil), if_neg fun hjp => ne_of_mem_of_not_mem hj hp.2 hjp.1]
          have hlink : linkOf c e1 v p prev = (e.record c cur).next := by
            rw [linkOf]
            split
            · rename_i hps
              rw [hlock, if_pos ⟨rfl, rfl, hps⟩]
            · rename_i hps
              rw [hrec, if_neg hp.1, if_pos ⟨rfl, hps⟩]
          have hstep : ∀ j, (e1.record c j).step = (e.record c j).step := fun j => (hsame j).2.1
          obtain ⟨e', removed, kept, hr, hk, g1, g2, g3, g4, g5, g6, g7⟩ :=
            ih (n := n + 1) hpath hnl hfl hcl hp.2 hlink
          simp only [hstep] at hr hk
          refine ⟨e', cur :: removed, kept, by simp [hst, hr], by simp [hst, hk], ?_, ?_, fun v' p' hv => ?_, g4, ?_,
            fun j => sameLock_trans (g6 j) (hsame j), fun j hj hjp => ?_⟩
          · rw [g1, List.length_cons, Nat.add_assoc, Nat.add_comm 1]
          · have hcnt : e.freeCount + BitVec.ofNat 16 (removed.length + 1)
                = e1.freeCount + BitVec.ofNat 16 removed.length := by
              rw [hcount]
              apply BitVec.eq_of_toNat_eq
              simp only [BitVec.toNat_add, BitVec.toNat_ofNat]
              omega
            rw [List.length_cons, hcnt]
            exact g2.trans (by rw [heq])
          · rw [g3 v' p' hv, hlock, if_neg hv]
          · rw [List.reverse_cons, path_append]
            refine ⟨cur, hfree ▸ g5, rfl, h.2.1, h.2.2.1, ?_⟩
            rw [g7 cur (fun hm => hil (passed_subset hm)) (.inl fun h => hp.1 h.symm), hrec, if_pos rfl, path_nil]
          · simp only [List.mem_cons, not_or] at hj
            rw [g7 j hj.2 hjp, hrec, if_neg hj.1, if_neg]
            rcases hjp with hjp | hjp
            · exact fun h => hjp h.1
            · exact fun h => h.2 hjp
        · -- the record stays
          rw [if_neg hst]
          obtain ⟨e', removed, kept, hr, hk, g1, g2, g3, g4, g5, g6, g7⟩ :=
            ih (n := n) h.2.2.2 hnl hfl hcl hil (by rw [linkOf, if_neg h.2.1])
          have hlock : ∀ v' p', e'.lockHead v' p' = e.lockHead v' p' := fun v' p' => g3 v' p' fun h' => h.2.1 h'.2.2
          refine ⟨e', removed, cur :: kept, by simp [hst, hr], by simp [hst, hk], g1, g2, fun v' p' _ => hlock v' p', ?_,
            g5, g6, fun j hj hjp => ?_⟩
          · have : linkOf c e' v p prev = cur := by
              rw [← hl, linkOf, linkOf]
              split
              · exact hlock v p
              · rw [g7 prev (fun hm => hp.2 (passed_subset hm)) (.inl hp.1)]
            refine ⟨this, h.2.1, h.2.2.1, ?_⟩
            rw [linkOf, if_neg h.2.1] at g4
            exact g4
          · simp only [List.mem_cons, not_or] at hj
            exact g7 j hj.2 (.inl hj.1)

/-- `copyFrom` over records that it replays: the walk goes on from where they end, unless the last links to itself. -/
theorem copyFrom_replays {v : VoiceIx} {q : PatternIx} {l : List PoolIx} {fuel : Nat} {cur stop : PoolIx}
    {n dropped : Nat} {acc : Status} {e' : Engine} (h : Replays c v q e cur l dropped e' stop)
    (hf : l.length ≤ fuel) :
    if l.getLast? = some stop then
      copyFrom c v q fuel cur e n acc = .ok (.cycle, n + dropped, raiseDiag diagListCycle e')
    else ∃ acc', copyFrom c v q fuel cur e n acc = copyFrom c v q (fuel - l.length) stop e' (n + dropped) acc' := by
  induction l generalizing fuel cur e n dropped acc with
  | nil =>
    obtain ⟨rfl, rfl, rfl⟩ := h
    exact ⟨acc, rfl⟩
  | cons i l ih =>
    obtain ⟨rfl, hi, hr, hself, st, e1, m, hst, hne, rfl, h⟩ := h
    cases fuel with
    | zero => simp at hf
    | succ fuel =>
      have hfl : l.length ≤ fuel := by simpa using hf
      have hlen : fuel + 1 - (cur :: l).length = fuel - l.length := by simp
      rw [hlen]
      by_cases hcyc : (e.record c cur).next = cur
      · -- the record links to itself: it is the last
        have := hself hcyc
        subst this
        obtain ⟨rfl, rfl, rfl⟩ := h
        rw [if_pos (by simp [hcyc])]
        simp only [copyFrom, if_neg hi, if_pos hr, hst]
        cases st <;> simp_all
      · have hlast : (cur :: l).getLast? = some stop ↔ l.getLast? = some stop := by
          cases l with
          | nil =>
            obtain ⟨_, _, rfl⟩ := h
            simpa using fun h => hcyc (Eq.symm h)
          | cons j l => simp [List.getLast?_cons_cons]
        have key : ∀ k acc', copyFrom c v q (fuel + 1) cur e n acc
              = copyFrom c v q fuel (e.record c cur).next e1 (n + k) acc' →
            if (cur :: l).getLast? = some stop then
              copyFrom c v q (fuel + 1) cur e n acc = .ok (.cycle, n + (m + k), raiseDiag diagListCycle e')
            else ∃ a, copyFrom c v q (fuel + 1) cur e n acc
              = copyFrom c v q (fuel - l.length) stop e' (n + (m + k)) a := by
          intro k acc' hstep
          simp only [hlast]
          rw [hstep, show n + (m + k) = n + k + m by omega]
          exact ih h hfl
        by_cases hex : st = .exhausted
        · subst hex
          refine key 1 .exhausted ?_
          simp only [copyFrom, if_neg hi, if_pos hr, hst, if_neg hcyc]
        · rw [if_neg hex]
          refine key 0 acc ?_
          simp only [copyFrom, if_neg hi, if_pos hr, hst]
          cases st <;> simp_all

end Sys2Proof.Laws
end

