-- ==== Sys2Proof/Laws/Notes.lean ====
section
/-!
SUPPORT. The note counts: `setNote` keeps every stored count equal to the number of active steps (42_patterns.md R126).
-/

namespace Sys2Proof.Laws

open Sys2Proof.Machine

/-- Counting after one flag of a row has changed. -/
theorem countP_range_change {f g : Nat → Bool} {k : Nat} (h : ∀ i, i ≠ k → g i = f i) (n : Nat) :
    (List.range n).countP g + (if k < n then (f k).toNat else 0)
      = (List.range n).countP f + (if k < n then (g k).toNat else 0) := by
  induction n with
  | zero => simp
  | succ n ih =>
    rw [List.range_succ, List.countP_append, List.countP_append]
    simp only [List.countP_singleton]
    by_cases hk : k = n
    · subst hk
      simp only [lt_self_iff_false, if_false, Nat.add_zero] at ih
      rw [ih]
      cases f k <;> cases g k <;> simp
    · rw [h n (Ne.symm hk)]
      have h1 : k < n + 1 ↔ k < n := ⟨fun h => by omega, fun h => by omega⟩
      simp only [h1]
      omega

theorem activeSteps_le (e : Engine) (v : VoiceIx) (p : PatternIx) : activeSteps e v p ≤ 64 := by
  have := List.countP_le_length (p := fun i => (e.note v p (BitVec.ofNat 6 i)).getLsbD 7) (l := List.range maxSteps)
  simpa [activeSteps, maxSteps] using this

theorem activeSteps_congr {e e' : Engine} {v v' : VoiceIx} {p p' : PatternIx}
    (h : ∀ st, e'.note v' p' st = e.note v p st) : activeSteps e' v' p' = activeSteps e v p := by
  simp only [activeSteps, h]

/-- The active bit of a byte as a number. -/
theorem active_toNat (b : Byte) : ((b.extractLsb' 7 1).setWidth 7).toNat = (b.getLsbD 7).toNat := by
  revert b
  decide

theorem activeSteps_setNote (e : Engine) (v : VoiceIx) (p : PatternIx) (st : StepIx) (b : Byte) :
    activeSteps (setNote e v p st b) v p + ((e.note v p st).getLsbD 7).toNat
      = activeSteps e v p + (b.getLsbD 7).toNat := by
  have hst : BitVec.ofNat 6 st.toNat = st := by simp
  have key : ∀ i ∈ List.range maxSteps, i ≠ st.toNat →
      ((setNote e v p st b).note v p (BitVec.ofNat 6 i)).getLsbD 7 = (e.note v p (BitVec.ofNat 6 i)).getLsbD 7 := by
    intro i hi hne
    rw [note_setNote, if_neg]
    rintro ⟨_, _, h⟩
    rw [List.mem_range, maxSteps] at hi
    apply hne
    rw [← h]
    simp
    omega
  have h := countP_range_change
    (f := fun i => if i = st.toNat then (e.note v p st).getLsbD 7
      else ((setNote e v p st b).note v p (BitVec.ofNat 6 i)).getLsbD 7)
    (g := fun i => ((setNote e v p st b).note v p (BitVec.ofNat 6 i)).getLsbD 7) (k := st.toNat)
    (fun i hi => by simp [hi]) maxSteps
  have hlt : st.toNat < maxSteps := st.isLt
  simp only [if_pos hlt, if_true, hst] at h
  have hf : (List.range maxSteps).countP (fun i => if i = st.toNat then (e.note v p st).getLsbD 7
      else ((setNote e v p st b).note v p (BitVec.ofNat 6 i)).getLsbD 7) = activeSteps e v p := by
    refine List.countP_congr fun i hi => ?_
    by_cases hk : i = st.toNat
    · simp [hk]
    · simp only [if_neg hk, key i hi hk]
  rw [hf, note_setNote, if_pos ⟨rfl, rfl, rfl⟩] at h
  exact h

/-- `setNote` keeps every note count right. -/
theorem noteCountsRight_setNote {e : Engine} (h : NoteCountsRight e) (v : VoiceIx) (p : PatternIx) (st : StepIx)
    (b : Byte) : NoteCountsRight (setNote e v p st b) := by
  intro v' p'
  rw [noteCount_setNote]
  by_cases hvp : v' = v ∧ p' = p
  · rw [if_pos hvp, hvp.1, hvp.2]
    have h1 := activeSteps_setNote e v p st b
    have h2 := h v p
    have h3 := activeSteps_le (setNote e v p st b) v p
    have h4 := activeSteps_le e v p
    have h5 := active_toNat b
    have h6 := active_toNat (e.note v p st)
    have h7 := Bool.toNat_le (b.getLsbD 7)
    have h8 := Bool.toNat_le ((e.note v p st).getLsbD 7)
    rw [BitVec.toNat_sub, BitVec.toNat_add, h5, h6, h2]
    omega
  · rw [if_neg hvp, h v' p']
    refine (activeSteps_congr fun st' => ?_).symm
    rw [note_setNote, if_neg fun hh => hvp ⟨hh.1, hh.2.1⟩]

end Sys2Proof.Laws
end

