-- ==== Sys2Proof/Laws/PerInstr.lean ====
section
/-!
SUPPORT. Statements for every command, one lemma a constructor. `EncodesItsRow`: a command's word is a word of its row
of the opcode map (30_encoding.md R81, R82, R85, R86); each lemma lays the word, the mask and the row's bits side by
side, field by field.
-/

namespace Sys2Proof.Laws

/-- The word of the command is a word of its row. -/
def EncodesItsRow.Statement (i : Instr) : Prop := encode i &&& (rowOf i).mask = (rowOf i).bits

theorem EncodesItsRow.nop : EncodesItsRow.Statement .nop :=
  rfl

theorem EncodesItsRow.paramWr (v id val) : EncodesItsRow.Statement (.paramWr v id val) := by
  show (0x01#5 ++ v ++ 0#10 ++ id ++ val)
    &&& (0x1F#5 ++ 0#4 ++ 0x3FF#10 ++ 0#5 ++ 0#8)
      = 0x01#5 ++ 0#4 ++ 0#10 ++ 0#5 ++ 0#8
  iterate 4 rw [BitVec.and_append]
  simp only [BitVec.and_zero]
  rfl

theorem EncodesItsRow.paramRd (v id) : EncodesItsRow.Statement (.paramRd v id) := by
  show (0x02#5 ++ v ++ 0#10 ++ id ++ 0#8)
    &&& (0x1F#5 ++ 0#4 ++ 0x3FF#10 ++ 0#5 ++ 0xFF#8)
      = 0x02#5 ++ 0#4 ++ 0#10 ++ 0#5 ++ 0#8
  iterate 4 rw [BitVec.and_append]
  simp only [BitVec.and_zero]
  rfl

theorem EncodesItsRow.resolve (v p st id) : EncodesItsRow.Statement (.resolve v p st id) := by
  show (0x03#5 ++ v ++ p ++ st ++ id ++ 0#8)
    &&& (0x1F#5 ++ 0#4 ++ 0#4 ++ 0#6 ++ 0#5 ++ 0xFF#8)
      = 0x03#5 ++ 0#4 ++ 0#4 ++ 0#6 ++ 0#5 ++ 0#8
  iterate 5 rw [BitVec.and_append]
  simp only [BitVec.and_zero]
  rfl

theorem EncodesItsRow.lockSt (v p st id val) : EncodesItsRow.Statement (.lockSt v p st id val) := by
  show (0x04#5 ++ v ++ p ++ st ++ id ++ val)
    &&& (0x1F#5 ++ 0#4 ++ 0#4 ++ 0#6 ++ 0#5 ++ 0#8)
      = 0x04#5 ++ 0#4 ++ 0#4 ++ 0#6 ++ 0#5 ++ 0#8
  iterate 5 rw [BitVec.and_append]
  simp only [BitVec.and_zero]
  rfl

theorem EncodesItsRow.lockClr (v p) : EncodesItsRow.Statement (.lockClr v p) := by
  show (0x05#5 ++ v ++ p ++ 0#19)
    &&& (0x1F#5 ++ 0#4 ++ 0#4 ++ 0x7FFFF#19)
      = 0x05#5 ++ 0#4 ++ 0#4 ++ 0#19
  iterate 3 rw [BitVec.and_append]
  simp only [BitVec.and_zero]
  rfl

theorem EncodesItsRow.lockRms (v p st) : EncodesItsRow.Statement (.lockRms v p st) := by
  show (0x06#5 ++ v ++ p ++ st ++ 0#13)
    &&& (0x1F#5 ++ 0#4 ++ 0#4 ++ 0#6 ++ 0x1FFF#13)
      = 0x06#5 ++ 0#4 ++ 0#4 ++ 0#6 ++ 0#13
  iterate 4 rw [BitVec.and_append]
  simp only [BitVec.and_zero]
  rfl

theorem EncodesItsRow.lockCpy (v p q) : EncodesItsRow.Statement (.lockCpy v p q) := by
  show (0x07#5 ++ v ++ p ++ 0#2 ++ q ++ 0#13)
    &&& (0x1F#5 ++ 0#4 ++ 0#4 ++ 0x3#2 ++ 0#4 ++ 0x1FFF#13)
      = 0x07#5 ++ 0#4 ++ 0#4 ++ 0#2 ++ 0#4 ++ 0#13
  iterate 5 rw [BitVec.and_append]
  simp only [BitVec.and_zero]
  rfl

theorem EncodesItsRow.lockHas (v p st) : EncodesItsRow.Statement (.lockHas v p st) := by
  show (0x08#5 ++ v ++ p ++ st ++ 0#13)
    &&& (0x1F#5 ++ 0#4 ++ 0#4 ++ 0#6 ++ 0x1FFF#13)
      = 0x08#5 ++ 0#4 ++ 0#4 ++ 0#6 ++ 0#13
  iterate 4 rw [BitVec.and_append]
  simp only [BitVec.and_zero]
  rfl

theorem EncodesItsRow.noteSet (v p st val) : EncodesItsRow.Statement (.noteSet v p st val) := by
  show (0x09#5 ++ v ++ p ++ st ++ 0#5 ++ val)
    &&& (0x1F#5 ++ 0#4 ++ 0#4 ++ 0#6 ++ 0x1F#5 ++ 0#8)
      = 0x09#5 ++ 0#4 ++ 0#4 ++ 0#6 ++ 0#5 ++ 0#8
  iterate 5 rw [BitVec.and_append]
  simp only [BitVec.and_zero]
  rfl

theorem EncodesItsRow.keySet (v p st val) : EncodesItsRow.Statement (.keySet v p st val) := by
  show (0x0A#5 ++ v ++ p ++ st ++ 0#5 ++ val)
    &&& (0x1F#5 ++ 0#4 ++ 0#4 ++ 0#6 ++ 0x1F#5 ++ 0#8)
      = 0x0A#5 ++ 0#4 ++ 0#4 ++ 0#6 ++ 0#5 ++ 0#8
  iterate 5 rw [BitVec.and_append]
  simp only [BitVec.and_zero]
  rfl

theorem EncodesItsRow.noteGet (v p st) : EncodesItsRow.Statement (.noteGet v p st) := by
  show (0x0B#5 ++ v ++ p ++ st ++ 0#13)
    &&& (0x1F#5 ++ 0#4 ++ 0#4 ++ 0#6 ++ 0x1FFF#13)
      = 0x0B#5 ++ 0#4 ++ 0#4 ++ 0#6 ++ 0#13
  iterate 4 rw [BitVec.and_append]
  simp only [BitVec.and_zero]
  rfl

theorem EncodesItsRow.plenSet (v p val) : EncodesItsRow.Statement (.plenSet v p val) := by
  show (0x0C#5 ++ v ++ p ++ 0#11 ++ val)
    &&& (0x1F#5 ++ 0#4 ++ 0#4 ++ 0x7FF#11 ++ 0#8)
      = 0x0C#5 ++ 0#4 ++ 0#4 ++ 0#11 ++ 0#8
  iterate 4 rw [BitVec.and_append]
  simp only [BitVec.and_zero]
  rfl

theorem EncodesItsRow.prateSet (v p val) : EncodesItsRow.Statement (.prateSet v p val) := by
  show (0x0D#5 ++ v ++ p ++ 0#11 ++ val)
    &&& (0x1F#5 ++ 0#4 ++ 0#4 ++ 0x7FF#11 ++ 0#8)
      = 0x0D#5 ++ 0#4 ++ 0#4 ++ 0#11 ++ 0#8
  iterate 4 rw [BitVec.and_append]
  simp only [BitVec.and_zero]
  rfl

theorem EncodesItsRow.patDbl (v p) : EncodesItsRow.Statement (.patDbl v p) := by
  show (0x0E#5 ++ v ++ p ++ 0#19)
    &&& (0x1F#5 ++ 0#4 ++ 0#4 ++ 0x7FFFF#19)
      = 0x0E#5 ++ 0#4 ++ 0#4 ++ 0#19
  iterate 3 rw [BitVec.and_append]
  simp only [BitVec.and_zero]
  rfl

theorem EncodesItsRow.patCpy (v p q) : EncodesItsRow.Statement (.patCpy v p q) := by
  show (0x0F#5 ++ v ++ p ++ 0#2 ++ q ++ 0#13)
    &&& (0x1F#5 ++ 0#4 ++ 0#4 ++ 0x3#2 ++ 0#4 ++ 0x1FFF#13)
      = 0x0F#5 ++ 0#4 ++ 0#4 ++ 0#2 ++ 0#4 ++ 0#13
  iterate 5 rw [BitVec.and_append]
  simp only [BitVec.and_zero]
  rfl

theorem EncodesItsRow.patInfo (v p sel) : EncodesItsRow.Statement (.patInfo v p sel) := by
  show (0x10#5 ++ v ++ p ++ 0#10 ++ sel ++ 0#8)
    &&& (0x1F#5 ++ 0#4 ++ 0#4 ++ 0x3FF#10 ++ 0#1 ++ 0xFF#8)
      = 0x10#5 ++ 0#4 ++ 0#4 ++ 0#10 ++ 0#1 ++ 0#8
  iterate 5 rw [BitVec.and_append]
  simp only [BitVec.and_zero]
  rfl

theorem EncodesItsRow.typeSet (v val) : EncodesItsRow.Statement (.typeSet v val) := by
  show (0x11#5 ++ v ++ 0#15 ++ val)
    &&& (0x1F#5 ++ 0#4 ++ 0x7FFF#15 ++ 0#8)
      = 0x11#5 ++ 0#4 ++ 0#15 ++ 0#8
  iterate 3 rw [BitVec.and_append]
  simp only [BitVec.and_zero]
  rfl

theorem EncodesItsRow.patSel (v p) : EncodesItsRow.Statement (.patSel v p) := by
  show (0x12#5 ++ v ++ p ++ 0#19)
    &&& (0x1F#5 ++ 0#4 ++ 0#4 ++ 0x7FFFF#19)
      = 0x12#5 ++ 0#4 ++ 0#4 ++ 0#19
  iterate 3 rw [BitVec.and_append]
  simp only [BitVec.and_zero]
  rfl

theorem EncodesItsRow.gridTrig (v g m) : EncodesItsRow.Statement (.gridTrig v g m) := by
  show (0x13#5 ++ v ++ 0#6 ++ g ++ 0#11 ++ m)
    &&& (0x1F#5 ++ 0#4 ++ 0x3F#6 ++ 0#4 ++ 0x7FF#11 ++ 0#2)
      = 0x13#5 ++ 0#4 ++ 0#6 ++ 0#4 ++ 0#11 ++ 0#2
  iterate 5 rw [BitVec.and_append]
  simp only [BitVec.and_zero]
  rfl

theorem EncodesItsRow.gridNote (v g val) : EncodesItsRow.Statement (.gridNote v g val) := by
  show (0x14#5 ++ v ++ 0#6 ++ g ++ 0#5 ++ val)
    &&& (0x1F#5 ++ 0#4 ++ 0x3F#6 ++ 0#4 ++ 0x1F#5 ++ 0#8)
      = 0x14#5 ++ 0#4 ++ 0#6 ++ 0#4 ++ 0#5 ++ 0#8
  iterate 5 rw [BitVec.and_append]
  simp only [BitVec.and_zero]
  rfl

theorem EncodesItsRow.gridRd (v g) : EncodesItsRow.Statement (.gridRd v g) := by
  show (0x15#5 ++ v ++ 0#6 ++ g ++ 0#13)
    &&& (0x1F#5 ++ 0#4 ++ 0x3F#6 ++ 0#4 ++ 0x1FFF#13)
      = 0x15#5 ++ 0#4 ++ 0#6 ++ 0#4 ++ 0#13
  iterate 4 rw [BitVec.and_append]
  simp only [BitVec.and_zero]
  rfl

theorem EncodesItsRow.voiceRd (v sel) : EncodesItsRow.Statement (.voiceRd v sel) := by
  show (0x16#5 ++ v ++ 0#13 ++ sel ++ 0#8)
    &&& (0x1F#5 ++ 0#4 ++ 0x1FFF#13 ++ 0#2 ++ 0xFF#8)
      = 0x16#5 ++ 0#4 ++ 0#13 ++ 0#2 ++ 0#8
  iterate 4 rw [BitVec.and_append]
  simp only [BitVec.and_zero]
  rfl

theorem EncodesItsRow.play (on) : EncodesItsRow.Statement (.play on) := by
  show (0x1F#5 ++ 0#4 ++ 0#22 ++ on)
    &&& (0x1F#5 ++ 0xF#4 ++ 0x3FFFFF#22 ++ 0#1)
      = 0x1F#5 ++ 0#4 ++ 0#22 ++ 0#1
  iterate 3 rw [BitVec.and_append]
  simp only [BitVec.and_zero]
  rfl

theorem EncodesItsRow.selVoice (v) : EncodesItsRow.Statement (.selVoice v) := by
  show (0x1F#5 ++ 1#4 ++ 0#19 ++ v)
    &&& (0x1F#5 ++ 0xF#4 ++ 0x7FFFF#19 ++ 0#4)
      = 0x1F#5 ++ 1#4 ++ 0#19 ++ 0#4
  iterate 3 rw [BitVec.and_append]
  simp only [BitVec.and_zero]
  rfl

theorem EncodesItsRow.modeSet (m) : EncodesItsRow.Statement (.modeSet m) := by
  show (0x1F#5 ++ 2#4 ++ 0#20 ++ m)
    &&& (0x1F#5 ++ 0xF#4 ++ 0xFFFFF#20 ++ 0#3)
      = 0x1F#5 ++ 2#4 ++ 0#20 ++ 0#3
  iterate 3 rw [BitVec.and_append]
  simp only [BitVec.and_zero]
  rfl

theorem EncodesItsRow.tempoSet (bpm) : EncodesItsRow.Statement (.tempoSet bpm) := by
  show (0x1F#5 ++ 3#4 ++ 0#7 ++ bpm)
    &&& (0x1F#5 ++ 0xF#4 ++ 0x7F#7 ++ 0#16)
      = 0x1F#5 ++ 3#4 ++ 0#7 ++ 0#16
  iterate 3 rw [BitVec.and_append]
  simp only [BitVec.and_zero]
  rfl

theorem EncodesItsRow.noteReq (note) : EncodesItsRow.Statement (.noteReq note) := by
  show (0x1F#5 ++ 4#4 ++ 0#15 ++ note)
    &&& (0x1F#5 ++ 0xF#4 ++ 0x7FFF#15 ++ 0#8)
      = 0x1F#5 ++ 4#4 ++ 0#15 ++ 0#8
  iterate 3 rw [BitVec.and_append]
  simp only [BitVec.and_zero]
  rfl

theorem EncodesItsRow.seqRd (sel) : EncodesItsRow.Statement (.seqRd sel) := by
  show (0x1F#5 ++ 5#4 ++ 0#21 ++ sel)
    &&& (0x1F#5 ++ 0xF#4 ++ 0x1FFFFF#21 ++ 0#2)
      = 0x1F#5 ++ 5#4 ++ 0#21 ++ 0#2
  iterate 3 rw [BitVec.and_append]
  simp only [BitVec.and_zero]
  rfl

theorem EncodesItsRow.poolRd (ix w) : EncodesItsRow.Statement (.poolRd ix w) := by
  show (0x1F#5 ++ 6#4 ++ 0#6 ++ w ++ ix)
    &&& (0x1F#5 ++ 0xF#4 ++ 0x3F#6 ++ 0#1 ++ 0#16)
      = 0x1F#5 ++ 6#4 ++ 0#6 ++ 0#1 ++ 0#16
  iterate 4 rw [BitVec.and_append]
  simp only [BitVec.and_zero]
  rfl

theorem EncodesItsRow.poolStat : EncodesItsRow.Statement .poolStat :=
  rfl

theorem EncodesItsRow.diagRd : EncodesItsRow.Statement .diagRd :=
  rfl

theorem EncodesItsRow.diagClr (mask) : EncodesItsRow.Statement (.diagClr mask) := by
  show (0x1F#5 ++ 9#4 ++ 0#19 ++ mask)
    &&& (0x1F#5 ++ 0xF#4 ++ 0x7FFFF#19 ++ 0#4)
      = 0x1F#5 ++ 9#4 ++ 0#19 ++ 0#4
  iterate 3 rw [BitVec.and_append]
  simp only [BitVec.and_zero]
  rfl

theorem EncodesItsRow.softReset : EncodesItsRow.Statement .softReset :=
  rfl

end Sys2Proof.Laws
end

