-- ==== Sys2Proof/Laws/Reset.lean ====
section
/-!
SUPPORT. The reset state: its free list, and that it meets every invariant and the canonical form (10_state.md R48, R49;
70_reset_and_hazards.md R246).
-/

namespace Sys2Proof.Laws

open Sys2Proof.Machine

/-- The capacity of a legal implementation. -/
theorem poolC_bounds {c : Config} (h : c.valid) : 2 ≤ c.poolC ∧ c.poolC ≤ 32768 := by
  obtain ⟨⟨k, hk, hp⟩, _⟩ := h
  rw [List.mem_range] at hk
  rw [hp]
  interval_cases k <;> simp

theorem record_reset (c : Config) (i : PoolIx) : (Engine.reset c).record c i = recordReset c i.toNat := rfl

/-- The free list after reset, from the index k on. -/
theorem reset_path {c : Config} (hc : c.poolC ≤ 32768) (n k : Nat) (h : k + n = c.poolC) (hn : 0 < n) :
    IsList c (Engine.reset c) (BitVec.ofNat 16 k) ((List.range' k n).map (BitVec.ofNat 16)) := by
  induction n generalizing k with
  | zero => omega
  | succ n ih =>
    rw [List.range'_succ, List.map_cons, IsList, path_cons]
    have hk : (BitVec.ofNat 16 k).toNat = k := by
      rw [BitVec.toNat_ofNat]
      omega
    refine ⟨rfl, ?_, ?_, ?_⟩
    · intro hs
      have := congrArg BitVec.toNat hs
      rw [hk] at this
      simp [sentinel] at this
      omega
    · simp only [poolIxInRange, hk]
      exact decide_eq_true (by omega)
    · rw [record_reset, hk]
      cases n with
      | zero =>
        rw [show (recordReset c k).next = nextReset c k from rfl, nextReset, if_neg (by omega)]
        rfl
      | succ n =>
        rw [show (recordReset c k).next = nextReset c k from rfl, nextReset, if_pos (by omega)]
        exact ih (k + 1) (by omega) (by omega)

/-- The whole free list after reset. -/
theorem reset_free {c : Config} (hc : c.valid) :
    IsList c (Engine.reset c) (Engine.reset c).freeHead ((List.range c.poolC).map (BitVec.ofNat 16)) := by
  rw [List.range_eq_range']
  exact reset_path (poolC_bounds hc).2 c.poolC 0 (by omega) (by have := (poolC_bounds hc).1; omega)

/-- The reset pool: every record is free. -/
theorem reset_owned {c : Config} (hc : c.valid) :
    PoolOwned c (Engine.reset c) ((List.range c.poolC).map (BitVec.ofNat 16)) fun _ _ => [] where
  freeList := reset_free hc
  freeCount := by
    have := (poolC_bounds hc).2
    rw [List.length_map, List.length_range, show (Engine.reset c).freeCount = BitVec.ofNat 16 c.poolC from rfl,
      BitVec.toNat_ofNat]
    omega
  lists _ _ := rfl
  apart _ _ _ h := absurd h (by simp)
  single _ _ _ _ _ h := absurd h (by simp)
  covered i hi := by
    refine .inl (List.mem_map.2 ⟨i.toNat, ?_, by simp⟩)
    simpa [poolIxInRange] using hi
  keys _ _ _ h := absurd h (by simp)
  operands _ _ _ h := absurd h (by simp)

/-- `ceil_div` lies below exactly the numbers whose product with the divisor reaches the dividend (00_scope.md R7). -/
theorem ceilDiv_le_iff {a b : Nat} (hb : 0 < b) (q : Nat) : ceilDiv a b ≤ q ↔ a ≤ q * b := by
  rw [ceilDiv, ← Nat.lt_succ_iff, Nat.div_lt_iff_lt_mul hb, Nat.succ_mul]
  omega

/-- A count is 1..65536 frames (92_eei_decisions.md section 1). -/
theorem envCount_range (c : Config) (b : Byte) : 1 ≤ envCount c b ∧ envCount c b ≤ 65536 := by
  have := b.isLt
  rw [envCount]
  split <;> omega

/-- The 33 bits hold every increment (45_envelope.md R183). -/
theorem envInc_toNat (c : Config) (b : Byte) : (envInc c b).toNat = ceilDiv (2 ^ 32) (envCount c b) := by
  have hc := (envCount_range c b).1
  have := (ceilDiv_le_iff hc (2 ^ 32)).2 (Nat.le_mul_of_pos_right _ hc)
  rw [envInc, BitVec.toNat_ofNat, Nat.mod_eq_of_lt (by omega)]

/-- An increment latched from a parameter byte is 1..2^32 (45_envelope.md R183). -/
theorem envInc_range (c : Config) (b : Byte) : 1 ≤ (envInc c b).toNat ∧ (envInc c b).toNat ≤ 2 ^ 32 := by
  have hc := (envCount_range c b).1
  have h0 := mt (ceilDiv_le_iff (a := 2 ^ 32) hc 0).1 (by omega)
  rw [envInc_toNat]
  exact ⟨by omega, (ceilDiv_le_iff hc _).2 (Nat.le_mul_of_pos_right _ hc)⟩

theorem voice_reset (c : Config) (v : VoiceIx) : (Engine.reset c).voice v = Instrument.reset c := by
  simp [Engine.voice, Engine.reset]

theorem reset_noteCounts (c : Config) : NoteCountsRight (Engine.reset c) := by
  intro v p
  have h1 : (Engine.reset c).noteCount v p = 0#7 := rfl
  have h2 : ∀ st, (Engine.reset c).note v p st = 0#8 := fun _ => rfl
  simp [h1, h2, activeSteps]

theorem reset_fields (c : Config) : FieldsInRange (Engine.reset c) where
  lengths v p := by
    have h : (Engine.reset c).length v p = 16#7 := rfl
    rw [h]
    decide
  pitches v := by
    rw [voice_reset]
    rfl
  period := by
    have h : (Engine.reset c).samplesPerStep = samplesPerStepOf 120#16 := rfl
    rw [h]
    decide
  increments v := by
    rw [voice_reset]
    exact ⟨(envInc_range c _).1, (envInc_range c _).2, (envInc_range c _).1, (envInc_range c _).2⟩

/-- Every memory space lists nothing after reset. -/
theorem reset_canonical (c : Config) : memoryCanonical c (Engine.reset c) = true := rfl

end Sys2Proof.Laws
end

