-- ==== Sys2Proof/Laws/Render.lean ====
section
/-!
SUPPORT. What each operation of the render agent can do, said once: `pull`, `setPitch`, `trigger`, `tick`,
`sequencerStep`, `mix`, `emit`, and with them that no render step writes what is the host's (20_memory.md R72).
-/

namespace Sys2Proof.Laws

open Sys2Proof.Machine

variable {c : Config} {e e' e'' : Engine}

theorem renderWrites_refl (e : Engine) : RenderWrites e e := ⟨rfl, fun _ => rfl, .inl rfl⟩

theorem renderWrites_trans (h : RenderWrites e e') (h' : RenderWrites e' e'') : RenderWrites e e'' where
  others := by
    have h1 := h'.others
    rw [h.others] at h1
    exact h1
  types v := (h'.types v).trans (h.types v)
  cause := by
    rcases h.cause with h1 | h1 <;> rcases h'.cause with h2 | h2 <;> rw [h2, h1]
    · exact .inl rfl
    · exact .inr rfl
    · exact .inr rfl
    · right
      rw [BitVec.or_assoc, BitVec.or_self]

theorem renderWrites_foldl {α : Type} {f : Engine → α → Engine} (hf : ∀ e a, RenderWrites e (f e a)) (l : List α) :
    RenderWrites e (l.foldl f e) := by
  induction l generalizing e with
  | nil => exact renderWrites_refl e
  | cons a l ih => exact renderWrites_trans (hf e a) ih

/-- Writing a voice's registers but the type. -/
theorem renderWrites_setVoice {v : VoiceIx} {r : Instrument} (h : r.kind = (e.voice v).kind) :
    RenderWrites e (e.setVoice v r) where
  others := rfl
  types v' := by
    rw [voice_setVoice]
    split
    · rename_i hv
      rw [h, hv]
    · rfl
  cause := .inl rfl

theorem renderWrites_raiseCycleIf (b : Bool) : RenderWrites e (raiseCycleIf b e) := by
  cases b
  · exact renderWrites_refl e
  · exact ⟨rfl, fun _ => rfl, .inr rfl⟩

/-- A pull writes the eight latched copies of its voice, and `DIAG` bit 1. -/
theorem pull_eq (v : VoiceIx) :
    pull c e v = { e with x := (e.setVoice v (latch c e v)).x, diag := (pull c e v).diag } := by
  rw [pull, raiseCycleIf_eq]
  rfl

theorem voice_pull (v v' : VoiceIx) : (pull c e v).voice v' = if v' = v then latch c e v else e.voice v' := by
  rw [pull_eq]
  exact voice_setVoice e v v' (latch c e v)

theorem pull_writes (v : VoiceIx) : RenderWrites e (pull c e v) :=
  renderWrites_trans (renderWrites_setVoice (r := latch c e v) rfl) (renderWrites_raiseCycleIf _)

theorem setPitch_writes (v : VoiceIx) (note : Byte) : RenderWrites e (setPitch c v note e) :=
  renderWrites_setVoice rfl

theorem voice_setPitch (v v' : VoiceIx) (note : Byte) :
    (setPitch c v note e).voice v'
      = if v' = v then
          { e.voice v with
            pitch := note.extractLsb' 0 7 ++ 0#7,
            phaseInc := computePhaseIncrement c (note.extractLsb' 0 7 ++ 0#7) }
        else e.voice v' := voice_setVoice e v v' _

theorem voice_trigger (v v' : VoiceIx) :
    (trigger c e v).voice v'
      = if v' = v then { latch c e v with seg := .attack, envPhase := 0#32, oscPhase := 0#32 } else e.voice v' := by
  rw [trigger, voice_setVoice, voice_pull, if_pos rfl]
  split
  · rfl
  · rename_i h
    rw [voice_pull, if_neg h]

theorem trigger_writes (v : VoiceIx) : RenderWrites e (trigger c e v) :=
  renderWrites_trans (pull_writes v) (renderWrites_setVoice rfl)

theorem tickVoice_writes (g : GridIx) (v : VoiceIx) : RenderWrites e (tickVoice c g e v) := by
  rw [tickVoice]
  split
  · exact renderWrites_trans (setPitch_writes v _) (trigger_writes v)
  · exact renderWrites_refl e

theorem ticked_writes (g : GridIx) (l : List VoiceIx) : RenderWrites e (l.foldl (tickVoice c g) e) :=
  renderWrites_foldl (fun _ v => tickVoice_writes g v) l

theorem tick_writes : RenderWrites e (tick c e) := by
  have h1 : RenderWrites e { e with playStep := e.curStep, playValid := true } := ⟨rfl, fun _ => rfl, .inl rfl⟩
  have h2 := ticked_writes (c := c) (e := { e with playStep := e.curStep, playValid := true }) e.curStep allVoices
  rw [tick]
  generalize allVoices.foldl (tickVoice c e.curStep) { e with playStep := e.curStep, playValid := true } = e2 at h2 ⊢
  exact renderWrites_trans h1 (renderWrites_trans h2 ⟨rfl, fun _ => rfl, .inl rfl⟩)

theorem sequencerStep_writes : RenderWrites e (sequencerStep c e) := by
  rw [sequencerStep]
  have h := tick_writes (c := c) (e := e)
  generalize tick c e = e1 at h ⊢
  split
  · split
    · exact renderWrites_trans h ⟨rfl, fun _ => rfl, .inl rfl⟩
    · exact ⟨rfl, fun _ => rfl, .inl rfl⟩
  · exact renderWrites_refl e

theorem tick_samplesPerStep : (tick c e).samplesPerStep = e.samplesPerStep := by
  rw [(tick_writes (c := c) (e := e)).1]

/-- All that the sequencer's part of a Frame can do (48_render_sequencer.md R207 (1), R209). -/
theorem sequencerStep_eq :
    sequencerStep c e
      = if e.playing = true then
          if e.countdown.toNat ≤ 1 then { tick c e with countdown := e.samplesPerStep }
          else { e with countdown := e.countdown - 1#32 }
        else e := by
  simp only [sequencerStep, BitVec.le_def, tick_samplesPerStep]
  rfl

theorem envRamp_eq (r : Instrument) (inc : BitVec 33) (after : Segment) :
    envRamp r inc after
      = { r with seg := (envRamp r inc after).seg, envPhase := (envRamp r inc after).envPhase } := by
  rw [envRamp]
  split <;> rfl

/-- The envelope's advance writes `seg` and `envPhase` alone (45_envelope.md R182). -/
theorem envAdvance_eq (r : Instrument) :
    envAdvance c r = { r with seg := (envAdvance c r).seg, envPhase := (envAdvance c r).envPhase } := by
  rw [envAdvance]
  split
  · exact envRamp_eq r _ _
  · split <;> rfl
  · exact envRamp_eq r _ _
  · rfl

/-- A voice's frame writes `oscPhase`, `seg`, `envPhase`, `low` and `band` alone (47_gain_mixer.md R201). -/
theorem voiceSample_eq (r : Instrument) :
    (voiceSample c r).2 = { r with
      oscPhase := (voiceSample c r).2.oscPhase, seg := (voiceSample c r).2.seg,
      envPhase := (voiceSample c r).2.envPhase, low := (voiceSample c r).2.low,
      band := (voiceSample c r).2.band } := by
  rw [voiceSample]
  split
  · simp only [svfStep, oscStep]
    rw [envAdvance_eq]
  · rfl

theorem voiceSample_kind (r : Instrument) : (voiceSample c r).2.kind = r.kind := by
  rw [voiceSample_eq]

theorem mixVoice_writes (acc : Engine × Int) (v : VoiceIx) : RenderWrites acc.1 (mixVoice c acc v).1 :=
  renderWrites_setVoice (voiceSample_kind _)

theorem mix_writes : RenderWrites e (mix c e).1 := by
  rw [mix]
  suffices h : ∀ (l : List VoiceIx) (acc : Engine × Int), RenderWrites acc.1 (l.foldl (mixVoice c) acc).1 from h _ (e, 0)
  intro l
  induction l with
  | nil => exact fun acc => renderWrites_refl acc.1
  | cons v l ih => exact fun acc => renderWrites_trans (mixVoice_writes acc v) (ih (mixVoice c acc v))

theorem emit_writes (acc : Int) : RenderWrites e (emit e acc) := by
  rw [emit]
  generalize toSample (sat16 acc) = out
  generalize e.frameIdx + 1 = k
  exact ⟨rfl, fun _ => rfl, .inl rfl⟩

theorem frame_writes : RenderWrites e (frame c e) := by
  have h := renderWrites_trans (sequencerStep_writes (c := c) (e := e)) (mix_writes (c := c))
  rw [frame]
  generalize mix c (sequencerStep c e) = m at h ⊢
  exact renderWrites_trans h (emit_writes m.2)

theorem pulled_writes (l : List VoiceIx) : RenderWrites e (l.foldl (pull c) e) :=
  renderWrites_foldl (fun _ v => pull_writes v) l

theorem blockStart_writes : RenderWrites e (blockStart c e) := by
  have h1 : RenderWrites e { e with busy := true, frameIdx := 0 } := ⟨rfl, fun _ => rfl, .inl rfl⟩
  rw [blockStart]
  exact renderWrites_trans h1 (pulled_writes renderedVoices)

theorem blockEnd_writes : RenderWrites e (blockEnd c e) := by
  rw [blockEnd]
  dsimp only
  split
  · exact renderWrites_trans (setPitch_writes (c := c) _ _) (renderWrites_trans (trigger_writes (c := c) _)
      ⟨rfl, fun _ => rfl, .inl rfl⟩)
  · exact ⟨rfl, fun _ => rfl, .inl rfl⟩

/-! `DIAG` bit 1 of the render agent's pulls (60_exceptions.md R222). -/

theorem findLockFrom_congr (h : e'.poolMem = e.poolMem) (st id : Byte) (n : Nat) (cur : PoolIx) :
    findLockFrom c e' st id n cur = findLockFrom c e st id n cur := by
  induction n generalizing cur with
  | zero => rfl
  | succ n ih =>
    have hr : ∀ i, e'.record c i = e.record c i := fun i => by rw [Engine.record, Engine.record, h]
    simp only [findLockFrom, hr, ih]

/-- A resolution reads the pool, the lock heads and the parameters alone. -/
theorem resolveParam_congr (hp : e'.poolMem = e.poolMem) (hl : e'.lockHeadMem = e.lockHeadMem)
    (hv : e'.parMem = e.parMem) (v : VoiceIx) (id : ParamId) (ctx : Option (PatternIx × StepIx)) :
    resolveParam c e' v id ctx = resolveParam c e v id ctx := by
  simp only [resolveParam, findLock, findLockFrom_congr hp, Engine.lockHead, Engine.par, Engine.record, hp, hl, hv]

theorem pullFaults_congr (hp : e'.poolMem = e.poolMem) (hl : e'.lockHeadMem = e.lockHeadMem)
    (hv : e'.parMem = e.parMem) (v : VoiceIx) (ctx : Option (PatternIx × StepIx)) :
    PullFaults c e' v ctx ↔ PullFaults c e v ctx := by
  simp only [PullFaults, resolveParam_congr hp hl hv]

theorem raiseCycleIf_diag (b : Bool) : (raiseCycleIf b e).diag = if b then e.diag ||| 2#4 else e.diag := by
  cases b <;> rfl

theorem mem_pulledIds (id : ParamId) :
    id ∈ pulledIds ↔ id ∈ ([0#5, 2#5, 3#5, 6#5, 7#5, 24#5, 25#5, 26#5] : List ParamId) := by
  revert id
  decide

/-- A pull sets `DIAG` bit 1 exactly where a walk of it finds the list corrupt. -/
theorem pull_diag (v : VoiceIx) :
    (PullFaults c e v (pullContext e v) → (pull c e v).diag = e.diag ||| 2#4)
    ∧ (¬PullFaults c e v (pullContext e v) → (pull c e v).diag = e.diag) := by
  have hiff : (pulledIds.any fun id => (pullParam c e v id).2) = true ↔ PullFaults c e v (pullContext e v) := by
    simp only [List.any_eq_true, PullFaults, mem_pulledIds, pullParam]
  rw [pull, raiseCycleIf_diag, ← hiff]
  exact ⟨fun h => if_pos h, fun h => if_neg h⟩

/-- A trigger's `DIAG` is its pull's. -/
theorem trigger_diag (v : VoiceIx) : (trigger c e v).diag = (pull c e v).diag := rfl

theorem trigger_eq (v : VoiceIx) :
    trigger c e v = { e with x := (trigger c e v).x, diag := (trigger c e v).diag } := by
  rw [trigger]
  dsimp only
  rw [pull_eq]
  rfl

/-- The `DIAG` that a fold over voices leaves, each of whose steps writes registers and `DIAG` alone and sets bit 1
exactly where `F` holds of its voice, which the registers and `DIAG` do not bear on. -/
theorem foldl_diag {f : Engine → VoiceIx → Engine} {F : Engine → VoiceIx → Prop}
    (hx : ∀ e v, f e v = { e with x := (f e v).x, diag := (f e v).diag })
    (hd : ∀ e v, (F e v → (f e v).diag = e.diag ||| 2#4) ∧ (¬F e v → (f e v).diag = e.diag))
    (hF : ∀ e x d v, F { e with x := x, diag := d } v ↔ F e v) (l : List VoiceIx) (e : Engine) :
    ((∃ v ∈ l, F e v) → (l.foldl f e).diag = e.diag ||| 2#4)
    ∧ ((∀ v ∈ l, ¬F e v) → (l.foldl f e).diag = e.diag) := by
  induction l generalizing e with
  | nil => simp
  | cons v l ih =>
    have hor : ∀ d : BitVec 4, d ||| 2#4 ||| 2#4 = d ||| 2#4 := by decide
    have hFv : ∀ v', F (f e v) v' ↔ F e v' := fun v' => by rw [hx e v]; exact hF e _ _ v'
    have h1 := ih (f e v)
    simp only [hFv] at h1
    have h2 := hd e v
    simp only [List.foldl_cons]
    by_cases hr : ∃ v' ∈ l, F e v'
    · refine ⟨fun _ => ?_, fun h => ?_⟩
      · rw [h1.1 hr]
        by_cases hv : F e v
        · rw [h2.1 hv, hor]
        · rw [h2.2 hv]
      · obtain ⟨v', hm, hf⟩ := hr
        exact absurd hf (h v' (List.mem_cons_of_mem _ hm))
    · have hr' : ∀ v' ∈ l, ¬F e v' := fun v' hm hf => hr ⟨v', hm, hf⟩
      rw [h1.2 hr']
      refine ⟨?_, fun h => h2.2 (h v List.mem_cons_self)⟩
      rintro ⟨v', hm, hf⟩
      rcases List.mem_cons.1 hm with rfl | hm
      · exact h2.1 hf
      · exact absurd hf (hr' v' hm)

end Sys2Proof.Laws
end

