-- ==== Sys2Proof/Machine/Pseudo.lean ====
section
/-!
DEFINITION. The assembler's pseudo-instructions and its directive `RENDER k` as what the host and the transport then do
(30_encoding.md R91, R92). They are not commands of the hardware; each stands for a schedule of them.
-/

namespace Sys2Proof.Machine

/-- The pseudo-instructions (30_encoding.md R92). -/
inductive Pseudo where
  | start
  | stop
  | trigSet (v : VoiceIx) (g : GridIx)
  | trigClr (v : VoiceIx) (g : GridIx)
  | trigTgl (v : VoiceIx) (g : GridIx)
  | stepSet (v : VoiceIx) (g : GridIx) (note : Byte)
  | strike (v : VoiceIx) (note : Byte)
  | noteOn (v : VoiceIx) (p : PatternIx) (st : StepIx) (n : BitVec 7)
  | noteClr (v : VoiceIx) (p : PatternIx) (st : StepIx)
  | diagClrAll
  deriving DecidableEq, Repr

/-- The expansion of a pseudo-instruction, in the order the host issues it (30_encoding.md R92). -/
def expandPseudo : Pseudo → List Instr
  | .start => [.play 1#1]
  | .stop => [.play 0#1]
  | .trigSet v g => [.gridTrig v g 1#2]
  | .trigClr v g => [.gridTrig v g 0#2]
  | .trigTgl v g => [.gridTrig v g 2#2]
  | .stepSet v g note => [.gridNote v g note, .gridTrig v g 1#2]
  | .strike v note => [.selVoice v, .noteReq note]
  | .noteOn v p st n => [.noteSet v p st (1#1 ++ n)]
  | .noteClr v p st => [.noteSet v p st 0#8]
  | .diagClrAll => [.diagClr 15#4]

/-- The host presents commands one after another (30_encoding.md R80). -/
def present (l : List Instr) : List Input := l.map fun i => .command (encode i)

/-- `RENDER k`: k complete blocks with no command in between (30_encoding.md R91). -/
def renderBlocks (k : Nat) : List Input :=
  (List.replicate k (Input.period :: List.replicate (blockN + 1) Input.render)).flatten

end Sys2Proof.Machine
end

