-- ==== Sys2Proof/Tests/Slice0.lean ====
section
/-!
SUPPORT. Tests. Every expected value is the spec's, from the rule or the table of 95_test_vectors.md named at the test. At
the end, for each statement of Certificates/Slice0/Obligations.lean with hypotheses, a witness that meets them together.
-/

namespace Sys2Proof.Tests

open Sys2Proof Sys2Proof.Machine Sys2Proof.Laws

/-! Helpers. -/

/-- The response that a result leaves. -/
def answerOf : Result → Option Response
  | .next t => t.response
  | .fault _ => none
  | .refused _ => none

/-- The response to a command. -/
def answer (i : Instr) (s : State) : Option Response := answerOf (exec i s)

/-- An OK response. -/
def ok (d : Word) : Option Response := some ⟨0#4, d⟩

/-- The hardware state that a result leaves; the reset one where there is none. -/
def hwOf : Result → Engine
  | .next t => t.hw
  | .fault _ => Engine.reset referenceConfig
  | .refused _ => Engine.reset referenceConfig

/-- The hardware state that a command leaves. -/
def after (i : Instr) (s : State) : Engine := hwOf (exec i s)

/-- The state after reset with another hardware state. -/
def start (e : Engine) : State := State.reset.withHw e

/-- The hardware right after reset. -/
def hw0 : Engine := Engine.reset referenceConfig

/-- An implementation with two pool records. -/
def cfg2 : Config := { referenceConfig with poolC := 2 }

/-- A state of the implementation with two pool records. -/
def start2 (e : Engine) : State := (State.resetOf cfg2).withHw e

/-! Decoding: a word of every command, as 95_test_vectors.md and the command's rule write it. -/

theorem test_decode_nop : decode 0x00000000#32 = .ok .nop ∧ encode .nop = 0x00000000#32 := ⟨rfl, rfl⟩
theorem test_decode_paramWr : decode 0x098000C8#32 = .ok (.paramWr 3#4 0#5 200#8) := rfl
theorem test_decode_paramRd : decode 0x17801A00#32 = .ok (.paramRd 15#4 26#5) := rfl
theorem test_decode_resolve : decode 0x19BFE200#32 = .ok (.resolve 3#4 7#4 63#6 2#5) := rfl
theorem test_decode_lockSt : decode 0x201022C8#32 = .ok (.lockSt 0#4 2#4 1#6 2#5 200#8) := rfl
theorem test_decode_lockClr : decode 0x28080000#32 = .ok (.lockClr 0#4 1#4) := rfl
theorem test_decode_lockRms : decode 0x30800000#32 = .ok (.lockRms 1#4 0#4 0#6) := rfl
theorem test_decode_lockCpy : decode 0x3800C000#32 = .ok (.lockCpy 0#4 0#4 6#4) := rfl
theorem test_decode_lockHas : decode 0x40008000#32 = .ok (.lockHas 0#4 0#4 4#6) := rfl
theorem test_decode_noteSet : decode 0x492FE080#32 = .ok (.noteSet 2#4 5#4 63#6 0x80#8) := rfl
theorem test_decode_keySet : decode 0x51186007#32 = .ok (.keySet 2#4 3#4 3#6 7#8) := rfl
theorem test_decode_noteGet : decode 0x5928E000#32 = .ok (.noteGet 2#4 5#4 7#6) := rfl
theorem test_decode_plenSet : decode 0x61180021#32 = .ok (.plenSet 2#4 3#4 33#8) := rfl
theorem test_decode_prateSet : decode 0x69180002#32 = .ok (.prateSet 2#4 3#4 2#8) := rfl
theorem test_decode_patDbl : decode 0x71180000#32 = .ok (.patDbl 2#4 3#4) := rfl
theorem test_decode_patCpy : decode 0x7918A000#32 = .ok (.patCpy 2#4 3#4 5#4) := rfl
theorem test_decode_patInfo : decode 0x80280100#32 = .ok (.patInfo 0#4 5#4 1#1) := rfl
theorem test_decode_typeSet : decode 0x89000001#32 = .ok (.typeSet 2#4 1#8) := rfl
theorem test_decode_patSel : decode 0x90180000#32 = .ok (.patSel 0#4 3#4) := rfl
theorem test_decode_gridTrig : decode 0x98008002#32 = .ok (.gridTrig 0#4 4#4 2#2) := rfl
theorem test_decode_gridNote : decode 0xA001803C#32 = .ok (.gridNote 0#4 12#4 60#8) := rfl
theorem test_decode_gridRd : decode 0xA8008000#32 = .ok (.gridRd 0#4 4#4) := rfl
theorem test_decode_voiceRd : decode 0xB1800000#32 = .ok (.voiceRd 3#4 0#2) := rfl
theorem test_decode_play : decode 0xF8000001#32 = .ok (.play 1#1) := rfl
theorem test_decode_selVoice : decode 0xF8800003#32 = .ok (.selVoice 3#4) := rfl
theorem test_decode_modeSet : decode 0xF9000002#32 = .ok (.modeSet 2#3) := rfl
theorem test_decode_tempoSet : decode 0xF980012C#32 = .ok (.tempoSet 300#16) := rfl
theorem test_decode_noteReq : decode 0xFA00003C#32 = .ok (.noteReq 60#8) := rfl
theorem test_decode_seqRd : decode 0xFA800003#32 = .ok (.seqRd 3#2) := rfl
theorem test_decode_poolRd : decode 0xFB010005#32 = .ok (.poolRd 5#16 1#1) := rfl
theorem test_decode_poolStat : decode 0xFB800000#32 = .ok .poolStat := rfl
theorem test_decode_diagRd : decode 0xFC000000#32 = .ok .diagRd := rfl
theorem test_decode_diagClr : decode 0xFC80000C#32 = .ok (.diagClr 12#4) := rfl
theorem test_decode_softReset : decode 0xFD05A5A5#32 = .ok .softReset := rfl

/-- The illegal words of 95_test_vectors.md section 2.1. -/
theorem test_decode_illegal :
    decode 0x00000001#32 = .error (.reservedBits "NOP") ∧ decode 0x10000201#32 = .error (.reservedBits "PARAM_RD")
    ∧ decode 0x10001F01#32 = .error (.reservedBits "PARAM_RD")
    ∧ decode 0x38040000#32 = .error (.reservedBits "LOCK_CPY")
    ∧ decode 0x98000004#32 = .error (.reservedBits "GRID_TRIG")
    ∧ decode 0x98020001#32 = .error (.reservedBits "GRID_TRIG") ∧ decode 0xB8000000#32 = .error (.noSuchOpcode 0x17#5)
    ∧ decode 0xF0000000#32 = .error (.noSuchOpcode 0x1E#5) ∧ decode 0xF8000002#32 = .error (.reservedBits "PLAY")
    ∧ decode 0xF9810000#32 = .error (.reservedBits "TEMPO_SET")
    ∧ decode 0xFD000000#32 = .error (.reservedBits "SOFT_RESET")
    ∧ decode 0xFD800000#32 = .error (.noSuchFunction 11#4) ∧ decode 0xFFFFFFFF#32 = .error (.noSuchFunction 15#4) :=
  ⟨rfl, rfl, rfl, rfl, rfl, rfl, rfl, rfl, rfl, rfl, rfl, rfl, rfl⟩

/-- The word on a byte-serial link, in either order (20_memory.md R62). -/
theorem test_port_bytes :
    wordOfPortBytes true 0x64#8 0x02#8 0x00#8 0x08#8 = 0x08000264#32
    ∧ wordOfPortBytes false 0x08#8 0x00#8 0x02#8 0x64#8 = 0x08000264#32 := by decide

/-- An ill-formed command for each check (30_encoding.md R88 (b)). -/
theorem test_wellFormed_refuses :
    wellFormed referenceConfig (.paramWr 0#4 27#5 1#8) = false
    ∧ wellFormed referenceConfig (.paramRd 0#4 31#5) = false
    ∧ wellFormed referenceConfig (.resolve 0#4 0#4 0#6 27#5) = false
    ∧ wellFormed referenceConfig (.lockSt 0#4 0#4 0#6 27#5 0#8) = false
    ∧ wellFormed referenceConfig (.plenSet 0#4 0#4 0#8) = false
    ∧ wellFormed referenceConfig (.plenSet 0#4 0#4 65#8) = false
    ∧ wellFormed referenceConfig (.typeSet 0#4 5#8) = false
    ∧ wellFormed referenceConfig (.gridTrig 0#4 0#4 3#2) = false
    ∧ wellFormed referenceConfig (.tempoSet 0#16) = false
    ∧ wellFormed referenceConfig (.poolRd 256#16 0#1) = false
    ∧ wellFormed referenceConfig (.poolRd 255#16 0#1) = true := by decide

/-- Three pseudo-instructions (30_encoding.md R92). -/
theorem test_pseudo :
    expandPseudo (.stepSet 0#4 4#4 60#8) = [.gridNote 0#4 4#4 60#8, .gridTrig 0#4 4#4 1#2]
    ∧ expandPseudo (.strike 3#4 60#8) = [.selVoice 3#4, .noteReq 60#8]
    ∧ expandPseudo (.noteOn 0#4 0#4 0#6 60#7) = [.noteSet 0#4 0#4 0#6 0xBC#8] := by decide

/-! One step of each command. -/

/-- The codes of 30_encoding.md R83. -/
theorem test_statusCode :
    [Status.ok, .illegal, .badOperand, .exhausted, .cycle].map statusCode = [0#4, 1#4, 2#4, 3#4, 4#4] := rfl

/-- The latched copies after reset (10_state.md R48). -/
theorem test_reset_latched_copies :
    (hw0.voice 5#4).volQ15 = 32767#15 ∧ (hw0.voice 5#4).fCoef = 32767#15 ∧ (hw0.voice 5#4).dCoef = 32767#15
    ∧ (hw0.voice 5#4).attackInc = 4294967296#33 ∧ (hw0.voice 5#4).decayInc = 1048576#33 := by decide

/-- 43_sequencer_cmds.md R140. -/
theorem test_nop : answer .nop State.reset = ok 0#32 := by decide

/-- 41_params_locks.md R110. -/
theorem test_paramWr :
    (after (.paramWr 3#4 0#5 200#8) State.reset).par 3#4 0#5 = 200#8
    ∧ (after (.paramWr 3#4 0#5 200#8) State.reset).par 2#4 0#5 = 255#8 := by decide

/-- 95_test_vectors.md section 2.3. -/
theorem test_paramRd :
    answer (.paramRd 0#4 0#5) State.reset = ok 255#32 ∧ answer (.paramRd 0#4 7#5) State.reset = ok 32#32
    ∧ answer (.paramRd 0#4 27#5) State.reset = some ⟨2#4, 0#32⟩ := by decide

/-- The state after the first lock of 41_params_locks.md R116's example. -/
def hwLock1 : Engine := after (.lockSt 0#4 0#4 4#6 2#5 40#8) State.reset

/-- 41_params_locks.md R116: the first lock takes index 0. -/
theorem test_lockSt :
    hwLock1.record referenceConfig 0#16 = ⟨2#8, 4#8, 40#8, 0xFFFF#16⟩ ∧ hwLock1.lockHead 0#4 0#4 = 0#16
    ∧ hwLock1.freeHead = 1#16 ∧ hwLock1.freeCount = 255#16 := by decide

/-- 41_params_locks.md R116: the same key again changes the value alone. -/
theorem test_lockSt_again :
    (after (.lockSt 0#4 0#4 4#6 2#5 99#8) (start hwLock1)).record referenceConfig 0#16 = ⟨2#8, 4#8, 99#8, 0xFFFF#16⟩
    ∧ (after (.lockSt 0#4 0#4 4#6 2#5 99#8) (start hwLock1)).freeCount = 255#16 := by decide

/-- 41_params_locks.md R114. -/
theorem test_resolve :
    answer (.resolve 0#4 0#4 4#6 2#5) (start hwLock1) = ok 40#32
    ∧ answer (.resolve 0#4 0#4 5#6 2#5) (start hwLock1) = ok 255#32 := by decide

/-- 41_params_locks.md R120. -/
theorem test_lockHas :
    answer (.lockHas 0#4 0#4 4#6) (start hwLock1) = ok 1#32
    ∧ answer (.lockHas 0#4 0#4 5#6) (start hwLock1) = ok 0#32 := by decide

/-- The state before 41_params_locks.md R118's example: the list 2 → 1 → 0. -/
def hwLock3 : Engine := pushed referenceConfig (pushed referenceConfig hwLock1 0#4 0#4 1#16 4#8 3#8 7#8)
  0#4 0#4 2#16 9#8 2#8 1#8

/-- 41_params_locks.md R118. -/
theorem test_lockRms :
    answer (.lockRms 0#4 0#4 4#6) (start hwLock3) = ok 2#32
    ∧ (after (.lockRms 0#4 0#4 4#6) (start hwLock3)).lockHead 0#4 0#4 = 2#16
    ∧ ((after (.lockRms 0#4 0#4 4#6) (start hwLock3)).record referenceConfig 2#16).next = 0xFFFF#16
    ∧ (after (.lockRms 0#4 0#4 4#6) (start hwLock3)).freeHead = 0#16
    ∧ ((after (.lockRms 0#4 0#4 4#6) (start hwLock3)).record referenceConfig 0#16).next = 1#16
    ∧ ((after (.lockRms 0#4 0#4 4#6) (start hwLock3)).record referenceConfig 1#16).next = 3#16 := by decide

/-- The state before 41_params_locks.md R119's example: the list 2, the free list 0 → 1 → 3. -/
def hwLock2 : Engine := after (.lockRms 0#4 0#4 4#6) (start hwLock3)

/-- 41_params_locks.md R119. -/
theorem test_lockCpy :
    answer (.lockCpy 0#4 0#4 1#4) (start hwLock2) = ok 0#32
    ∧ (after (.lockCpy 0#4 0#4 1#4) (start hwLock2)).record referenceConfig 0#16 = ⟨2#8, 9#8, 1#8, 0xFFFF#16⟩
    ∧ (after (.lockCpy 0#4 0#4 1#4) (start hwLock2)).lockHead 0#4 1#4 = 0#16
    ∧ (after (.lockCpy 0#4 0#4 1#4) (start hwLock2)).freeHead = 1#16
    ∧ (after (.lockCpy 0#4 0#4 1#4) (start hwLock2)).freeCount = 254#16 := by decide

/-- 41_params_locks.md R117. -/
theorem test_lockClr :
    answer (.lockClr 0#4 0#4) (start hwLock2) = ok 1#32
    ∧ (after (.lockClr 0#4 0#4) (start hwLock2)).lockHead 0#4 0#4 = 0xFFFF#16
    ∧ (after (.lockClr 0#4 0#4) (start hwLock2)).freeHead = 2#16 := by decide

/-- 42_patterns.md R127. -/
theorem test_noteSet :
    answer (.noteSet 0#4 0#4 0#6 0xBC#8) State.reset = ok 1#32
    ∧ answer (.noteSet 0#4 0#4 3#6 0x40#8) (start (setNote hw0 0#4 0#4 3#6 0xC0#8)) = ok 0#32 := by decide

/-- The pattern of 42_patterns.md R132's example. -/
def hwPattern : Engine :=
  (((setNote (setNote hw0 0#4 0#4 0#6 0xBC#8) 0#4 0#4 3#6 0xC0#8).setKey 0#4 0#4 3#6 7#8).setLength 0#4 0#4 4#7).setRate
    0#4 0#4 2#8

/-- 42_patterns.md R128. -/
theorem test_keySet : (after (.keySet 0#4 0#4 3#6 7#8) State.reset).key 0#4 0#4 3#6 = 7#8 := by decide

/-- 42_patterns.md R129. -/
theorem test_noteGet : answer (.noteGet 0#4 0#4 3#6) (start hwPattern) = ok 0x07C0#32 := by decide

/-- 42_patterns.md R130. -/
theorem test_plenSet :
    (after (.plenSet 0#4 0#4 64#8) State.reset).length 0#4 0#4 = 64#7
    ∧ answer (.plenSet 0#4 0#4 65#8) State.reset = some ⟨2#4, 0#32⟩
    ∧ (after (.plenSet 0#4 0#4 0#8) State.reset).diag = 8#4 := by decide

/-- 42_patterns.md R131. -/
theorem test_prateSet : (after (.prateSet 0#4 0#4 2#8) State.reset).rate 0#4 0#4 = 2#8 := by decide

/-- 42_patterns.md R132. -/
theorem test_patDbl :
    answer (.patDbl 0#4 0#4) (start hwPattern) = ok 8#32
    ∧ (after (.patDbl 0#4 0#4) (start hwPattern)).noteCount 0#4 0#4 = 4#7
    ∧ (after (.patDbl 0#4 0#4) (start hwPattern)).note 0#4 0#4 4#6 = 0xBC#8
    ∧ (after (.patDbl 0#4 0#4) (start hwPattern)).key 0#4 0#4 7#6 = 7#8 := by decide

/-- 42_patterns.md R132: a length over 32 stays. -/
theorem test_patDbl_long :
    answer (.patDbl 0#4 0#4) (start (hwPattern.setLength 0#4 0#4 33#7)) = ok 33#32
    ∧ after (.patDbl 0#4 0#4) (start (hwPattern.setLength 0#4 0#4 33#7)) = hwPattern.setLength 0#4 0#4 33#7 := by decide

/-- 42_patterns.md R133 and R134 (the example's source before the doubling: two active notes, length 4, rate 2). -/
theorem test_patCpy :
    answer (.patCpy 0#4 0#4 5#4) (start hwPattern) = ok 2#32
    ∧ answer (.patInfo 0#4 5#4 0#1) (start (after (.patCpy 0#4 0#4 5#4) (start hwPattern))) = ok 0x00020204#32 := by
  decide +kernel

/-- 42_patterns.md R134. -/
theorem test_patInfo :
    answer (.patInfo 0#4 0#4 0#1) State.reset = ok 0x00000010#32
    ∧ answer (.patInfo 0#4 5#4 1#1) State.reset = ok 0xFFFF#32 := by decide

/-- 43_sequencer_cmds.md R141. -/
theorem test_typeSet :
    ((after (.typeSet 2#4 1#8) State.reset).voice 2#4).kind = .sample
    ∧ answer (.typeSet 2#4 5#8) State.reset = some ⟨2#4, 0#32⟩ := by decide

/-- 43_sequencer_cmds.md R142. -/
theorem test_patSel : (after (.patSel 0#4 3#4) State.reset).curPat 0#4 = 3#4 := by decide

/-- 43_sequencer_cmds.md R143. -/
theorem test_gridTrig :
    answer (.gridTrig 0#4 4#4 1#2) State.reset = ok 1#32
    ∧ answer (.gridTrig 0#4 4#4 2#2) (start (hw0.setTrig 0#4 4#4 true)) = ok 0#32 := by decide

/-- 43_sequencer_cmds.md R144. -/
theorem test_gridNote : (after (.gridNote 0#4 4#4 60#8) State.reset).gnote 0#4 4#4 = 60#8 := by decide

/-- 43_sequencer_cmds.md R145. -/
theorem test_gridRd :
    answer (.gridRd 0#4 4#4) (start ((hw0.setGnote 0#4 4#4 60#8).setTrig 0#4 4#4 true)) = ok 0x013C#32 := by decide

/-- 43_sequencer_cmds.md R146. -/
theorem test_voiceRd :
    answer (.voiceRd 0#4 0#2) State.reset = ok 0x18#32 ∧ answer (.voiceRd 0#4 3#2) State.reset = ok 796253#32 := by
  decide

/-- 43_sequencer_cmds.md R148: the start, and no restart of a running sequencer. -/
theorem test_play :
    (after (.play 1#1) (start { hw0 with curStep := 7#4, countdown := 9#32 })).curStep = 0#4
    ∧ after (.play 1#1) (start { hw0 with playing := true, curStep := 7#4 })
      = { hw0 with playing := true, curStep := 7#4 } := by decide

/-- 43_sequencer_cmds.md R148: the stop keeps the position. -/
theorem test_play_stop :
    after (.play 0#1) (start { hw0 with playing := true, playValid := true, curStep := 7#4, countdown := 9#32 })
      = { hw0 with curStep := 7#4, countdown := 9#32 } := by decide

/-- 43_sequencer_cmds.md R149. -/
theorem test_selVoice : (after (.selVoice 15#4) State.reset).selVoice = 15#4 := by decide

/-- 43_sequencer_cmds.md R150. -/
theorem test_modeSet : (after (.modeSet 2#3) State.reset).mode = 2#3 := by decide

/-- 43_sequencer_cmds.md R151. -/
theorem test_tempoSet :
    answer (.tempoSet 90#16) State.reset = ok 7350#32 ∧ answer (.tempoSet 1#16) State.reset = ok 661500#32
    ∧ answer (.tempoSet 65535#16) State.reset = ok 10#32
    ∧ answer (.tempoSet 0#16) State.reset = some ⟨2#4, 0#32⟩ := by decide

/-- 43_sequencer_cmds.md R152. -/
theorem test_noteReq :
    (after (.noteReq 60#8) State.reset).pendingNote = true
    ∧ (after (.noteReq 60#8) State.reset).pendingNoteValue = 60#8 := by decide

/-- 43_sequencer_cmds.md R153: reset, and the status word of its last example. -/
theorem test_seqRd :
    answer (.seqRd 1#2) State.reset = ok 1#32 ∧ answer (.seqRd 2#2) State.reset = ok 5512#32
    ∧ answer (.seqRd 3#2) State.reset = ok 120#32
    ∧ answer (.seqRd 0#2) (start { hw0 with
        pendingNoteValue := 60#8, playValid := true, curStep := 1#4, selVoice := 3#4, mode := 2#3, playing := true })
      = ok 0x3C010135#32 := by decide

/-- 43_sequencer_cmds.md R153: the voices that play, in the same example. -/
theorem test_seqRd_playing :
    answer (.seqRd 3#2) (start (hw0.setVoice 3#4 { hw0.voice 3#4 with seg := .attack })) = ok 0x00080078#32 := by decide

/-- 40_pool.md R105. -/
theorem test_poolRd :
    answer (.poolRd 5#16 1#1) State.reset = ok 6#32 ∧ answer (.poolRd 255#16 1#1) State.reset = ok 0xFFFF#32
    ∧ answer (.poolRd 256#16 0#1) State.reset = some ⟨2#4, 0#32⟩
    ∧ answer (.poolRd 0#16 0#1) (start hwLock1) = ok 0x00020428#32 := by decide

/-- 40_pool.md R106. -/
theorem test_poolStat :
    answer .poolStat State.reset = ok 0x01000000#32 ∧ answer .poolStat (start hwLock1) = ok 0x00FF0001#32 := by decide

/-- 43_sequencer_cmds.md R154. -/
theorem test_diagRd : answer .diagRd (start { hw0 with diag := 12#4 }) = ok 0xC#32 := by decide

/-- 43_sequencer_cmds.md R155. -/
theorem test_diagClr :
    answer (.diagClr 4#4) (start { hw0 with diag := 12#4 }) = ok 8#32
    ∧ (after (.diagClr 4#4) (start { hw0 with diag := 12#4 })).diag = 8#4 := by decide

/-- 43_sequencer_cmds.md R156. -/
theorem test_softReset :
    after .softReset (start { hwLock1 with busy := true, frameIdx := 5, playing := true })
      = { hw0 with busy := true, frameIdx := 5 } := by decide

/-! The pool's primitives, and a full pool. -/

/-- 40_pool.md R102's example. -/
theorem test_release :
    (release referenceConfig { hw0 with freeHead := 3#16 } 1#16).freeHead = 1#16
    ∧ ((release referenceConfig { hw0 with freeHead := 3#16 } 1#16).record referenceConfig 1#16).next = 3#16 := by decide

/-- The two records of a two-record pool on one list, and none free. -/
def hwFull : Engine := pushed cfg2 (pushed cfg2 (Engine.reset cfg2) 0#4 0#4 0#16 4#8 2#8 40#8) 0#4 0#4 1#16 9#8 2#8 77#8

/-- 60_exceptions.md R221: the lock is dropped, the bit is set, an update in place still works. -/
theorem test_exhausted :
    answer (.lockSt 0#4 0#4 5#6 2#5 1#8) (start2 hwFull) = some ⟨3#4, 0#32⟩
    ∧ after (.lockSt 0#4 0#4 5#6 2#5 1#8) (start2 hwFull) = { hwFull with diag := 1#4 }
    ∧ answer (.lockSt 0#4 0#4 9#6 2#5 1#8) (start2 hwFull) = ok 0#32
    ∧ answer (.lockCpy 0#4 0#4 1#4) (start2 hwFull) = some ⟨3#4, 2#32⟩ := by decide

/-- A free list that starts at an index that names nothing faults (log 7). -/
theorem test_fault :
    exec (.lockSt 0#4 0#4 0#6 0#5 0#8) (start { hw0 with freeHead := 256#16 }) = .fault .poolIndexOutOfRange := rfl

/-! The signal path. -/

/-- 44_oscillator.md R167, R168; 95_test_vectors.md section 2.5. -/
theorem test_phase_increment :
    computePhaseIncrement referenceConfig 0#14 = 796253#32 ∧ computePhaseIncrement referenceConfig 127#14 = 843231#32
    ∧ computePhaseIncrement referenceConfig 7680#14 = 25480119#32
    ∧ computePhaseIncrement referenceConfig 7681#14 = 25491955#32
    ∧ computePhaseIncrement referenceConfig 13312#14 = 323577341#32
    ∧ computePhaseIncrement referenceConfig 14848#14 = 647154682#32
    ∧ computePhaseIncrement referenceConfig 16383#14 = 1293741832#32 := by decide

/-- 44_oscillator.md R172: the last line of the trace. -/
theorem test_cordic : cordic 0x10000000 = (496001940, 205435277) := by decide

/-- 95_test_vectors.md section 2.6. -/
theorem test_waveforms :
    referenceWave 0#8 0#32 0#8 = BitVec.ofInt 16 (-1) ∧ referenceWave 0#8 0x15555555#32 0#8 = 16384#16
    ∧ referenceWave 0#8 0x50000000#32 0#8 = 30274#16 ∧ referenceWave 0#8 0x80000000#32 0#8 = 1#16
    ∧ referenceWave 0#8 0xC0000000#32 0#8 = BitVec.ofInt 16 (-32767)
    ∧ referenceWave 1#8 0x10000000#32 0#8 = BitVec.ofInt 16 (-28672)
    ∧ referenceWave 2#8 0x7FFFFFFF#32 0#8 = 32767#16
    ∧ referenceWave 2#8 0x40000000#32 128#8 = BitVec.ofInt 16 (-32767)
    ∧ referenceWave 3#8 0x7FFFFFFF#32 0#8 = 32766#16 ∧ referenceWave 3#8 0x80000000#32 0#8 = 32767#16
    ∧ referenceWave 4#8 0x50000000#32 0#8 = 0#16 := by decide

/-- 95_test_vectors.md section 2.7. -/
theorem test_envInc :
    envInc referenceConfig 0#8 = 4294967296#33 ∧ envInc referenceConfig 3#8 = 11184811#33
    ∧ envInc referenceConfig 255#8 = 131587#33 := by decide

/-- A triggered voice with attack 1 and decay 1 (45_envelope.md R182's example). -/
def struck : Instrument :=
  { Instrument.reset referenceConfig with seg := .attack, attackInc := 33554432#33, decayInc := 33554432#33 }

/-- 45_envelope.md R182's example: levels in frames 0, 1, 128 and 130, and the segment of frames 256 and 257. -/
theorem test_envelope :
    envLevel struck = 0 ∧ envLevel (envFrames referenceConfig 1 struck) = 512
    ∧ envLevel (envFrames referenceConfig 128 struck) = 65535 ∧ envLevel (envFrames referenceConfig 130 struck) = 65023
    ∧ (envFrames referenceConfig 256 struck).seg = .decay ∧ (envFrames referenceConfig 257 struck).seg = .dead := by
  decide +kernel

/-- 95_test_vectors.md section 2.8: the fourth and the sixth line of its table of single steps. -/
theorem test_filter :
    (let r := svfStep { struck with low := 1000#16, band := 500#16, fCoef := 8224#15, dCoef := 32767#15 } (-2000);
      r.1 = 1125 ∧ r.2.low = 1125#16 ∧ r.2.band = BitVec.ofInt 16 (-410))
    ∧ (let r := svfStep { struck with low := 32767#16, band := 32767#16, fCoef := 32767#15, dCoef := 382#15 } 32767;
      r.1 = 32767 ∧ r.2.band = 32386#16) := by decide

/-- 95_test_vectors.md sections 2.8 and 2.9. -/
theorem test_gains :
    byteToQ15 200#8 = 25700#15 ∧ dampingOf 200#8 = 7367#15 ∧ satmulQ15 (-32768) (-32768) = 32767
    ∧ satmulQ15 (-12345) 8224 = -3099 ∧ envGain 19470 4096 = 1216 ∧ envGain (-1) 1 = -1 ∧ sat16 (-32769) = -32768 := by
  decide

/-- Voice 0 before frame 2 of the second block of program P4 (95_test_vectors.md). -/
def sounding : Instrument :=
  { Instrument.reset referenceConfig with
    seg := .decay, pitch := 7680#14, phaseInc := 25480119#32, oscPhase := 50960238#32, band := 1219#16 }

/-- That frame of program P4: the voice's sample, and its registers before frame 3. -/
theorem test_voiceSample :
    (voiceSample referenceConfig sounding).1 = 1217
    ∧ (voiceSample referenceConfig sounding).2
      = { sounding with oscPhase := 76440357#32, envPhase := 1048576#32, low := 1218#16, band := 1221#16 } := by decide

/-! The render agent. -/

/-- The step of an event from a hardware state. -/
def event (i : Input) (e : Engine) : Result := step { start e with inputs := [i] }

/-- 48_render_sequencer.md R206 with a lock under the step context (45_envelope.md R186). -/
theorem test_blockStart :
    (hwOf (event .period { hwLock1 with playValid := true, playStep := 4#4 })).busy = true
    ∧ ((hwOf (event .period { hwLock1 with playValid := true, playStep := 4#4 })).voice 0#4).fCoef = byteToQ15 40#8
    ∧ ((hwOf (event .period hwLock1)).voice 0#4).fCoef = 32767#15 := by decide

/-- Frame 2 of the second block of program P4: (202, 202). -/
theorem test_frame :
    (hwOf (event .render { hw0.setVoice 0#4 sounding with busy := true, frameIdx := 2 })).audio 2 false = 202#16
    ∧ (hwOf (event .render { hw0.setVoice 0#4 sounding with busy := true, frameIdx := 2 })).audio 2 true = 202#16
    ∧ (hwOf (event .render { hw0.setVoice 0#4 sounding with busy := true, frameIdx := 2 })).frameIdx = 3 := by decide

/-- The state of 48_render_sequencer.md R208's example. -/
def hwGrid : Engine :=
  { (hw0.setTrig 0#4 4#4 true).setGnote 0#4 4#4 60#8 with
    playing := true, curStep := 4#4, countdown := 1#32, busy := true }

/-- 48_render_sequencer.md R208's example. -/
theorem test_tick :
    ((hwOf (event .render hwGrid)).voice 0#4).pitch = 7680#14 ∧ (hwOf (event .render hwGrid)).playStep = 4#4
    ∧ (hwOf (event .render hwGrid)).curStep = 5#4 ∧ (hwOf (event .render hwGrid)).countdown = 5512#32
    ∧ ((hwOf (event .render hwGrid)).voice 1#4).pitch = 0#14 := by decide

/-- The state before the BlockEnd of 48_render_sequencer.md R212's example. -/
def hwStrike : Engine :=
  { hw0 with selVoice := 3#4, pendingNote := true, pendingNoteValue := 60#8, busy := true, frameIdx := 128 }

/-- 48_render_sequencer.md R212's example. -/
theorem test_blockEnd :
    ((hwOf (event .render hwStrike)).voice 3#4).pitch = 7680#14
    ∧ ((hwOf (event .render hwStrike)).voice 3#4).seg = .attack ∧ (hwOf (event .render hwStrike)).pendingNote = false
    ∧ (hwOf (event .render hwStrike)).busy = false := by decide

/-- A period signal while `busy` = 1 has no step (93_implementation_defined.md U2). -/
theorem test_missed_deadline : event .period { hw0 with busy := true } = .refused .periodWhileBusy := rfl

/-- 95_test_vectors.md section 2.1: an illegal word from reset. -/
theorem test_illegal_step :
    event (.command 0x00000001#32) hw0
      = .next { start { hw0 with diag := 4#4 } with response := some ⟨1#4, 0#32⟩ } := rfl

/-- `withFetchWord` presents a word of 32 bits to the very next step. -/
theorem test_withFetchWord : answerOf (step (State.reset.withFetchWord 32 0xFA800002)) = ok 5512#32 := by decide

/-! Witnesses. Each theorem shows operands and a state that meet every hypothesis of the statement it is named after,
one for each clause, at the ends of its ranges. -/

/-- The pool of `cfg2` after reset. -/
theorem owned_reset2 : PoolOwned cfg2 (Engine.reset cfg2) [0#16, 1#16] fun _ _ => [] :=
  reset_owned (by decide)

/-- The state of `cfg2` with one lock. -/
def hwOne : Engine := pushed cfg2 (Engine.reset cfg2) 0#4 0#4 0#16 4#8 2#8 40#8

/-- Who owns what with one lock. -/
def ownOne : VoiceIx → PatternIx → List PoolIx := setList (fun _ _ => []) 0#4 0#4 [0#16]

theorem owned_one : PoolOwned cfg2 hwOne [1#16] ownOne := owned_push owned_reset2 rfl (by decide) (by decide)

/-- Who owns what where the pool is full. -/
def ownFull : VoiceIx → PatternIx → List PoolIx := setList ownOne 0#4 0#4 [1#16, 0#16]

theorem owned_full : PoolOwned cfg2 hwFull [] ownFull :=
  owned_push owned_one (v := 0#4) (p := 0#4) (st := 9#8) (id := 2#8) (val := 77#8) (by decide) (by decide) (by decide)

theorem witness_EncodeRebuildsEveryLegalWord :
    decode 0x00000000#32 = .ok .nop ∧ decode 0xFD05A5A5#32 = .ok .softReset := ⟨rfl, rfl⟩

theorem witness_CommandExactlyWhenMaskedBitsMatch :
    rowPlay ∈ opcodeRows ∧ 0xF8000001#32 &&& rowPlay.mask = rowPlay.bits := by decide

theorem witness_StepRunsTheDecodedCommand :
    (State.reset.withFetchWord 32 0xFA800002).inputs = .command 0xFA800002#32 :: []
    ∧ decode 0xFA800002#32 = .ok (.seqRd 2#2) := ⟨rfl, rfl⟩

theorem witness_IllegalWordChangesOnlyDiag :
    (State.reset.withFetchWord 32 0xB8000000).inputs = .command 0xB8000000#32 :: []
    ∧ decode 0xB8000000#32 = .error (.noSuchOpcode 0x17#5) := ⟨rfl, rfl⟩

/-- The first and the last value of each refused range. -/
theorem witness_RefusedOperandChangesOnlyDiag :
    27 ≤ (27#5 : ParamId).toNat ∧ 27 ≤ (31#5 : ParamId).toNat ∧ (0#8 : Byte).toNat < 1 ∧ 64 < (65#8 : Byte).toNat
    ∧ 64 < (255#8 : Byte).toNat ∧ 4 < (5#8 : Byte).toNat ∧ 4 < (255#8 : Byte).toNat
    ∧ State.reset.cfg.poolC ≤ (256#16 : PoolIx).toNat ∧ State.reset.cfg.poolC ≤ (65535#16 : PoolIx).toNat
    ∧ wellFormed State.reset.cfg (.paramWr 0#4 27#5 1#8) = false
    ∧ wellFormed State.reset.cfg (.poolRd 256#16 0#1) = false := by decide

theorem witness_ParameterWriteStoresOneByteAndReadAnswersIt : (0#5 : ParamId).toNat < 27 ∧ (26#5 : ParamId).toNat < 27 := by
  decide

/-- A list of two locks, and an empty list. -/
theorem witness_ResolveAnswersTheLockOrTheDefault :
    (26#5 : ParamId).toNat < 27
    ∧ IsList (start2 hwFull).cfg (start2 hwFull).hw ((start2 hwFull).hw.lockHead 0#4 0#4) [1#16, 0#16]
    ∧ IsList (start2 hwFull).cfg (start2 hwFull).hw ((start2 hwFull).hw.lockHead 3#4 7#4) [] :=
  ⟨by decide, owned_full.lists 0#4 0#4, owned_full.lists 3#4 7#4⟩

/-- A head that names nothing, a record that links to itself, a cycle of two. -/
def hwBadHead : Engine := (Engine.reset cfg2).setLockHead 0#4 0#4 5#16
def hwSelfLoop : Engine := ((Engine.reset cfg2).setRecord cfg2 0#16 ⟨2#8, 4#8, 40#8, 0#16⟩).setLockHead 0#4 0#4 0#16
def hwCycle : Engine :=
  (((Engine.reset cfg2).setRecord cfg2 0#16 ⟨2#8, 4#8, 40#8, 1#16⟩).setRecord cfg2 1#16 ⟨2#8, 5#8, 41#8, 0#16⟩).setLockHead
    0#4 0#4 0#16

theorem corrupt_badHead : CorruptAfter cfg2 hwBadHead (hwBadHead.lockHead 0#4 0#4) [] :=
  ⟨5#16, path_nil.2 (by decide), by decide, .inl (by decide)⟩

theorem corrupt_selfLoop : CorruptAfter cfg2 hwSelfLoop (hwSelfLoop.lockHead 0#4 0#4) [0#16] :=
  ⟨0#16, path_cons.2 ⟨by decide, by decide, by decide, path_nil.2 (by decide)⟩, by decide, .inr (.inl (by decide))⟩

theorem corrupt_cycle : CorruptAfter cfg2 hwCycle (hwCycle.lockHead 0#4 0#4) [0#16, 1#16] :=
  ⟨0#16, path_cons.2 ⟨by decide, by decide, by decide, path_cons.2 ⟨by decide, by decide, by decide,
    path_nil.2 (by decide)⟩⟩, by decide, .inr (.inr (by decide))⟩

theorem witness_WalkOverACorruptListOnlyRaisesCycle :
    (2#5 : ParamId).toNat < 27
    ∧ CorruptAfter (start2 hwBadHead).cfg (start2 hwBadHead).hw ((start2 hwBadHead).hw.lockHead 0#4 0#4) []
    ∧ CorruptAfter (start2 hwSelfLoop).cfg (start2 hwSelfLoop).hw ((start2 hwSelfLoop).hw.lockHead 0#4 0#4) [0#16]
    ∧ (∀ i ∈ [(0#16 : PoolIx)], (hwSelfLoop.record cfg2 i).step ≠ (9#6 : StepIx).setWidth 8)
    ∧ CorruptAfter (start2 hwCycle).cfg (start2 hwCycle).hw ((start2 hwCycle).hw.lockHead 0#4 0#4) [0#16, 1#16]
    ∧ ∀ i ∈ [(0#16 : PoolIx), 1#16], (hwCycle.record cfg2 i).step ≠ (9#6 : StepIx).setWidth 8 :=
  ⟨by decide, corrupt_badHead, corrupt_selfLoop, List.forall_mem_singleton.2 (by decide), corrupt_cycle,
    List.forall_mem_cons.2 ⟨by decide, List.forall_mem_singleton.2 (by decide)⟩⟩

/-- The three corrupt chains, each of distinct records; and what `LOCK_CLR` answers on the first two (41_params_locks.md
R117). -/
theorem witness_LockClearAlwaysEmptiesThePattern :
    (CorruptAfter (start2 hwBadHead).cfg (start2 hwBadHead).hw ((start2 hwBadHead).hw.lockHead 0#4 0#4) []
      ∧ ([] : List PoolIx).Nodup)
    ∧ (CorruptAfter (start2 hwSelfLoop).cfg (start2 hwSelfLoop).hw ((start2 hwSelfLoop).hw.lockHead 0#4 0#4) [0#16]
      ∧ [(0#16 : PoolIx)].Nodup)
    ∧ (CorruptAfter (start2 hwCycle).cfg (start2 hwCycle).hw ((start2 hwCycle).hw.lockHead 0#4 0#4) [0#16, 1#16]
      ∧ [(0#16 : PoolIx), 1#16].Nodup)
    ∧ answer (.lockClr 0#4 0#4) (start2 hwBadHead) = some ⟨4#4, 0#32⟩
    ∧ answer (.lockClr 0#4 0#4) (start2 hwSelfLoop) = some ⟨4#4, 1#32⟩ :=
  ⟨⟨corrupt_badHead, by decide⟩, ⟨corrupt_selfLoop, by decide⟩, ⟨corrupt_cycle, by decide⟩, by decide, by decide⟩

/-- `LOCK_RMS` on a bad head, on a record that links to itself, which stays, and on a cycle; `LOCK_CPY` of the first two,
into a pattern whose own chain is corrupt too, and of a sound list into such a pattern. -/
theorem witness_LockRemovalAndCopyStopAtACorruptLink :
    CorruptAt (start2 hwBadHead).cfg (start2 hwBadHead).hw ((start2 hwBadHead).hw.lockHead 0#4 0#4) [] 5#16
    ∧ (CorruptAt (start2 hwSelfLoop).cfg (start2 hwSelfLoop).hw ((start2 hwSelfLoop).hw.lockHead 0#4 0#4) [0#16] 0#16
      ∧ [] = if [(0#16 : PoolIx)].getLast? = some 0#16 then [(0#16 : PoolIx)].dropLast else [0#16])
    ∧ (CorruptAt (start2 hwCycle).cfg (start2 hwCycle).hw ((start2 hwCycle).hw.lockHead 0#4 0#4) [0#16, 1#16] 0#16
      ∧ [(0#16 : PoolIx), 1#16].Nodup)
    ∧ (Replays cfg2 0#4 1#4 hwBadHead (hwBadHead.lockHead 0#4 0#4) [] 0 hwBadHead 5#16
      ∧ poolIxInRange cfg2 5#16 = false)
    ∧ (∃ e, Replays cfg2 0#4 1#4 hwSelfLoop (hwSelfLoop.lockHead 0#4 0#4) [0#16] 0 e 0#16
      ∧ [(0#16 : PoolIx)].getLast? = some 0#16)
    ∧ ∃ e', Replays cfg2 0#4 1#4 (hwOne.setLockHead 0#4 1#4 5#16) ((hwOne.setLockHead 0#4 1#4 5#16).lockHead 0#4 0#4)
        [] 0 (hwOne.setLockHead 0#4 1#4 5#16) 0#16
      ∧ storeLock cfg2 (hwOne.setLockHead 0#4 1#4 5#16) 0#4 1#4 4#8 2#8 40#8 = .ok (.cycle, e')
      ∧ poolIxInRange cfg2 0#16 = true ∧ ([] : List PoolIx).getLast? ≠ some 0#16 ∧ ([] : List PoolIx).length < cfg2.poolC :=
  ⟨⟨path_nil.2 (by decide), by decide, .inl (by decide)⟩,
    ⟨⟨path_cons.2 ⟨by decide, by decide, by decide, path_nil.2 (by decide)⟩, by decide, .inr (.inl rfl)⟩, rfl⟩,
    ⟨⟨path_cons.2 ⟨by decide, by decide, by decide, path_cons.2 ⟨by decide, by decide, by decide,
      path_nil.2 (by decide)⟩⟩, by decide, .inr (.inr rfl)⟩, by decide⟩,
    ⟨⟨rfl, rfl, by decide⟩, by decide⟩,
    ⟨_, ⟨by decide, by decide, by decide, fun _ => rfl, .ok, _, 0, rfl, by decide, rfl, rfl, rfl, by decide⟩, rfl⟩,
    ⟨_, ⟨rfl, rfl, by decide⟩, rfl, by decide, by decide, by decide⟩⟩

theorem witness_LockStoreUpdatesInPlace :
    (2#5 : ParamId).toNat < 27 ∧ PoolOwned (start2 hwOne).cfg (start2 hwOne).hw [1#16] ownOne ∧ 0#16 ∈ ownOne 0#4 0#4
    ∧ ((start2 hwOne).hw.record cfg2 0#16).step = (4#6 : StepIx).setWidth 8
    ∧ ((start2 hwOne).hw.record cfg2 0#16).param = (2#5 : ParamId).setWidth 8 :=
  ⟨by decide, owned_one, by decide, by decide, by decide⟩

/-- The last free record, on a pattern that has a lock. -/
theorem witness_LockStorePushesAFreeRecord :
    (2#5 : ParamId).toNat < 27 ∧ PoolOwned (start2 hwOne).cfg (start2 hwOne).hw (1#16 :: []) ownOne
    ∧ holdsKey (start2 hwOne).cfg (start2 hwOne).hw (ownOne 0#4 0#4) ((9#6 : StepIx).setWidth 8)
        ((2#5 : ParamId).setWidth 8) = false :=
  ⟨by decide, owned_one, by decide⟩

theorem witness_LockStoreOnAFullPoolDropsTheLock :
    (2#5 : ParamId).toNat < 27
    ∧ IsList (start2 hwFull).cfg (start2 hwFull).hw ((start2 hwFull).hw.lockHead 0#4 0#4) [1#16, 0#16]
    ∧ holdsKey (start2 hwFull).cfg (start2 hwFull).hw [1#16, 0#16] ((5#6 : StepIx).setWidth 8)
        ((2#5 : ParamId).setWidth 8) = false
    ∧ (start2 hwFull).hw.freeHead = sentinel :=
  ⟨by decide, owned_full.lists 0#4 0#4, by decide, by decide⟩

theorem witness_StoredLockIsResolvedAndNoOtherChanges :
    (2#5 : ParamId).toNat < 27 ∧ PoolSound (start2 hwOne).cfg (start2 hwOne).hw
    ∧ ∃ t, exec (.lockSt 0#4 0#4 9#6 2#5 77#8) (start2 hwOne) = .next t ∧ t.response = some ⟨0#4, 0#32⟩ :=
  ⟨by decide, ⟨_, _, owned_one⟩, _, rfl, rfl⟩

theorem witness_LockClearFreesTheWholeList : PoolOwned (start2 hwFull).cfg (start2 hwFull).hw [] ownFull := owned_full

theorem witness_LockRemovalFreesExactlyTheStep :
    PoolOwned (start2 hwFull).cfg (start2 hwFull).hw [] ownFull ∧ (ownFull 0#4 0#4).length = 2 := ⟨owned_full, by decide⟩

/-- Room for the one new lock, room for none, and a copy onto itself. -/
theorem witness_LockCopyReplaysEveryLock :
    (0#4 : PatternIx) ≠ 1#4 ∧ PoolOwned (start2 hwOne).cfg (start2 hwOne).hw [1#16] ownOne
    ∧ [0#16] = newLocks (start2 hwOne).cfg (start2 hwOne).hw (ownOne 0#4 0#4) (ownOne 0#4 1#4)
    ∧ PoolOwned (start2 hwFull).cfg (start2 hwFull).hw [] ownFull
    ∧ [1#16, 0#16] = newLocks (start2 hwFull).cfg (start2 hwFull).hw (ownFull 0#4 0#4) (ownFull 0#4 1#4)
    ∧ PoolSound (start2 hwFull).cfg (start2 hwFull).hw :=
  ⟨by decide, owned_one, by decide, owned_full, by decide, ⟨_, _, owned_full⟩⟩

theorem witness_LockHasAnswersWhetherTheStepIsLocked :
    IsList (start2 hwFull).cfg (start2 hwFull).hw ((start2 hwFull).hw.lockHead 0#4 0#4) [1#16, 0#16] :=
  owned_full.lists 0#4 0#4

theorem witness_PoolReadsAnswerTheRecordAndTheOccupancy :
    State.reset.cfg.poolC ≤ 32768 ∧ (0#16 : PoolIx).toNat < State.reset.cfg.poolC
    ∧ (255#16 : PoolIx).toNat < State.reset.cfg.poolC := by decide

theorem witness_AllocatePopsAndReleasePushes :
    hwFull.freeHead = sentinel ∧ hwOne.freeHead ≠ sentinel ∧ hwOne.freeHead.toNat < cfg2.poolC
    ∧ (1#16 : PoolIx) ≠ sentinel ∧ (1#16 : PoolIx).toNat < cfg2.poolC := by decide

theorem witness_NoteWriteKeepsTheCount : NoteCountsRight State.reset.hw := reset_noteCounts referenceConfig

theorem witness_PatternWritesStoreOneElement :
    1 ≤ (1#8 : Byte).toNat ∧ (1#8 : Byte).toNat ≤ 64 ∧ 1 ≤ (64#8 : Byte).toNat ∧ (64#8 : Byte).toNat ≤ 64 := by decide

/-- The lengths 1, 32, 33 and 64. -/
theorem witness_PatternDoublingRepeatsTheFirstHalf :
    1 = ((hw0.setLength 0#4 0#4 1#7).length 0#4 0#4).toNat
    ∧ 32 = ((hw0.setLength 0#4 0#4 32#7).length 0#4 0#4).toNat
    ∧ NoteCountsRight (hw0.setLength 0#4 0#4 32#7)
    ∧ 32 < ((hw0.setLength 0#4 0#4 33#7).length 0#4 0#4).toNat
    ∧ 32 < ((hw0.setLength 0#4 0#4 64#7).length 0#4 0#4).toNat :=
  ⟨by decide, by decide, reset_noteCounts referenceConfig, by decide, by decide⟩

theorem witness_PatternCopyCopiesEverySlot : (0#4 : PatternIx) ≠ 5#4 ∧ NoteCountsRight State.reset.hw :=
  ⟨by decide, reset_noteCounts referenceConfig⟩

theorem witness_NopChangesNothing : fieldOp 1#32 = 0#5 ∧ 1#32 ≠ 0#32 := by decide

theorem witness_TypeAndPatternWritesChangeOneRegister : (0#8 : Byte).toNat ≤ 4 ∧ (4#8 : Byte).toNat ≤ 4 := by decide

/-- The three modes; the toggle from each value. -/
theorem witness_GridWritesStoreOneCell :
    ((0#2 : BitVec 2) = 0#2 ∧ false = false) ∧ ((1#2 : BitVec 2) = 1#2 ∧ true = true)
    ∧ ((2#2 : BitVec 2) = 2#2 ∧ true = !(hw0.trig 0#4 4#4))
    ∧ ((2#2 : BitVec 2) = 2#2 ∧ false = !((hw0.setTrig 0#4 4#4 true).trig 0#4 4#4)) := by decide

theorem witness_PlayStartsAndStopsTheSequencer :
    State.reset.hw.playing = false ∧ (start { hw0 with playing := true }).hw.playing = true := by decide

theorem witness_SequencerRegisterWritesStoreTheOperand : (1#16 : BitVec 16) ≠ 0#16 ∧ (65535#16 : BitVec 16) ≠ 0#16 := by
  decide

/-- Neighbours, and pitches an octave apart at both ends of the range. -/
theorem witness_PhaseIncrementHalvesAnOctaveBelow :
    referenceConfig.valid ∧ (7680#14 : BitVec 14) ≤ 7681#14
    ∧ (1536#14 : BitVec 14).toNat = (0#14 : BitVec 14).toNat + octave
    ∧ (16383#14 : BitVec 14).toNat = (14847#14 : BitVec 14).toNat + octave
    ∧ (10 = (referenceConfig.lutOrigin + 1535 - (0#14 : BitVec 14).toNat) / 1536
      ∧ 512 = (0#14 : BitVec 14).toNat + 1536 * 10 - referenceConfig.lutOrigin)
    ∧ (0 = (referenceConfig.lutOrigin + 1535 - (16383#14 : BitVec 14).toNat) / 1536
      ∧ 1535 = (16383#14 : BitVec 14).toNat + 1536 * 0 - referenceConfig.lutOrigin) := by decide

/-- The reference counts: 128 frames of attack, one of hold, 128 of decay; for the byte 0 the least increment is 2^32. -/
theorem witness_EnvelopeLastsItsCounts :
    referenceConfig.envMap = .reference ∧ 2 ^ 32 ≤ 2 ^ 32 * envCount referenceConfig 0#8
    ∧ struck.seg = .attack ∧ struck.envPhase = 0#32 ∧ struck.attackInc = envInc referenceConfig 1#8
    ∧ struck.decayInc = envInc referenceConfig 1#8 ∧ 128 = envCount referenceConfig 1#8
    ∧ 129 = 128 + (referenceConfig.envHold.toNat + 1) ∧ 257 = 129 + envCount referenceConfig 1#8 := by decide

/-- The steps of the rotation from an angle, one for each number. -/
def rotation (angle : Int) : Nat → Int × Int × Int
  | 0 => (326011462, 0, angle)
  | i + 1 =>
    let r := rotation angle i
    let a := cordicAtan[i]?.getD 0
    if 0 ≤ r.2.2 then (r.1 - r.2.1 / 2 ^ i, r.2.1 + r.1 / 2 ^ i, r.2.2 - a)
    else (r.1 + r.2.1 / 2 ^ i, r.2.1 - r.1 / 2 ^ i, r.2.2 + a)

/-- The rotation meets the statement's steps from every angle; the first and the last silent shape. -/
theorem witness_ReferenceWavesFollowTheirRules (angle : Int) :
    referenceConfig.wave = .reference
    ∧ (∃ x y z : Nat → Int, x 0 = 326011462 ∧ y 0 = 0 ∧ z 0 = angle
      ∧ ∀ (i : Nat) (a : Int), i < 16 →
        [536870912, 316933406, 167458907, 85004756, 42667331, 21354465, 10679838, 5340245,
          2670163, 1335087, 667544, 333772, 166886, 83443, 41722, 20861][i]? = some a →
        if 0 ≤ z i then
          x (i + 1) = x i - y i / 2 ^ i ∧ y (i + 1) = y i + x i / 2 ^ i ∧ z (i + 1) = z i - a
        else x (i + 1) = x i + y i / 2 ^ i ∧ y (i + 1) = y i - x i / 2 ^ i ∧ z (i + 1) = z i + a)
    ∧ 4 ≤ (4#8 : Byte).toNat ∧ 4 ≤ (255#8 : Byte).toNat := by
  refine ⟨rfl, ⟨fun i => (rotation angle i).1, fun i => (rotation angle i).2.1, fun i => (rotation angle i).2.2, rfl, rfl,
    rfl, fun i a _ ha => ?_⟩, by decide, by decide⟩
  have ha' : cordicAtan[i]?.getD 0 = a := by
    rw [show cordicAtan[i]? = some a from ha]
    rfl
  simp only [rotation, ha']
  split <;> exact ⟨rfl, rfl, rfl⟩

/-- A step in which the low saturates, with the product that reaches it. -/
theorem witness_FilterStepFollowsTheRecursion :
    ∃ low high band : Int,
      low = max (-32768) (min 32767 ((32767#16 : Sample).toInt + (32767#15).toNat * (32767#16 : Sample).toInt / 32768))
      ∧ high = max (-32768) (min 32767 (32767 - low - (382#15).toNat * (32767#16 : Sample).toInt / 32768))
      ∧ band = max (-32768) (min 32767 ((32767#16 : Sample).toInt + (32767#15).toNat * high / 32768))
      ∧ low = 32767 ∧ band = 32386 := ⟨_, _, _, rfl, rfl, rfl, by decide, by decide⟩

/-- A voice in each of the four segments, and one that renders nothing. -/
theorem witness_VoiceSampleFollowsTheChain :
    struck.kind = .synth ∧ sounding.kind = .synth ∧ sounding.seg = .decay
    ∧ ({ struck with seg := .hold } : Instrument).kind = .synth ∧ ({ struck with seg := .dead } : Instrument).kind = .synth
    ∧ ({ struck with kind := .global } : Instrument).kind ≠ .synth := by decide

theorem witness_CoefficientsReplicateBitsAndGainsNeverAmplify :
    (254#8 : Byte) < 255#8 ∧ 0 ≤ (32767#16 : Sample).toInt ∧ (0x8000#16 : Sample).toInt < 0 ∧ 65535 ≤ 65535
    ∧ 1 ≤ 65535 := by decide

/-- A block under the step context of a corrupt list, and one without a context. -/
theorem witness_BlockStartPullsTheRenderedVoices :
    ({ start hwLock1 with inputs := [.period] } : State).inputs = .period :: []
    ∧ (start hwLock1).hw.busy = false ∧ 6 ≤ (15#4 : VoiceIx).toNat ∧ (5#4 : VoiceIx).toNat < 6
    ∧ (∃ v : VoiceIx, v.toNat < 6 ∧ PullFaults cfg2 { hwBadHead with playValid := true } v (some (0#4, 4#6)))
    ∧ ∀ v : VoiceIx, v.toNat < 6 → ¬PullFaults referenceConfig hwLock1 v none :=
  ⟨rfl, rfl, by decide, by decide, ⟨0#4, by decide, 0#5, by decide, by decide⟩,
    fun _ _ h => by obtain ⟨_, _, hf⟩ := h; simp [resolveParam] at hf⟩

theorem witness_PeriodSignalDuringABlockHasNoStep :
    ({ start hwGrid with inputs := [.period] } : State).inputs = .period :: [] ∧ (start hwGrid).hw.busy = true := by decide

/-- The first frame of a block and the last. -/
theorem witness_FrameMixesTheRenderedVoices :
    ({ start hwGrid with inputs := [.render] } : State).inputs = .render :: [] ∧ hwGrid.busy = true
    ∧ hwGrid.frameIdx.val < 128 ∧ ({ hwGrid with frameIdx := 127 } : Engine).frameIdx.val < 128
    ∧ (hwGrid.playing = true ∧ hwGrid.countdown.toNat ≤ 1)
    ∧ ({ hwGrid with countdown := 0#32 } : Engine).countdown.toNat ≤ 1
    ∧ ¬({ hwGrid with countdown := 2#32 } : Engine).countdown.toNat ≤ 1
    ∧ ¬({ hwGrid with playing := false } : Engine).playing = true := by decide

/-- The note 127 with the active bit set; a triggered voice whose list is corrupt; and no voice triggered. -/
theorem witness_TickTriggersTheVoicesOfTheStep :
    (16256#14 : BitVec 14).toNat = ((hwGrid.setGnote 0#4 4#4 255#8).gnote 0#4 4#4).toNat % 128 * 128
    ∧ (∃ v, (hwBadHead.setTrig 0#4 0#4 true).trig v 0#4 = true
      ∧ PullFaults cfg2 (hwBadHead.setTrig 0#4 0#4 true) v (some (0#4, 0#6)))
    ∧ ∀ v, hw0.trig v hw0.curStep = true → ¬PullFaults referenceConfig hw0 v (some (hw0.curPat v, 0#6)) :=
  ⟨by decide, ⟨0#4, by decide, 0#5, by decide, by decide⟩, fun v h => absurd (show false = true from h) (by decide)⟩

/-- The countdowns 0, 1 and 5385, the last as a block leaves it (48_render_sequencer.md R209). -/
theorem witness_TicksAreOnePeriodApart :
    hwGrid.playing = true ∧ 1 = max 1 hwGrid.countdown.toNat ∧ 5512 = hwGrid.samplesPerStep.toNat
    ∧ 1 = max 1 ({ hwGrid with countdown := 0#32 } : Engine).countdown.toNat
    ∧ 5385 = max 1 ({ hwGrid with countdown := 5385#32 } : Engine).countdown.toNat ∧ hw0.playing = false := by decide

/-- A strike on a sound list and one on a corrupt list. -/
theorem witness_BlockEndStrikesTheManualNote :
    ({ start hwStrike with inputs := [.render] } : State).inputs = .render :: [] ∧ hwStrike.busy = true
    ∧ hwStrike.frameIdx.val = 128 ∧ (7680#14 : BitVec 14).toNat = hwStrike.pendingNoteValue.toNat % 128 * 128
    ∧ hwStrike.pendingNote = true ∧ ¬PullFaults referenceConfig hwStrike hwStrike.selVoice none
    ∧ PullFaults cfg2 { hwBadHead with playValid := true, pendingNote := true } 0#4 (some (0#4, 0#6))
    ∧ hw0.pendingNote = false :=
  ⟨rfl, rfl, rfl, by decide, rfl, fun h => by obtain ⟨_, _, hf⟩ := h; simp [resolveParam] at hf,
    ⟨0#5, by decide, by decide⟩, rfl⟩

/-- The reset state is sound. -/
theorem reset_sound : Sound State.reset :=
  ⟨by decide, ⟨_, _, reset_owned (c := referenceConfig) (by decide)⟩, reset_noteCounts referenceConfig,
    reset_fields referenceConfig, fun _ => .inl rfl⟩

/-- A command between two turns, no turn at all, and a whole block of turns. -/
theorem witness_ABlockIsProducedWhole :
    Sound State.reset ∧ State.reset.hw.busy = false
    ∧ (∀ i ∈ [Input.render, .command 0x00000000#32, .render], i = .render ∨ ∃ w, i = .command w)
    ∧ 2 = [Input.render, .command 0x00000000#32, .render].count .render
    ∧ 0 = ([] : List Input).count .render
    ∧ 129 = (List.replicate 129 Input.render).count .render
    ∧ ({ State.reset with inputs := .period :: (List.replicate 129 Input.render ++ []) } : State).inputs
      = .period :: (List.replicate 129 Input.render ++ []) := by
  refine ⟨reset_sound, rfl, ?_, by decide, rfl, List.count_replicate_self.symm, rfl⟩
  simp

/-- A stopped sequencer, a running one between two ticks, and a tick with no trigger bit set. -/
theorem witness_SilenceStaysSilent :
    Quiet hw0 ∧ hw0.playing = false ∧ 1 < ({ hw0 with countdown := 2#32 } : Engine).countdown.toNat
    ∧ ∀ v, hw0.trig v hw0.curStep = false :=
  ⟨fun v _ => by rw [show hw0.voice v = _ from voice_reset referenceConfig v]; exact ⟨rfl, rfl, rfl⟩,
    by decide, by decide, fun _ => rfl⟩

/-- A `SAMPLE` voice and voice 6, with the sequencer stopped, between ticks and at a tick that does not trigger them. -/
theorem witness_OnlyRenderedSynthVoicesAdvance :
    ((hw0.setVoice 0#4 { hw0.voice 0#4 with kind := .sample }).voice 0#4).kind ≠ .synth ∧ 6 ≤ (6#4 : VoiceIx).toNat
    ∧ hw0.playing = false ∧ 1 < ({ hw0 with countdown := 2#32 } : Engine).countdown.toNat
    ∧ hwGrid.trig 6#4 hwGrid.curStep = false := by decide

/-- A Frame, a BlockEnd, an idle turn and a BlockStart. -/
theorem witness_RenderAgentWritesNoHostState :
    (∃ t, event .render hwGrid = .next t) ∧ (∃ t, event .render hwStrike = .next t) ∧ (∃ t, step State.reset = .next t)
    ∧ (∃ t, event .period hw0 = .next t)
    ∧ (({ State.reset with inputs := [.render] } : State).inputs = .render :: [] ∧ State.reset.hw.busy = false)
    ∧ State.reset.inputs = [] ∧ (start hwGrid).inputs = [] ∧ (start hwGrid).hw.busy = true :=
  ⟨⟨_, rfl⟩, ⟨_, rfl⟩, ⟨_, rfl⟩, ⟨_, rfl⟩, ⟨rfl, rfl⟩, rfl, rfl, rfl⟩

theorem witness_CommandsWriteNoRenderState :
    (Instr.play 1#1) ≠ .softReset ∧ ∃ t, exec (.play 1#1) State.reset = .next t := ⟨by decide, _, rfl⟩

/-- An illegal word on a machine with a bit set already. -/
theorem witness_DiagnosticsAreSticky :
    (∃ t, event (.command 1#32) { hw0 with diag := 8#4 } = .next t)
    ∧ (decode 1#32 ≠ .ok .softReset ∧ ∀ mask, decode 1#32 ≠ .ok (.diagClr mask)) :=
  ⟨⟨_, rfl⟩, nofun, nofun⟩

theorem witness_StepKeepsMemoryCanonical :
    memoryCanonical referenceConfig hwLock1 = true ∧ ∃ t, event .render hwLock1 = .next t := ⟨by decide, _, rfl⟩

theorem witness_StepKeepsSound :
    Sound State.reset ∧ State.reset.hw.diag.getLsbD 1 = false
    ∧ ∃ t, step (State.reset.withFetchWord 32 0x20008228) = .next t := ⟨reset_sound, by decide, _, rfl⟩

theorem witness_ResetStateIsSound : referenceConfig.valid ∧ cfg2.valid := by decide

theorem witness_HardwareResetGivesTheResetValues :
    ({ start hwLock3 with inputs := [.hardReset] } : State).inputs = .hardReset :: []
    ∧ (255#16 : PoolIx).toNat < (start hwLock3).cfg.poolC := by decide

end Sys2Proof.Tests
end

section
/-!
PROOFS. The reset input gives every component the reset value of 10_state.md R48.
-/

namespace Sys2Proof.ResetProofs

open Sys2Proof Sys2Proof.Machine Sys2Proof.Laws

/-- The reset value at a parameter's place depends on its id alone (10_state.md R30). -/
theorem parReset_parIx (v : VoiceIx) (id : ParamId) :
    parReset (parIx v id) = if id = 0#5 ∨ id = 2#5 then 255#8 else if id = 7#5 then 32#8 else 0#8 := by
  have hmod : parIx v id % 32 = id.toNat := by
    simp only [parIx]
    omega
  rw [parReset, hmod]
  clear hmod
  revert id
  decide

/-- The voice-level parameters after reset: the column "reset" of 10_state.md R30. -/
theorem par_reset (c : Config) (v : VoiceIx) (id : ParamId) :
    (Engine.reset c).par v id = if id = 0#5 ∨ id = 2#5 then 255#8 else if id = 7#5 then 32#8 else 0#8 := by
  have hread : (Engine.reset c).par v id = parReset (parIx v id) := rfl
  rw [hread, parReset_parIx]

/-- The pool after reset: the free list in ascending order (10_state.md R48). -/
theorem record_reset_ascending (c : Config) (i : PoolIx) :
    (Engine.reset c).record c i
      = ⟨0#8, 0#8, 0#8, if i.toNat + 1 < c.poolC then i + 1#16 else 0xFFFF#16⟩ := by
  have hnext : BitVec.ofNat 16 (i.toNat + 1) = i + 1#16 := by
    rw [BitVec.ofNat_add, BitVec.ofNat_toNat, BitVec.setWidth_eq]
  rw [record_reset, recordReset, nextReset, hnext, sentinel]

/-- The byte 255 is the gain, and the byte 0 the damping, of 32767/32768 (46_filter.md R191; 47_gain_mixer.md R198). -/
theorem coefficients_reset : byteToQ15 255#8 = 32767#15 ∧ dampingOf 0#8 = 32767#15 := by decide

/-- The reset input puts the hardware at its reset values and keeps the parameters and the rest of the schedule. -/
theorem step_hardReset {s : State} {rest : List Input} (h : s.inputs = .hardReset :: rest) :
    step s = .next { hw := Engine.reset s.cfg, cfg := s.cfg, inputs := rest, response := none } := by
  rw [step, h]
  rfl

/-- Settles O60: the state after the reset input is `Engine.reset`, whose components are read off one by one. -/
theorem hardwareResetGivesTheResetValues : Obligations.HardwareResetGivesTheResetValues := by
  intro s rest hs
  refine ⟨Engine.reset s.cfg, step_hardReset hs, fun v => ?_, par_reset s.cfg, fun v p => ?_,
    fun i _ => record_reset_ascending s.cfg i, fun v => ⟨?_, fun g => ⟨rfl, rfl⟩⟩, ?_⟩
  · rw [voice_reset]
    obtain ⟨hgain, hdamping⟩ := coefficients_reset
    exact ⟨rfl, rfl, rfl, rfl, rfl, rfl, rfl, rfl, rfl, rfl, rfl, hgain, hdamping, hgain, rfl, rfl⟩
  · exact ⟨rfl, rfl, rfl, rfl, fun st => ⟨rfl, rfl⟩⟩
  · simp [Engine.curPat, Engine.reset]
  · have hperiod : samplesPerStepOf 120#16 = 5512#32 := by decide
    exact ⟨rfl, rfl, rfl, rfl, rfl, rfl, rfl, rfl, rfl, rfl, hperiod, rfl, rfl, rfl, rfl, rfl⟩

end Sys2Proof.ResetProofs
end

section
/-!
PROOFS. Every step keeps the invariants of 10_state.md R46 and R49, never faults and raises no LIST_CYCLE (O58): first
what each invariant depends on, then the render agent's operations, then the commands, then the step.
-/

namespace Sys2Proof.Invariant

open Sys2Proof Sys2Proof.Machine Sys2Proof.Laws

variable {c : Config} {e e' e'' : Engine} {s : State}

/-! What each invariant depends on. -/

/-- The invariants of `Sound` that speak of the hardware's state. -/
structure HwSound (c : Config) (e : Engine) : Prop where
  pool : PoolSound c e
  noteCounts : NoteCountsRight e
  fields : FieldsInRange e
  blocks : BlocksWhole e

theorem hwSound_of_sound (h : Sound s) : HwSound s.cfg s.hw := ⟨h.pool, h.noteCounts, h.fields, h.blocks⟩

/-- The pool's ownership depends on the records, the lock heads and the free list's head and count alone. -/
theorem poolSound_congr (h : PoolSound c e)
    (heq : e' = { e' with
      poolMem := e.poolMem, lockHeadMem := e.lockHeadMem, freeHead := e.freeHead, freeCount := e.freeCount }) :
    PoolSound c e' := by
  obtain ⟨free, own, hown⟩ := h
  rw [heq]
  exact ⟨free, own, owned_congr hown rfl rfl (fun _ _ => rfl) fun _ => ⟨rfl, rfl, rfl⟩⟩

/-- The note counts' invariant depends on the notes and the counts alone. -/
theorem noteCountsRight_congr (h : NoteCountsRight e)
    (heq : e' = { e' with noteMem := e.noteMem, noteCountMem := e.noteCountMem }) : NoteCountsRight e' := by
  rw [heq]
  exact h

/-- The field ranges depend on the lengths, the voices' registers and the step period alone. -/
theorem fieldsInRange_congr (h : FieldsInRange e)
    (heq : e' = { e' with lengthMem := e.lengthMem, x := e.x, samplesPerStep := e.samplesPerStep }) :
    FieldsInRange e' := by
  rw [heq]
  exact ⟨h.lengths, h.pitches, h.period, h.increments⟩

/-- The block invariant depends on `busy` and `frameIdx` alone. -/
theorem blocksWhole_congr (h : BlocksWhole e) (heq : e' = { e' with busy := e.busy, frameIdx := e.frameIdx }) :
    BlocksWhole e' := by
  rw [heq]
  exact h

/-- A block in progress may stand at any frame. -/
theorem blocksWhole_of_busy (h : e.busy = true) : BlocksWhole e := fun hidle => absurd (h.symm.trans hidle) (by decide)

/-- `e'` agrees with `e` in every component that an invariant reads. -/
def SameInvariantParts (e e' : Engine) : Prop :=
  e' = { e' with
    poolMem := e.poolMem, lockHeadMem := e.lockHeadMem, freeHead := e.freeHead, freeCount := e.freeCount,
    noteMem := e.noteMem, noteCountMem := e.noteCountMem, lengthMem := e.lengthMem, x := e.x,
    samplesPerStep := e.samplesPerStep, busy := e.busy, frameIdx := e.frameIdx }

theorem hwSound_congr (h : HwSound c e) (heq : SameInvariantParts e e') : HwSound c e' := by
  rw [SameInvariantParts] at heq
  exact ⟨poolSound_congr h.pool (by rw [heq]), noteCountsRight_congr h.noteCounts (by rw [heq]),
    fieldsInRange_congr h.fields (by rw [heq]), blocksWhole_congr h.blocks (by rw [heq])⟩

/-- A pool operation that leaves the pool sound, and writes only records, lock heads, the free list and `DIAG`, keeps
the invariants. -/
theorem hwSound_of_pool (h : HwSound c e) (hpool : PoolSound c e')
    (heq : e' = { e with
      poolMem := e'.poolMem, freeHead := e'.freeHead, freeCount := e'.freeCount, lockHeadMem := e'.lockHeadMem,
      diag := e'.diag }) : HwSound c e' :=
  ⟨hpool, noteCountsRight_congr h.noteCounts (by rw [heq]), fieldsInRange_congr h.fields (by rw [heq]),
    blocksWhole_congr h.blocks (by rw [heq])⟩

/-! The ranges of one voice's registers. -/

/-- A whole semitone, and increments of 1..2^32: what `FieldsInRange` asks of one voice (10_state.md R27, R49). -/
structure VoiceInRange (r : Instrument) : Prop where
  pitch : r.pitch.extractLsb' 0 7 = 0#7
  increments : 1 ≤ r.attackInc.toNat ∧ r.attackInc.toNat ≤ 2 ^ 32 ∧ 1 ≤ r.decayInc.toNat ∧ r.decayInc.toNat ≤ 2 ^ 32

theorem fields_voice (h : FieldsInRange e) (v : VoiceIx) : VoiceInRange (e.voice v) := ⟨h.pitches v, h.increments v⟩

/-- The field ranges where only voices' registers have changed. -/
theorem fieldsInRange_of_voices (h : FieldsInRange e) (hv : ∀ v, VoiceInRange (e'.voice v))
    (heq : e' = { e' with lengthMem := e.lengthMem, samplesPerStep := e.samplesPerStep }) : FieldsInRange e' where
  lengths := by
    rw [heq]
    exact h.lengths
  pitches v := (hv v).pitch
  period := by
    rw [heq]
    exact h.period
  increments v := (hv v).increments

theorem voicesInRange_setVoice (h : ∀ v, VoiceInRange (e.voice v)) (v : VoiceIx) {r : Instrument}
    (hr : VoiceInRange r) (v' : VoiceIx) : VoiceInRange ((e.setVoice v r).voice v') := by
  rw [voice_setVoice]
  split
  · exact hr
  · exact h v'

/-- A pull latches increments that `EnvInc` gave, and leaves the pitch. -/
theorem voiceInRange_latch {v : VoiceIx} (h : VoiceInRange (e.voice v)) : VoiceInRange (latch c e v) where
  pitch := h.pitch
  increments :=
    have ⟨ha1, ha2⟩ := envInc_range c (pullParam c e v idEnv1Attack).1
    have ⟨hd1, hd2⟩ := envInc_range c (pullParam c e v idEnv1Decay).1
    ⟨ha1, ha2, hd1, hd2⟩

/-- `SetPitch` gives a whole semitone. -/
theorem pitch_of_note (note : Byte) : (note.extractLsb' 0 7 ++ 0#7).extractLsb' 0 7 = 0#7 := by
  revert note
  decide

/-- A voice's frame leaves the pitch and the latched increments. -/
theorem voiceInRange_voiceSample {r : Instrument} (h : VoiceInRange r) : VoiceInRange (voiceSample c r).2 := by
  rw [voiceSample_eq]
  exact ⟨h.pitch, h.increments⟩

/-! The render agent. -/

/-- No walk of a pull meets a corrupt list in a sound pool, so none raises LIST_CYCLE (60_exceptions.md R222). -/
theorem not_pullFaults (h : PoolSound c e) (v : VoiceIx) (ctx : Option (PatternIx × StepIx)) :
    ¬PullFaults c e v ctx := by
  obtain ⟨free, own, hown⟩ := h
  rintro ⟨id, _, hfault⟩
  cases ctx with
  | none => exact absurd hfault (by simp [resolveParam])
  | some ps =>
    obtain ⟨p, st⟩ := ps
    rw [resolveParam_list (hown.lists v p)] at hfault
    exact absurd hfault (by simp)

/-- What every part of a render step does to the invariants: it writes what is the render agent's, keeps the voices in
range, stays inside the block, and raises no diagnostic where the pool is sound. -/
structure RenderPart (c : Config) (e e' : Engine) : Prop where
  writes : RenderWrites e e'
  voices : (∀ v, VoiceInRange (e.voice v)) → ∀ v, VoiceInRange (e'.voice v)
  busy : e'.busy = e.busy
  diag : PoolSound c e → e'.diag = e.diag

theorem poolSound_of_renderWrites (h : PoolSound c e) (hw : RenderWrites e e') : PoolSound c e' :=
  poolSound_congr h (by rw [hw.others])

theorem RenderPart.refl (c : Config) (e : Engine) : RenderPart c e e := ⟨renderWrites_refl e, id, rfl, fun _ => rfl⟩

theorem RenderPart.trans (h : RenderPart c e e') (h' : RenderPart c e' e'') : RenderPart c e e'' where
  writes := renderWrites_trans h.writes h'.writes
  voices hv := h'.voices (h.voices hv)
  busy := h'.busy.trans h.busy
  diag hp := (h'.diag (poolSound_of_renderWrites hp h.writes)).trans (h.diag hp)

/-- A fold whose every pass is a part of a render step, on the engine that `eng` reads off the accumulator. -/
theorem RenderPart.foldl {α β : Type} {f : β → α → β} {eng : β → Engine}
    (hf : ∀ b a, RenderPart c (eng b) (eng (f b a))) (l : List α) (b : β) :
    RenderPart c (eng b) (eng (l.foldl f b)) := by
  induction l generalizing b with
  | nil => exact .refl c (eng b)
  | cons a l ih => exact (hf b a).trans (ih (f b a))

/-- Writing the sequencer's position, the step context, the pending flag, the frame count or AUDIO. -/
theorem renderPart_writeNonVoice {curStep playStep : GridIx} {countdown : BitVec 32} {playValid pendingNote : Bool}
    {frameIdx : Fin 129} {audioMem : Memory Sample} :
    RenderPart c e { e with
      curStep := curStep, countdown := countdown, playStep := playStep, playValid := playValid,
      pendingNote := pendingNote, frameIdx := frameIdx, audioMem := audioMem } :=
  ⟨⟨rfl, fun _ => rfl, .inl rfl⟩, id, rfl, fun _ => rfl⟩

/-- Writing a voice's registers, the type left and the ranges kept. -/
theorem renderPart_setVoice {v : VoiceIx} {r : Instrument} (hkind : r.kind = (e.voice v).kind)
    (hr : VoiceInRange (e.voice v) → VoiceInRange r) : RenderPart c e (e.setVoice v r) where
  writes := renderWrites_setVoice hkind
  voices hv := voicesInRange_setVoice hv v (hr (hv v))
  busy := rfl
  diag _ := rfl

theorem renderPart_pull (v : VoiceIx) : RenderPart c e (pull c e v) where
  writes := pull_writes v
  voices hv v' := by
    rw [voice_pull]
    split
    · exact voiceInRange_latch (hv v)
    · exact hv v'
  busy := by rw [pull_eq]
  diag hp := (pull_diag v).2 (not_pullFaults hp v _)

theorem renderPart_trigger (v : VoiceIx) : RenderPart c e (trigger c e v) :=
  (renderPart_pull v).trans (renderPart_setVoice rfl fun hr => ⟨hr.pitch, hr.increments⟩)

theorem renderPart_setPitch (v : VoiceIx) (note : Byte) : RenderPart c e (setPitch c v note e) :=
  renderPart_setVoice rfl fun hr => ⟨pitch_of_note note, hr.increments⟩

theorem renderPart_tickVoice (g : GridIx) (v : VoiceIx) : RenderPart c e (tickVoice c g e v) := by
  rw [tickVoice]
  split
  · exact (renderPart_setPitch v _).trans (renderPart_trigger v)
  · exact .refl c e

theorem renderPart_tick : RenderPart c e (tick c e) := by
  have hcontext : RenderPart c e { e with playStep := e.curStep, playValid := true } := renderPart_writeNonVoice
  have hvoices : RenderPart c e
      (allVoices.foldl (tickVoice c e.curStep) { e with playStep := e.curStep, playValid := true }) :=
    hcontext.trans (.foldl (eng := id) (fun _ v => renderPart_tickVoice _ v) allVoices _)
  rw [tick]
  generalize allVoices.foldl _ _ = ticked at hvoices ⊢
  exact hvoices.trans renderPart_writeNonVoice

theorem renderPart_sequencerStep : RenderPart c e (sequencerStep c e) := by
  rw [sequencerStep_eq]
  split
  · split
    · exact renderPart_tick.trans renderPart_writeNonVoice
    · exact renderPart_writeNonVoice
  · exact .refl c e

theorem renderPart_mixVoice (acc : Engine × Int) (v : VoiceIx) : RenderPart c acc.1 (mixVoice c acc v).1 :=
  renderPart_setVoice (voiceSample_kind _) voiceInRange_voiceSample

theorem renderPart_mix : RenderPart c e (mix c e).1 :=
  .foldl (eng := Prod.fst) renderPart_mixVoice renderedVoices (e, 0)

theorem renderPart_setAudio (n : Nat) (right : Bool) (y : Sample) : RenderPart c e (e.setAudio n right y) :=
  renderPart_writeNonVoice

theorem renderPart_emit (acc : Int) : RenderPart c e (emit e acc) :=
  ((renderPart_setAudio _ _ _).trans (renderPart_setAudio _ _ _)).trans renderPart_writeNonVoice

theorem renderPart_frame : RenderPart c e (frame c e) :=
  (renderPart_sequencerStep.trans renderPart_mix).trans (renderPart_emit _)

/-- A part of a render step keeps the invariants where the block is whole afterwards. -/
theorem hwSound_of_renderPart (h : HwSound c e) (hpart : RenderPart c e e') (hblocks : BlocksWhole e') :
    HwSound c e' where
  pool := poolSound_of_renderWrites h.pool hpart.writes
  noteCounts := noteCountsRight_congr h.noteCounts (by rw [hpart.writes.others])
  fields := fieldsInRange_of_voices h.fields (hpart.voices (fields_voice h.fields)) (by rw [hpart.writes.others])
  blocks := hblocks

/-- `e'` meets the invariants, and `DIAG` bit 1 is set in it only if it was in `e`. -/
def KeepsHw (c : Config) (e e' : Engine) : Prop :=
  HwSound c e' ∧ (e.diag.getLsbD 1 = false → e'.diag.getLsbD 1 = false)

theorem keepsHw_of_diag_eq (h : HwSound c e') (hdiag : e'.diag = e.diag) : KeepsHw c e e' :=
  ⟨h, fun hclear => hdiag ▸ hclear⟩

/-- A pool operation that leaves the pool sound and raises nothing. -/
theorem keepsHw_of_owned {free : List PoolIx} {own : VoiceIx → PatternIx → List PoolIx} (h : HwSound c e)
    (hown : PoolOwned c e' free own)
    (heq : e' = { e with
      poolMem := e'.poolMem, freeHead := e'.freeHead, freeCount := e'.freeCount, lockHeadMem := e'.lockHeadMem }) :
    KeepsHw c e e' :=
  keepsHw_of_diag_eq (hwSound_of_pool h ⟨free, own, hown⟩ (by rw [heq])) (by rw [heq])

/-- Raising a cause other than LIST_CYCLE. -/
theorem keepsHw_raiseDiag (h : HwSound c e) {cause : BitVec 4} (hcause : cause.getLsbD 1 = false) :
    KeepsHw c e (raiseDiag cause e) := by
  refine ⟨hwSound_congr h rfl, fun hclear => ?_⟩
  rw [raiseDiag, BitVec.getLsbD_or, hclear, hcause]
  rfl

/-- BlockStart: the block is in progress from here on, and the six pulls are parts of a render step. -/
theorem blockStart_keepsHw (h : HwSound c e) : KeepsHw c e (blockStart c e) := by
  have hstarted : HwSound c { e with busy := true, frameIdx := 0 } :=
    ⟨poolSound_congr h.pool rfl, noteCountsRight_congr h.noteCounts rfl, fieldsInRange_congr h.fields rfl,
      blocksWhole_of_busy rfl⟩
  have hpulls : RenderPart c { e with busy := true, frameIdx := 0 } (blockStart c e) :=
    .foldl (eng := id) (fun _ v => renderPart_pull v) renderedVoices _
  exact keepsHw_of_diag_eq (hwSound_of_renderPart hstarted hpulls (blocksWhole_of_busy hpulls.busy))
    (hpulls.diag hstarted.pool)

theorem frame_keepsHw (h : HwSound c e) (hbusy : e.busy = true) : KeepsHw c e (frame c e) :=
  have hpart : RenderPart c e (frame c e) := renderPart_frame
  keepsHw_of_diag_eq (hwSound_of_renderPart h hpart (blocksWhole_of_busy (hpart.busy.trans hbusy))) (hpart.diag h.pool)

/-- The manual note of BlockEnd (48_render_sequencer.md R212). -/
theorem renderPart_strike (v : VoiceIx) (note : Byte) :
    RenderPart c e { trigger c (setPitch c v note e) v with pendingNote := false } :=
  ((renderPart_setPitch v note).trans (renderPart_trigger v)).trans renderPart_writeNonVoice

/-- A block that ends after a part of a render step, with all its frames produced. -/
theorem idle_keepsHw (h : HwSound c e) (hpart : RenderPart c e e') (hframes : e'.frameIdx.val = blockN) :
    KeepsHw c e { e' with busy := false } := by
  refine keepsHw_of_diag_eq ⟨?_, ?_, ?_, fun _ => .inr hframes⟩ (hpart.diag h.pool)
  · exact poolSound_congr (poolSound_of_renderWrites h.pool hpart.writes) rfl
  · exact noteCountsRight_congr h.noteCounts (by rw [hpart.writes.others])
  · exact fieldsInRange_of_voices h.fields (hpart.voices (fields_voice h.fields)) (by rw [hpart.writes.others])

theorem trigger_frameIdx (v : VoiceIx) : (trigger c e v).frameIdx = e.frameIdx := by rw [trigger_eq]

theorem blockEnd_keepsHw (h : HwSound c e) (hframes : e.frameIdx.val = blockN) : KeepsHw c e (blockEnd c e) := by
  rw [blockEnd]
  dsimp only
  split
  · refine idle_keepsHw h (renderPart_strike e.selVoice e.pendingNoteValue) ?_
    dsimp only
    rw [trigger_frameIdx]
    exact hframes
  · exact idle_keepsHw h (.refl c e) hframes

/-- The render agent's turn: a Frame while frames are missing, then BlockEnd, nothing between blocks. -/
theorem renderStep_keepsHw (h : HwSound c e) : KeepsHw c e (renderStep c e) := by
  rw [renderStep]
  split
  · rename_i hbusy
    split
    · exact frame_keepsHw h hbusy
    · rename_i hframes
      have hlast : e.frameIdx.val ≤ blockN := Nat.le_of_lt_succ e.frameIdx.isLt
      exact blockEnd_keepsHw h (Nat.le_antisymm hlast (Nat.le_of_not_lt hframes))
  · exact ⟨h, id⟩

/-! What a step answers. -/

/-- The result of a step from `s` is no fault, and a next state is sound and has LIST_CYCLE set only if `s` has it. -/
def KeepsSound (s : State) : Result → Prop
  | .next t => Sound t ∧ (s.hw.diag.getLsbD 1 = false → t.hw.diag.getLsbD 1 = false)
  | .fault _ => False
  | .refused _ => True

/-- A next state that keeps the parameters. -/
theorem keepsSound_next (hs : Sound s) {t : State} (hcfg : t.cfg = s.cfg) (h : KeepsHw s.cfg s.hw t.hw) :
    KeepsSound s (.next t) := by
  rw [← hcfg] at h
  obtain ⟨hsound, hdiag⟩ := h
  exact ⟨⟨hcfg ▸ hs.parameters, hsound.pool, hsound.noteCounts, hsound.fields, hsound.blocks⟩, hdiag⟩

theorem keepsSound_respond (hs : Sound s) (h : KeepsHw s.cfg s.hw e) (status : Status) (data : Word) :
    KeepsSound s (respond s e status data) := keepsSound_next hs rfl h

/-- A command that writes no component of an invariant, nor `DIAG`. -/
theorem keepsSound_respond_same (hs : Sound s) {status : Status} {data : Word}
    (hparts : SameInvariantParts s.hw e) (hdiag : e.diag = s.hw.diag) : KeepsSound s (respond s e status data) :=
  keepsSound_respond hs (keepsHw_of_diag_eq (hwSound_congr (hwSound_of_sound hs) hparts) hdiag) status data

/-- A command that only reads. -/
theorem keepsSound_read (hs : Sound s) (status : Status) (data : Word) : KeepsSound s (respond s s.hw status data) :=
  keepsSound_respond_same hs rfl rfl

theorem keepsSound_refuseOperand (hs : Sound s) : KeepsSound s (refuseOperand s) :=
  keepsSound_respond hs (keepsHw_raiseDiag (hwSound_of_sound hs) (by decide)) _ _

theorem keepsSound_refuseIllegal (hs : Sound s) : KeepsSound s (refuseIllegal s) :=
  keepsSound_respond hs (keepsHw_raiseDiag (hwSound_of_sound hs) (by decide)) _ _

/-- A command behind an operand check (30_encoding.md R84, R88 (b)). -/
theorem keepsSound_checked (hs : Sound s) {check : Bool} {r : Result} (h : check = true → KeepsSound s r) :
    KeepsSound s (if check then r else refuseOperand s) := by
  split
  · rename_i hcheck
    exact h hcheck
  · exact keepsSound_refuseOperand hs

/-! The commands on voices, the sequencer and the pool's contents. -/

/-- `TYPE_SET` writes no register with a range. -/
theorem typeSet_keepsSound (hs : Sound s) (v : VoiceIx) (val : Byte) : KeepsSound s (execTypeSet v val s) := by
  refine keepsSound_checked hs fun _ => keepsSound_respond hs ?_ _ _
  have hv : VoiceInRange { s.hw.voice v with kind := typeOf val } :=
    have hold := fields_voice hs.fields v
    ⟨hold.pitch, hold.increments⟩
  exact keepsHw_of_diag_eq ⟨poolSound_congr hs.pool rfl, noteCountsRight_congr hs.noteCounts rfl,
    fieldsInRange_of_voices hs.fields (voicesInRange_setVoice (fields_voice hs.fields) v hv) rfl,
    blocksWhole_congr hs.blocks rfl⟩ rfl

/-- A step period is at least one frame (43_sequencer_cmds.md R151). -/
theorem samplesPerStepOf_pos (bpm : BitVec 16) : 1 ≤ (samplesPerStepOf bpm).toNat := by
  have hle : sampleRate * 60 / (bpm.toNat * stepsPerBeat) ≤ sampleRate * 60 := Nat.div_le_self _ _
  rw [samplesPerStepOf, BitVec.toNat_ofNat, Nat.mod_eq_of_lt] <;> simp only [sampleRate] at hle ⊢ <;> omega

theorem tempoSet_keepsSound (hs : Sound s) (bpm : BitVec 16) : KeepsSound s (execTempoSet bpm s) := by
  refine keepsSound_checked hs fun _ => keepsSound_respond hs ?_ _ _
  exact keepsHw_of_diag_eq ⟨poolSound_congr hs.pool rfl, noteCountsRight_congr hs.noteCounts rfl,
    ⟨hs.fields.lengths, hs.fields.pitches, samplesPerStepOf_pos bpm, hs.fields.increments⟩,
    blocksWhole_congr hs.blocks rfl⟩ rfl

theorem play_keepsSound (hs : Sound s) (on : BitVec 1) : KeepsSound s (execPlay on s) := by
  rw [execPlay]
  split
  · rw [startSequencer]
    split
    · exact keepsSound_read hs _ _
    · exact keepsSound_respond_same hs rfl rfl
  · exact keepsSound_respond_same hs rfl rfl

/-- `DIAG_CLR` sets no bit. -/
theorem diagClr_keepsSound (hs : Sound s) (mask : BitVec 4) : KeepsSound s (execDiagClr mask s) := by
  refine keepsSound_respond hs ?_ _ _
  refine ⟨hwSound_congr (hwSound_of_sound hs) rfl, fun hclear => ?_⟩
  rw [BitVec.getLsbD_and, hclear, Bool.false_and]

theorem voiceRd_keepsSound (hs : Sound s) (v : VoiceIx) (sel : BitVec 2) : KeepsSound s (execVoiceRd v sel s) := by
  rw [execVoiceRd]
  split <;> exact keepsSound_read hs _ _

theorem seqRd_keepsSound (hs : Sound s) (sel : BitVec 2) : KeepsSound s (execSeqRd sel s) := by
  rw [execSeqRd]
  split <;> exact keepsSound_read hs _ _

theorem patInfo_keepsSound (hs : Sound s) (v : VoiceIx) (p : PatternIx) (sel : BitVec 1) :
    KeepsSound s (execPatInfo v p sel s) := by
  rw [execPatInfo]
  split <;> exact keepsSound_read hs _ _

theorem poolRd_keepsSound (hs : Sound s) (ix : PoolIx) (w : BitVec 1) : KeepsSound s (execPoolRd ix w s) := by
  rw [execPoolRd]
  split
  · exact keepsSound_refuseOperand hs
  · split <;> exact keepsSound_read hs _ _

/-- The reset values of a legal implementation meet the invariants, and no diagnostic is set. -/
theorem reset_keepsHw (hc : c.valid) (e : Engine) : KeepsHw c e (Engine.reset c) :=
  ⟨⟨⟨_, _, reset_owned hc⟩, reset_noteCounts c, reset_fields c, fun _ => .inl rfl⟩, fun _ => BitVec.getLsbD_zero⟩

/-- `SOFT_RESET` leaves the block state and AUDIO and gives all else its reset value. -/
theorem softReset_keepsHw (hc : c.valid) (h : BlocksWhole e) : KeepsHw c e (softResetEngine c e) := by
  obtain ⟨hreset, hdiag⟩ := reset_keepsHw hc e
  exact ⟨⟨poolSound_congr hreset.pool rfl, noteCountsRight_congr hreset.noteCounts rfl,
    fieldsInRange_congr hreset.fields rfl, blocksWhole_congr h rfl⟩, hdiag⟩

/-! The commands on patterns. -/

theorem hwSound_setNote (h : HwSound c e) (v : VoiceIx) (p : PatternIx) (st : StepIx) (b : Byte) :
    HwSound c (setNote e v p st b) :=
  ⟨poolSound_congr h.pool rfl, noteCountsRight_setNote h.noteCounts v p st b, fieldsInRange_congr h.fields rfl,
    blocksWhole_congr h.blocks rfl⟩

theorem hwSound_setKey (h : HwSound c e) (v : VoiceIx) (p : PatternIx) (st : StepIx) (b : Byte) :
    HwSound c (e.setKey v p st b) := hwSound_congr h rfl

theorem hwSound_setRate (h : HwSound c e) (v : VoiceIx) (p : PatternIx) (b : Byte) :
    HwSound c (e.setRate v p b) := hwSound_congr h rfl

theorem hwSound_setLength (h : HwSound c e) (v : VoiceIx) (p : PatternIx) {n : BitVec 7}
    (hn : 1 ≤ n.toNat ∧ n.toNat ≤ maxSteps) : HwSound c (e.setLength v p n) where
  pool := poolSound_congr h.pool rfl
  noteCounts := noteCountsRight_congr h.noteCounts rfl
  fields := by
    refine ⟨fun v' p' => ?_, h.fields.pitches, h.fields.period, h.fields.increments⟩
    rw [length_setLength]
    split
    · exact hn
    · exact h.fields.lengths v' p'
  blocks := blocksWhole_congr h.blocks rfl

/-- A fold whose passes keep the invariants and `DIAG` keeps them. -/
theorem hwSound_foldl {α : Type} {f : Engine → α → Engine} (hf : ∀ e a, HwSound c e → HwSound c (f e a))
    (hdiag : ∀ e a, (f e a).diag = e.diag) (h : HwSound c e) (l : List α) :
    HwSound c (l.foldl f e) ∧ (l.foldl f e).diag = e.diag := by
  induction l generalizing e with
  | nil => exact ⟨h, rfl⟩
  | cons a l ih =>
    obtain ⟨hsound, hsame⟩ := ih (hf e a h)
    exact ⟨hsound, hsame.trans (hdiag e a)⟩

theorem hwSound_doubleSlot (h : HwSound c e) (v : VoiceIx) (p : PatternIx) (len i : Nat) :
    HwSound c (doubleSlot v p len e i) := hwSound_setKey (hwSound_setNote h v p _ _) v p _ _

theorem hwSound_copySlot (h : HwSound c e) (v : VoiceIx) (p q : PatternIx) (i : Nat) :
    HwSound c (copySlot v p q e i) := hwSound_setKey (hwSound_setNote h v q _ _) v q _ _

/-- A length that is doubled was at most 32, so the new one is at most 64 (42_patterns.md R132). -/
theorem doublePattern_keepsHw (h : HwSound c e) (v : VoiceIx) (p : PatternIx) :
    KeepsHw c e (doublePattern e v p) := by
  rw [doublePattern]
  split
  · rename_i hshort
    obtain ⟨hsound, hdiag⟩ := hwSound_foldl (f := doubleSlot v p (e.length v p).toNat)
      (fun _ i he => hwSound_doubleSlot he v p _ i) (fun _ _ => rfl) h (List.range (e.length v p).toNat)
    have hpos := (h.fields.lengths v p).1
    refine keepsHw_of_diag_eq (hwSound_setLength hsound v p ?_) hdiag
    rw [BitVec.toNat_ofNat, maxSteps]
    omega
  · exact ⟨h, id⟩

theorem copyPattern_keepsHw (h : HwSound c e) (v : VoiceIx) (p q : PatternIx) :
    KeepsHw c e (copyPattern e v p q) := by
  rw [copyPattern]
  split
  · exact ⟨h, id⟩
  · obtain ⟨hsound, hdiag⟩ := hwSound_foldl (f := copySlot v p q)
      (fun _ i he => hwSound_copySlot he v p q i) (fun _ _ => rfl) h (List.range maxSteps)
    generalize (List.range maxSteps).foldl (copySlot v p q) e = copied at hsound hdiag ⊢
    exact keepsHw_of_diag_eq (hwSound_setRate (hwSound_setLength hsound v q (hsound.fields.lengths v p)) v q _) hdiag

theorem lengthInRange_iff (val : Byte) : lengthInRange val = true ↔ 1 ≤ val.toNat ∧ val.toNat ≤ maxSteps := by
  rw [lengthInRange, Bool.and_eq_true, decide_eq_true_eq, decide_eq_true_eq]

theorem plenSet_keepsSound (hs : Sound s) (v : VoiceIx) (p : PatternIx) (val : Byte) :
    KeepsSound s (execPlenSet v p val s) := by
  refine keepsSound_checked hs fun hrange => keepsSound_respond hs ?_ _ _
  refine keepsHw_of_diag_eq (hwSound_setLength (hwSound_of_sound hs) v p ?_) rfl
  obtain ⟨hpos, hle⟩ := (lengthInRange_iff val).1 hrange
  rw [BitVec.toNat_setWidth]
  simp only [maxSteps] at hle ⊢
  omega

/-! The commands on locks. -/

theorem resolve_keepsSound (hs : Sound s) (v : VoiceIx) (p : PatternIx) (st : StepIx) (id : ParamId) :
    KeepsSound s (execResolve v p st id s) := by
  obtain ⟨free, own, hown⟩ := hs.pool
  refine keepsSound_checked hs fun _ => ?_
  rw [resolveParam_list (hown.lists v p)]
  exact keepsSound_read hs _ _

theorem lockHas_keepsSound (hs : Sound s) (v : VoiceIx) (p : PatternIx) (st : StepIx) :
    KeepsSound s (execLockHas v p st s) := by
  obtain ⟨free, own, hown⟩ := hs.pool
  rw [execLockHas, hasAnyLockForStep_list (hown.lists v p)]
  exact keepsSound_read hs _ _

/-- `StoreLock` on a sound pool ends in one of its three ways: in place, exhausted, or with a free record pushed. -/
theorem storeLock_keepsHw (h : HwSound c e) (v : VoiceIx) (p : PatternIx) {st id : Byte} (val : Byte)
    (hst : st.toNat < maxSteps) (hid : id.toNat < nParams) :
    ∃ status e', storeLock c e v p st id val = .ok (status, e') ∧ KeepsHw c e e' := by
  obtain ⟨free, own, hown⟩ := h.pool
  rcases storeLock_owned (v := v) (p := p) (val := val) hown hst hid with
    ⟨i, _, _, _, heq, hown'⟩ | ⟨_, _, heq⟩ | ⟨i, rest, _, _, heq, hown'⟩
  · exact ⟨_, _, heq, keepsHw_of_owned h hown' rfl⟩
  · exact ⟨_, _, heq, keepsHw_raiseDiag h (by decide)⟩
  · exact ⟨_, _, heq, keepsHw_of_owned h hown' rfl⟩

theorem lockSt_keepsSound (hs : Sound s) (v : VoiceIx) (p : PatternIx) (st : StepIx) (id : ParamId) (val : Byte) :
    KeepsSound s (execLockSt v p st id val s) := by
  refine keepsSound_checked hs fun hid => ?_
  have hst : (st.setWidth 8).toNat < maxSteps := by
    rw [BitVec.toNat_setWidth, maxSteps]
    omega
  have hid' : (id.setWidth 8).toNat < nParams := by
    rw [paramInUse, decide_eq_true_eq] at hid
    rw [BitVec.toNat_setWidth]
    omega
  obtain ⟨status, e', heq, hkeeps⟩ := storeLock_keepsHw (hwSound_of_sound hs) v p val hst hid'
  rw [heq]
  exact keepsSound_respond hs hkeeps _ _

theorem lockClr_keepsSound (hs : Sound s) (v : VoiceIx) (p : PatternIx) : KeepsSound s (execLockClr v p s) := by
  obtain ⟨free, own, hown⟩ := hs.pool
  obtain ⟨e', heq, hown', _, hframe⟩ := clearLocks_owned (v := v) (p := p) hown
  rw [execLockClr, heq]
  exact keepsSound_respond hs (keepsHw_of_owned (hwSound_of_sound hs) hown' hframe) _ _

theorem lockRms_keepsSound (hs : Sound s) (v : VoiceIx) (p : PatternIx) (st : StepIx) :
    KeepsSound s (execLockRms v p st s) := by
  obtain ⟨free, own, hown⟩ := hs.pool
  obtain ⟨e', heq, hown', _, hframe⟩ := removeLocksForStep_owned (v := v) (p := p) (st := st.setWidth 8) hown
  rw [execLockRms, heq]
  exact keepsSound_respond hs (keepsHw_of_owned (hwSound_of_sound hs) hown' hframe) _ _

/-- `CopyLocks` on a sound pool, onto the same pattern or another one: at most POOL_EXHAUSTED is raised. -/
theorem copyLocks_keepsHw (h : HwSound c e) (v : VoiceIx) (p q : PatternIx) :
    ∃ status dropped e', copyLocks c e v p q = .ok (status, dropped, e') ∧ KeepsHw c e e' := by
  obtain ⟨free, own, hown⟩ := h.pool
  by_cases hpq : p = q
  · subst hpq
    obtain ⟨e', heq, hown', _, hframe⟩ := copyLocks_self (v := v) (p := p) hown
    exact ⟨_, _, e', heq, keepsHw_of_owned h hown' (by rw [hframe])⟩
  · obtain ⟨e', heq, hown', _, _, _, hframe⟩ := copyLocks_owned (v := v) hown hpq
    refine ⟨_, _, e', heq, hwSound_of_pool h ⟨_, _, hown'⟩ (by rw [hframe]), fun hclear => ?_⟩
    rw [hframe]
    dsimp only
    split
    · exact hclear
    · exact (keepsHw_raiseDiag h (cause := diagPoolExhausted) (by decide)).2 hclear

theorem lockCpy_keepsSound (hs : Sound s) (v : VoiceIx) (p q : PatternIx) : KeepsSound s (execLockCpy v p q s) := by
  obtain ⟨status, dropped, e', heq, hkeeps⟩ := copyLocks_keepsHw (hwSound_of_sound hs) v p q
  rw [execLockCpy, heq]
  exact keepsSound_respond hs hkeeps _ _

/-! The step. -/

/-- Every command keeps the invariants. -/
theorem exec_keepsSound (hs : Sound s) (i : Instr) : KeepsSound s (exec i s) := by
  cases i with
  | nop => exact keepsSound_read hs _ _
  | paramWr v id val => exact keepsSound_checked hs fun _ => keepsSound_respond_same hs rfl rfl
  | paramRd v id => exact keepsSound_checked hs fun _ => keepsSound_read hs _ _
  | resolve v p st id => exact resolve_keepsSound hs v p st id
  | lockSt v p st id val => exact lockSt_keepsSound hs v p st id val
  | lockClr v p => exact lockClr_keepsSound hs v p
  | lockRms v p st => exact lockRms_keepsSound hs v p st
  | lockCpy v p q => exact lockCpy_keepsSound hs v p q
  | lockHas v p st => exact lockHas_keepsSound hs v p st
  | noteSet v p st val =>
    exact keepsSound_respond hs (keepsHw_of_diag_eq (hwSound_setNote (hwSound_of_sound hs) v p st val) rfl) _ _
  | keySet v p st val => exact keepsSound_respond_same hs rfl rfl
  | noteGet v p st => exact keepsSound_read hs _ _
  | plenSet v p val => exact plenSet_keepsSound hs v p val
  | prateSet v p val => exact keepsSound_respond_same hs rfl rfl
  | patDbl v p => exact keepsSound_respond hs (doublePattern_keepsHw (hwSound_of_sound hs) v p) _ _
  | patCpy v p q => exact keepsSound_respond hs (copyPattern_keepsHw (hwSound_of_sound hs) v p q) _ _
  | patInfo v p sel => exact patInfo_keepsSound hs v p sel
  | typeSet v val => exact typeSet_keepsSound hs v val
  | patSel v p => exact keepsSound_respond_same hs rfl rfl
  | gridTrig v g m => exact keepsSound_checked hs fun _ => keepsSound_respond_same hs rfl rfl
  | gridNote v g val => exact keepsSound_respond_same hs rfl rfl
  | gridRd v g => exact keepsSound_read hs _ _
  | voiceRd v sel => exact voiceRd_keepsSound hs v sel
  | play on => exact play_keepsSound hs on
  | selVoice v => exact keepsSound_respond_same hs rfl rfl
  | modeSet m => exact keepsSound_respond_same hs rfl rfl
  | tempoSet bpm => exact tempoSet_keepsSound hs bpm
  | noteReq note => exact keepsSound_respond_same hs rfl rfl
  | seqRd sel => exact seqRd_keepsSound hs sel
  | poolRd ix w => exact poolRd_keepsSound hs ix w
  | poolStat => exact keepsSound_read hs _ _
  | diagRd => exact keepsSound_read hs _ _
  | diagClr mask => exact diagClr_keepsSound hs mask
  | softReset => exact keepsSound_respond hs (softReset_keepsHw hs.parameters hs.blocks) _ _

theorem runCommand_keepsSound (hs : Sound s) (w : Word) : KeepsSound s (runCommand w s) := by
  rw [runCommand]
  split
  · exact exec_keepsSound hs _
  · exact keepsSound_refuseIllegal hs

theorem periodSignal_keepsSound (hs : Sound s) : KeepsSound s (periodSignal s) := by
  rw [periodSignal]
  split
  · trivial
  · exact keepsSound_next hs rfl (blockStart_keepsHw (hwSound_of_sound hs))

theorem renderTurn_keepsSound (hs : Sound s) : KeepsSound s (renderTurn s) :=
  keepsSound_next hs rfl (renderStep_keepsHw (hwSound_of_sound hs))

theorem hardwareReset_keepsSound (hs : Sound s) : KeepsSound s (hardwareReset s) :=
  keepsSound_next hs rfl (reset_keepsHw hs.parameters s.hw)

theorem runInput_keepsSound (hs : Sound s) (i : Input) : KeepsSound s (runInput i s) := by
  cases i with
  | command w => exact runCommand_keepsSound hs w
  | period => exact periodSignal_keepsSound hs
  | render => exact renderTurn_keepsSound hs
  | hardReset => exact hardwareReset_keepsSound hs

/-- The invariants say nothing of the schedule. -/
theorem sound_withInputs (hs : Sound s) (inputs : List Input) : Sound { s with inputs := inputs } :=
  ⟨hs.parameters, hs.pool, hs.noteCounts, hs.fields, hs.blocks⟩

theorem step_keepsSound (hs : Sound s) : KeepsSound s (step s) := by
  rw [step]
  split
  · exact renderTurn_keepsSound hs
  · rename_i i rest _
    exact runInput_keepsSound (sound_withInputs hs rest) i

/-- Settles O58, by one lemma per event of the schedule and per command. -/
theorem stepKeepsSound : Obligations.StepKeepsSound := by
  intro s hs
  have hkeeps := step_keepsSound hs
  refine ⟨fun f hfault => ?_, fun t hnext => ?_⟩
  · rw [hfault] at hkeeps
    exact hkeeps
  · rw [hnext] at hkeeps
    exact hkeeps

end Sys2Proof.Invariant
end

section
/-!
PROOFS. The step of a presented command word (O6): what moves next on an empty and on a non-empty schedule, and that a
command's word is read back as the command.
-/

namespace Sys2Proof.Schedule

open Sys2Proof Sys2Proof.Machine Sys2Proof.Laws

variable {s : State} {rest : List Input}

/-- On the empty schedule the render agent has its turn (log 3). -/
theorem step_of_inputs_nil (h : s.inputs = []) : step s = renderTurn s := by rw [step, h]

/-- The head of the schedule moves, and is off the schedule then (log 3). -/
theorem step_of_inputs_cons {i : Input} (h : s.inputs = i :: rest) : step s = runInput i { s with inputs := rest } := by
  rw [step, h]

theorem runCommand_of_decode {w : Word} {i : Instr} (h : decode w = .ok i) : runCommand w s = exec i s := by
  rw [runCommand, h]

theorem step_command {w : Word} {i : Instr} (hs : s.inputs = .command w :: rest) (hw : decode w = .ok i) :
    step s = exec i { s with inputs := rest } :=
  (step_of_inputs_cons hs).trans (runCommand_of_decode hw)

/-! Reading the fields of a command's word. The two library lemmas on a range of bits of `x ++ y` do not fire where the
width of the word is written as 32 and not as a sum, so they are said again for such widths (`no_index`). -/

/-- Bits above `y` are bits of `x`. -/
theorem extract_append_high {m k start len : Nat} {x : BitVec m} {y : BitVec k} (h : k ≤ start) :
    BitVec.extractLsb' (n := no_index (m + k)) start len (HAppend.hAppend (γ := no_index (BitVec (m + k))) x y)
      = x.extractLsb' (start - k) len :=
  BitVec.extractLsb'_append_eq_of_le h

/-- Bits inside `y` are bits of `y`. -/
theorem extract_append_low {m k start len : Nat} {x : BitVec m} {y : BitVec k} (h : start + len ≤ k) :
    BitVec.extractLsb' (n := no_index (m + k)) start len (HAppend.hAppend (γ := no_index (BitVec (m + k))) x y)
      = y.extractLsb' start len :=
  BitVec.extractLsb'_append_eq_of_add_le h

/-- In the word of any command, `op` (and `fn`) select the command's own row, and the fields that the row's arm reads
are the operands; the mask check alone is left (30_encoding.md R81, R82, R84). -/
theorem decode_encode_eq_accept (i : Instr) : decode (encode i) = accept (rowOf i) (encode i) i := by
  cases i <;> simp [decode, decodeSystem, encode, rowOf, fieldOp, fieldV, fieldP, fieldS, fieldQ, fieldId, fieldVal,
    fieldFn, fieldImm, extract_append_high, extract_append_low]

/-- Every command's word has the bits of the command's row under its mask (30_encoding.md R85, R86). -/
theorem encodesItsRow : ∀ i : Instr, EncodesItsRow.Statement i
  | .nop => EncodesItsRow.nop
  | .paramWr v id val => EncodesItsRow.paramWr v id val
  | .paramRd v id => EncodesItsRow.paramRd v id
  | .resolve v p st id => EncodesItsRow.resolve v p st id
  | .lockSt v p st id val => EncodesItsRow.lockSt v p st id val
  | .lockClr v p => EncodesItsRow.lockClr v p
  | .lockRms v p st => EncodesItsRow.lockRms v p st
  | .lockCpy v p q => EncodesItsRow.lockCpy v p q
  | .lockHas v p st => EncodesItsRow.lockHas v p st
  | .noteSet v p st val => EncodesItsRow.noteSet v p st val
  | .keySet v p st val => EncodesItsRow.keySet v p st val
  | .noteGet v p st => EncodesItsRow.noteGet v p st
  | .plenSet v p val => EncodesItsRow.plenSet v p val
  | .prateSet v p val => EncodesItsRow.prateSet v p val
  | .patDbl v p => EncodesItsRow.patDbl v p
  | .patCpy v p q => EncodesItsRow.patCpy v p q
  | .patInfo v p sel => EncodesItsRow.patInfo v p sel
  | .typeSet v val => EncodesItsRow.typeSet v val
  | .patSel v p => EncodesItsRow.patSel v p
  | .gridTrig v g m => EncodesItsRow.gridTrig v g m
  | .gridNote v g val => EncodesItsRow.gridNote v g val
  | .gridRd v g => EncodesItsRow.gridRd v g
  | .voiceRd v sel => EncodesItsRow.voiceRd v sel
  | .play on => EncodesItsRow.play on
  | .selVoice v => EncodesItsRow.selVoice v
  | .modeSet m => EncodesItsRow.modeSet m
  | .tempoSet bpm => EncodesItsRow.tempoSet bpm
  | .noteReq note => EncodesItsRow.noteReq note
  | .seqRd sel => EncodesItsRow.seqRd sel
  | .poolRd ix w => EncodesItsRow.poolRd ix w
  | .poolStat => EncodesItsRow.poolStat
  | .diagRd => EncodesItsRow.diagRd
  | .diagClr mask => EncodesItsRow.diagClr mask
  | .softReset => EncodesItsRow.softReset

/-- A command's word decodes to the command. -/
theorem decode_encode (i : Instr) : decode (encode i) = .ok i :=
  (decode_encode_eq_accept i).trans (if_pos (encodesItsRow i))

/-- The port carries all 32 bits of a word (30_encoding.md R89). -/
theorem portWord_toNat (w : Word) : portWord 32 w.toNat = w := by
  rw [portWord, Nat.mod_eq_of_lt w.isLt, BitVec.ofNat_toNat, BitVec.setWidth_eq]

/-- Settles O6: the schedule's head is decoded and run, and the word that `withFetchWord` presents is read back as the
command it came from. -/
theorem stepRunsTheDecodedCommand : Obligations.StepRunsTheDecodedCommand := by
  refine ⟨fun s w rest i hs hw => step_command hs hw, fun s i => ?_⟩
  have hinputs : (s.withFetchWord 32 (encode i).toNat).inputs = .command (encode i) :: s.inputs := by
    rw [State.withFetchWord, portWord_toNat]
  exact step_command hinputs (decode_encode i)

end Sys2Proof.Schedule
end

section
/-!
PROOFS. The render agent writes nothing of the host's, and nothing at all between blocks (O54).
-/

namespace Sys2Proof.RenderFrame

open Sys2Proof Sys2Proof.Machine Sys2Proof.Laws Sys2Proof.Schedule

variable {c : Config} {e : Engine} {s t : State} {rest : List Input}

/-- All that the render agent's turn can be: a Frame, a BlockEnd, or nothing between blocks. -/
theorem renderStep_cases (c : Config) (e : Engine) :
    (e.busy = true ∧ e.frameIdx.val < blockN ∧ renderStep c e = frame c e)
    ∨ (e.busy = true ∧ ¬e.frameIdx.val < blockN ∧ renderStep c e = blockEnd c e)
    ∨ (e.busy = false ∧ renderStep c e = e) := by
  rw [renderStep]
  cases hbusy : e.busy with
  | true =>
    by_cases hframes : e.frameIdx.val < blockN
    · exact .inl ⟨rfl, hframes, by simp [hframes]⟩
    · exact .inr (.inl ⟨rfl, hframes, by simp [hframes]⟩)
  | false => exact .inr (.inr ⟨rfl, rfl⟩)

theorem renderStep_idle (h : e.busy = false) : renderStep c e = e := by
  rw [renderStep, h]
  rfl

theorem renderStep_writes : RenderWrites e (renderStep c e) := by
  rcases renderStep_cases c e with ⟨_, _, heq⟩ | ⟨_, _, heq⟩ | ⟨_, heq⟩ <;> rw [heq]
  · exact frame_writes
  · exact blockEnd_writes
  · exact renderWrites_refl e

/-- A period signal that has a step is a BlockStart (48_render_sequencer.md R206, R213). -/
theorem periodSignal_next (h : periodSignal s = .next t) : t = s.withHw (blockStart s.cfg s.hw) := by
  rw [periodSignal] at h
  split at h
  · cases h
  · cases h
    rfl

/-- `t` is `s` with an event off the schedule and what the render agent may write. -/
theorem renderEvent_writes
    (hinputs : s.inputs = [] ∨ (∃ rest, s.inputs = .render :: rest) ∨ ∃ rest, s.inputs = .period :: rest)
    (h : step s = .next t) :
    ∃ e, RenderWrites s.hw e ∧ t = { s with hw := e, inputs := s.inputs.tail } := by
  rcases hinputs with hnil | ⟨rest, hrender⟩ | ⟨rest, hperiod⟩
  · rw [step_of_inputs_nil hnil] at h
    cases h
    exact ⟨_, renderStep_writes, by rw [hnil, State.withHw, hnil, List.tail_nil]⟩
  · rw [step_of_inputs_cons hrender] at h
    cases h
    exact ⟨_, renderStep_writes, by rw [hrender]; rfl⟩
  · rw [step_of_inputs_cons hperiod] at h
    exact ⟨_, blockStart_writes, by rw [hperiod, periodSignal_next h]; rfl⟩

/-- Settles O54: the agent's turn and BlockStart are all that moves, and between blocks the turn is the identity. -/
theorem renderAgentWritesNoHostState : Obligations.RenderAgentWritesNoHostState := by
  refine ⟨fun s t hinputs h => ?_, fun s rest hs hidle => ?_, fun s hs hidle => ?_, fun s rest hs => ?_⟩
  · obtain ⟨e, hwrites, rfl⟩ := renderEvent_writes hinputs h
    exact ⟨hwrites, rfl, rfl, rfl⟩
  · rw [step_of_inputs_cons hs, runInput, renderTurn, renderStep_idle hidle]
    rfl
  · rw [step_of_inputs_nil hs, renderTurn, renderStep_idle hidle]
    rfl
  · exact ⟨renderStep s.cfg s.hw, step_of_inputs_nil hs,
      step_of_inputs_cons (s := { s with inputs := .render :: rest }) rfl⟩

end Sys2Proof.RenderFrame
end

section
/-!
PROOFS. What every command answers, and what it does to the hardware's state (O55): the render agent's state is left
alone, and so is the canonical form of the memory spaces. The latter is what the commands have in O57.
-/

namespace Sys2Proof.CommandFrame

open Sys2Proof Sys2Proof.Machine Sys2Proof.Laws

variable {c : Config} {e e' e'' : Engine} {s t : State} {v : VoiceIx} {p q : PatternIx}

/-! What every part of a command other than SOFT_RESET does. -/

/-- `e'` differs from `e` in what a command may write, and no write was outside its memory space. -/
structure CommandPart (c : Config) (e e' : Engine) : Prop where
  writes : HostWrites e e'
  canonical : memoryCanonical c e = true → memoryCanonical c e' = true

/-- Where the voices, `playStep`, the block state and AUDIO are as before. -/
theorem hostWrites_congr
    (heq : e' = { e' with
      x := e.x, playStep := e.playStep, busy := e.busy, frameIdx := e.frameIdx, audioMem := e.audioMem }) :
    HostWrites e e' := by
  rw [heq]
  exact ⟨⟨rfl, rfl, rfl, rfl⟩, fun _ => rfl⟩

theorem hostWrites_trans (h : HostWrites e e') (h' : HostWrites e' e'') : HostWrites e e'' where
  blocks := by
    obtain ⟨hbusy, hframeIdx, haudio, hplayStep⟩ := h.blocks
    obtain ⟨hbusy', hframeIdx', haudio', hplayStep'⟩ := h'.blocks
    exact ⟨hbusy'.trans hbusy, hframeIdx'.trans hframeIdx, haudio'.trans haudio, hplayStep'.trans hplayStep⟩
  registers v := by
    rw [h'.registers v, h.registers v]

theorem CommandPart.refl (c : Config) (e : Engine) : CommandPart c e e := ⟨hostWrites_congr rfl, id⟩

theorem CommandPart.trans (h : CommandPart c e e') (h' : CommandPart c e' e'') : CommandPart c e e'' :=
  ⟨hostWrites_trans h.writes h'.writes, fun hcanon => h'.canonical (h.canonical hcanon)⟩

theorem CommandPart.foldl {α : Type} {f : Engine → α → Engine} (hf : ∀ e a, CommandPart c e (f e a)) (l : List α)
    (e : Engine) : CommandPart c e (l.foldl f e) := by
  induction l generalizing e with
  | nil => exact .refl c e
  | cons a l ih => exact (hf e a).trans (ih (f e a))

/-! The operations that commands are made of. -/

theorem commandPart_raiseDiag (cause : BitVec 4) : CommandPart c e (raiseDiag cause e) := ⟨hostWrites_congr rfl, id⟩

theorem commandPart_raiseCycleIf (fault : Bool) : CommandPart c e (raiseCycleIf fault e) := by
  cases fault with
  | false => exact .refl c e
  | true => exact commandPart_raiseDiag _

theorem commandPart_setRecord {i : PoolIx} (hi : poolIxInRange c i = true) (r : LockRecord) :
    CommandPart c e (e.setRecord c i r) := ⟨hostWrites_congr rfl, fun h => canonical_setRecord h hi r⟩

theorem commandPart_setLockHead (i : PoolIx) : CommandPart c e (e.setLockHead v p i) :=
  ⟨hostWrites_congr rfl, fun h => canonical_setLockHead h v p i⟩

theorem commandPart_writeFreeList (freeHead freeCount : PoolIx) :
    CommandPart c e { e with freeHead := freeHead, freeCount := freeCount } := ⟨hostWrites_congr rfl, id⟩

theorem commandPart_release {i : PoolIx} (hi : poolIxInRange c i = true) : CommandPart c e (release c e i) :=
  (commandPart_setRecord hi _).trans (commandPart_writeFreeList _ _)

theorem commandPart_setNote (st : StepIx) (b : Byte) : CommandPart c e (setNote e v p st b) :=
  ⟨hostWrites_congr rfl, fun h => canonical_setNote h v p st b⟩

theorem commandPart_setKey (st : StepIx) (b : Byte) : CommandPart c e (e.setKey v p st b) :=
  ⟨hostWrites_congr rfl, fun h => canonical_setKey h v p st b⟩

theorem commandPart_setLength (n : BitVec 7) : CommandPart c e (e.setLength v p n) :=
  ⟨hostWrites_congr rfl, fun h => canonical_setLength h v p n⟩

theorem commandPart_setRate (b : Byte) : CommandPart c e (e.setRate v p b) :=
  ⟨hostWrites_congr rfl, fun h => canonical_setRate h v p b⟩

/-- Of a voice's registers a command writes the type alone (43_sequencer_cmds.md R141). -/
theorem commandPart_setKind (kind : InstrType) : CommandPart c e (e.setVoice v { e.voice v with kind := kind }) where
  writes := by
    refine ⟨⟨rfl, rfl, rfl, rfl⟩, fun v' => ?_⟩
    rw [voice_setVoice]
    split
    · rename_i hv
      rw [hv]
    · rfl
  canonical := id

/-! The walks over lock lists: each index that a walk writes at has passed its guard (41_params_locks.md R112). -/

/-- What a search answers is an index that names a record. -/
theorem findLockFrom_inRange {st id : Byte} {n : Nat} {cur i : PoolIx}
    (h : (findLockFrom c e st id n cur).1 = some i) : poolIxInRange c i = true := by
  induction n generalizing cur with
  | zero => simp [findLockFrom] at h
  | succ n ih =>
    rw [findLockFrom] at h
    split at h
    · cases h
    · split at h
      · rename_i hcur
        dsimp only at h
        split at h
        · cases h
          exact hcur
        · split at h
          · cases h
          · exact ih h
      · cases h

theorem storeLock_part {st id val : Byte} {status : Status} (h : storeLock c e v p st id val = .ok (status, e')) :
    CommandPart c e e' := by
  rw [storeLock] at h
  split at h
  · cases h
    exact commandPart_raiseDiag _
  · rename_i i hfound
    cases h
    exact commandPart_setRecord (findLockFrom_inRange (congrArg Prod.fst hfound)) _
  · rcases allocate_cases c e with ⟨_, heq⟩ | ⟨_, hfree, heq⟩ | ⟨_, _, heq⟩ <;> rw [heq] at h <;> cases h
    · exact commandPart_raiseDiag _
    · exact ((commandPart_writeFreeList _ _).trans (commandPart_setRecord hfree _)).trans (commandPart_setLockHead _)

theorem clearFrom_part (fuel : Nat) (cur : PoolIx) (e : Engine) (n : Nat) :
    CommandPart c e (clearFrom c fuel cur e n).2.2 := by
  induction fuel generalizing cur e n with
  | zero =>
    rw [clearFrom]
    split
    · exact .refl c e
    · exact commandPart_raiseDiag _
  | succ fuel ih =>
    rw [clearFrom]
    split
    · exact .refl c e
    · split
      · rename_i hcur
        dsimp only
        split
        · exact (commandPart_release hcur).trans (commandPart_raiseDiag _)
        · exact (commandPart_release hcur).trans (ih _ _ _)
      · exact commandPart_raiseDiag _

theorem clearLocks_part : CommandPart c e (clearLocks c e v p).2.2 :=
  (clearFrom_part _ _ e _).trans (commandPart_setLockHead _)

theorem unlink_part {prev nxt : PoolIx} (hprev : prev = sentinel ∨ poolIxInRange c prev = true) :
    CommandPart c e (unlink c e v p prev nxt) := by
  rw [unlink]
  split
  · exact commandPart_setLockHead _
  · rename_i hne
    exact commandPart_setRecord (hprev.resolve_left hne) _

/-- The predecessor that the walk carries is none, or a record it has passed. -/
theorem removeFrom_part {st : Byte} (fuel : Nat) {prev : PoolIx} (cur : PoolIx) (e : Engine) (n : Nat)
    (hprev : prev = sentinel ∨ poolIxInRange c prev = true) :
    CommandPart c e (removeFrom c v p st fuel prev cur e n).2.2 := by
  induction fuel generalizing prev cur e n with
  | zero =>
    rw [removeFrom]
    split
    · exact .refl c e
    · exact commandPart_raiseDiag _
  | succ fuel ih =>
    rw [removeFrom]
    split
    · exact .refl c e
    · split
      · rename_i hcur
        dsimp only
        split
        · exact commandPart_raiseDiag _
        · split
          · exact ((unlink_part hprev).trans (commandPart_release hcur)).trans (ih _ _ _ hprev)
          · exact ih _ _ _ (.inr hcur)
      · exact commandPart_raiseDiag _

theorem removeLocksForStep_part {st : Byte} : CommandPart c e (removeLocksForStep c e v p st).2.2 :=
  removeFrom_part _ _ e _ (.inl rfl)

theorem copyFrom_part {fuel : Nat} {cur : PoolIx} {dropped dropped' : Nat} {acc status : Status}
    (h : copyFrom c v q fuel cur e dropped acc = .ok (status, dropped', e')) : CommandPart c e e' := by
  induction fuel generalizing cur e dropped acc with
  | zero =>
    rw [copyFrom] at h
    split at h <;> cases h
    · exact .refl c _
    · exact commandPart_raiseDiag _
  | succ fuel ih =>
    rw [copyFrom] at h
    split at h
    · cases h
      exact .refl c _
    · split at h
      · dsimp only at h
        split at h
        · cases h
        · rename_i hstore
          cases h
          exact storeLock_part hstore
        all_goals
          rename_i hstore
          refine (storeLock_part hstore).trans ?_
          split at h
          · cases h
            exact commandPart_raiseDiag _
          · exact ih h
      · cases h
        exact commandPart_raiseDiag _

/-! The loops over pattern slots (42_patterns.md R132, R133). -/

theorem doubleSlot_part (len i : Nat) : CommandPart c e (doubleSlot v p len e i) :=
  (commandPart_setNote _ _).trans (commandPart_setKey _ _)

theorem doublePattern_part : CommandPart c e (doublePattern e v p) := by
  rw [doublePattern]
  split
  · exact (CommandPart.foldl (fun _ => doubleSlot_part _) _ e).trans (commandPart_setLength _)
  · exact .refl c e

theorem copySlot_part (i : Nat) : CommandPart c e (copySlot v p q e i) :=
  (commandPart_setNote _ _).trans (commandPart_setKey _ _)

theorem copyPattern_part : CommandPart c e (copyPattern e v p q) := by
  rw [copyPattern]
  split
  · exact .refl c e
  · exact ((CommandPart.foldl (fun _ => copySlot_part) _ e).trans (commandPart_setLength _)).trans
      (commandPart_setRate _)

/-! What a command answers. -/

/-- A result that is a next state is a response that leaves the hardware in a state with `P` (30_encoding.md R83). -/
def Answers (P : Engine → Prop) (s : State) : Result → Prop
  | .next t => ∃ e status data, t = { s with hw := e, response := some ⟨statusCode status, data⟩ } ∧ P e
  | .fault _ => True
  | .refused _ => True

theorem answers_mono {P Q : Engine → Prop} (hPQ : ∀ e, P e → Q e) {r : Result} (h : Answers P s r) : Answers Q s r := by
  cases r with
  | next t =>
    obtain ⟨e, status, data, ht, hP⟩ := h
    exact ⟨e, status, data, ht, hPQ e hP⟩
  | fault f => trivial
  | refused r => trivial

theorem answers_respond {P : Engine → Prop} (h : P e) (status : Status) (data : Word) :
    Answers P s (respond s e status data) := ⟨e, status, data, rfl, h⟩

/-- The result of a command that is made of parts of a command. -/
abbrev AnswersPart (s : State) : Result → Prop := Answers (CommandPart s.cfg s.hw) s

/-- A command that only reads. -/
theorem answers_read (status : Status) (data : Word) : AnswersPart s (respond s s.hw status data) :=
  answers_respond (.refl s.cfg s.hw) status data

/-- A command that writes registers which neither the voices nor the block state nor a memory space hold. -/
theorem answers_registers {status : Status} {data : Word}
    (heq : e = { e with
      x := s.hw.x, playStep := s.hw.playStep, busy := s.hw.busy, frameIdx := s.hw.frameIdx, audioMem := s.hw.audioMem })
    (hcanon : memoryCanonical s.cfg e = memoryCanonical s.cfg s.hw) : AnswersPart s (respond s e status data) :=
  answers_respond ⟨hostWrites_congr heq, hcanon.trans⟩ status data

theorem answers_refuseOperand : AnswersPart s (refuseOperand s) := answers_respond (commandPart_raiseDiag _) _ _

theorem answers_refuseIllegal : AnswersPart s (refuseIllegal s) := answers_respond (commandPart_raiseDiag _) _ _

/-- A command behind an operand check (30_encoding.md R84, R88 (b)). -/
theorem answers_checked {check : Bool} {r : Result} (h : AnswersPart s r) :
    AnswersPart s (if check then r else refuseOperand s) := by
  split
  · exact h
  · exact answers_refuseOperand

theorem lockSt_answers (st : StepIx) (id : ParamId) (val : Byte) : AnswersPart s (execLockSt v p st id val s) := by
  refine answers_checked ?_
  split
  · rename_i hstore
    exact answers_respond (storeLock_part hstore) _ _
  · trivial

theorem lockCpy_answers : AnswersPart s (execLockCpy v p q s) := by
  rw [execLockCpy]
  split
  · rename_i hcopy
    exact answers_respond (copyFrom_part hcopy) _ _
  · trivial

theorem patInfo_answers (sel : BitVec 1) : AnswersPart s (execPatInfo v p sel s) := by
  rw [execPatInfo]
  split <;> exact answers_read _ _

theorem voiceRd_answers (sel : BitVec 2) : AnswersPart s (execVoiceRd v sel s) := by
  rw [execVoiceRd]
  split <;> exact answers_read _ _

theorem seqRd_answers (sel : BitVec 2) : AnswersPart s (execSeqRd sel s) := by
  rw [execSeqRd]
  split <;> exact answers_read _ _

theorem poolRd_answers (ix : PoolIx) (w : BitVec 1) : AnswersPart s (execPoolRd ix w s) := by
  rw [execPoolRd]
  split
  · exact answers_refuseOperand
  · split <;> exact answers_read _ _

theorem play_answers (on : BitVec 1) : AnswersPart s (execPlay on s) := by
  rw [execPlay]
  split
  · rw [startSequencer]
    split
    · exact answers_read _ _
    · exact answers_registers rfl rfl
  · exact answers_registers rfl rfl

/-- Every command other than SOFT_RESET is made of parts of a command. -/
theorem exec_answersPart {i : Instr} (hi : i ≠ .softReset) : AnswersPart s (exec i s) := by
  cases i with
  | nop => exact answers_read _ _
  | paramWr v id val =>
    exact answers_checked (answers_respond ⟨hostWrites_congr rfl, fun h => canonical_setPar h v id val⟩ _ _)
  | paramRd v id => exact answers_checked (answers_read _ _)
  | resolve v p st id => exact answers_checked (answers_respond (commandPart_raiseCycleIf _) _ _)
  | lockSt v p st id val => exact lockSt_answers st id val
  | lockClr v p => exact answers_respond clearLocks_part _ _
  | lockRms v p st => exact answers_respond removeLocksForStep_part _ _
  | lockCpy v p q => exact lockCpy_answers
  | lockHas v p st => exact answers_respond (commandPart_raiseCycleIf _) _ _
  | noteSet v p st val => exact answers_respond (commandPart_setNote st val) _ _
  | keySet v p st val => exact answers_respond (commandPart_setKey st val) _ _
  | noteGet v p st => exact answers_read _ _
  | plenSet v p val => exact answers_checked (answers_respond (commandPart_setLength _) _ _)
  | prateSet v p val => exact answers_respond (commandPart_setRate val) _ _
  | patDbl v p => exact answers_respond doublePattern_part _ _
  | patCpy v p q => exact answers_respond copyPattern_part _ _
  | patInfo v p sel => exact patInfo_answers sel
  | typeSet v val => exact answers_checked (answers_respond (commandPart_setKind _) _ _)
  | patSel v p => exact answers_registers rfl rfl
  | gridTrig v g m =>
    exact answers_checked (answers_respond ⟨hostWrites_congr rfl, fun h => canonical_setTrig h v g _⟩ _ _)
  | gridNote v g val => exact answers_respond ⟨hostWrites_congr rfl, fun h => canonical_setGnote h v g val⟩ _ _
  | gridRd v g => exact answers_read _ _
  | voiceRd v sel => exact voiceRd_answers sel
  | play on => exact play_answers on
  | selVoice v => exact answers_registers rfl rfl
  | modeSet m => exact answers_registers rfl rfl
  | tempoSet bpm => exact answers_checked (answers_registers rfl rfl)
  | noteReq note => exact answers_registers rfl rfl
  | seqRd sel => exact seqRd_answers sel
  | poolRd ix w => exact poolRd_answers ix w
  | poolStat => exact answers_read _ _
  | diagRd => exact answers_read _ _
  | diagClr mask => exact answers_registers rfl rfl
  | softReset => exact absurd rfl hi

/-- SOFT_RESET empties every space but AUDIO, which it keeps (43_sequencer_cmds.md R156). -/
theorem canonical_softReset (h : memoryCanonical c e = true) : memoryCanonical c (softResetEngine c e) = true := by
  have hreset := reset_canonical c
  rw [canonical_iff] at h hreset ⊢
  obtain ⟨hpar, hnote, hkey, hlength, hrate, hnoteCount, hlockHead, hpool, htrig, hgnote, _⟩ := hreset
  obtain ⟨_, _, _, _, _, _, _, _, _, _, haudio⟩ := h
  exact ⟨hpar, hnote, hkey, hlength, hrate, hnoteCount, hlockHead, hpool, htrig, hgnote, haudio⟩

/-- Every command that answers responds, and leaves the render agent's state alone unless it is SOFT_RESET, and the
canonical form in any case. -/
theorem exec_answers (i : Instr) (s : State) :
    Answers (fun e => (i ≠ .softReset → HostWrites s.hw e)
      ∧ (memoryCanonical s.cfg s.hw = true → memoryCanonical s.cfg e = true)) s (exec i s) := by
  by_cases hi : i = .softReset
  · rw [hi]
    exact answers_respond ⟨fun hne => absurd rfl hne, canonical_softReset⟩ _ _
  · exact answers_mono (fun _ hpart => ⟨fun _ => hpart.writes, hpart.canonical⟩) (exec_answersPart hi)

/-- Settles O55, by one lemma per command and what every answer is. -/
theorem commandsWriteNoRenderState : Obligations.CommandsWriteNoRenderState := by
  intro i s t h
  have hanswers := exec_answers i s
  rw [h] at hanswers
  obtain ⟨e, status, data, rfl, hwrites, _⟩ := hanswers
  exact ⟨hwrites, rfl, rfl, _, rfl, statusCode_lt status⟩

end Sys2Proof.CommandFrame
end

section
/-!
PROOFS. Every step keeps the canonical form of the memory spaces (O57). The commands have it from `CommandFrame`; the
render agent writes no space but AUDIO, and that only in a Frame, at a place inside the block.
-/

namespace Sys2Proof.MemorySpaces

open Sys2Proof Sys2Proof.Machine Sys2Proof.Laws Sys2Proof.Schedule Sys2Proof.RenderFrame Sys2Proof.CommandFrame

variable {c : Config} {e e' : Engine} {s : State} {v : VoiceIx}

/-! The render agent. -/

/-- A part of a render step that does not write AUDIO writes no space. -/
theorem canonical_of_renderWrites (h : memoryCanonical c e = true) (hwrites : RenderWrites e e')
    (haudio : e'.audioMem = e.audioMem) : memoryCanonical c e' = true := by
  rw [canonical_congr (e := e), h]
  rw [hwrites.others, haudio]

/-- The block's frame count and AUDIO, which nothing before a Frame's output writes. -/
def outputPart (e : Engine) : Fin 129 × Memory Sample := (e.frameIdx, e.audioMem)

theorem outputPart_pull : outputPart (pull c e v) = outputPart e := by
  rw [pull_eq]
  rfl

theorem outputPart_trigger : outputPart (trigger c e v) = outputPart e := by
  rw [trigger_eq]
  rfl

theorem outputPart_tickVoice (g : GridIx) : outputPart (tickVoice c g e v) = outputPart e := by
  rw [tickVoice]
  split
  · exact outputPart_trigger
  · rfl

/-- A fold whose every pass keeps the part, on the engine that `eng` reads off the accumulator. -/
theorem outputPart_foldl {α β : Type} {f : β → α → β} {eng : β → Engine}
    (hf : ∀ b a, outputPart (eng (f b a)) = outputPart (eng b)) (l : List α) (b : β) :
    outputPart (eng (l.foldl f b)) = outputPart (eng b) := by
  induction l generalizing b with
  | nil => rfl
  | cons a l ih => exact (ih (f b a)).trans (hf b a)

theorem outputPart_tick : outputPart (tick c e) = outputPart e := by
  have hvoices : outputPart
      (allVoices.foldl (tickVoice c e.curStep) { e with playStep := e.curStep, playValid := true })
        = outputPart e := outputPart_foldl (eng := id) (fun _ _ => outputPart_tickVoice _) allVoices _
  rw [tick]
  generalize allVoices.foldl _ _ = ticked at hvoices ⊢
  exact hvoices

theorem outputPart_sequencerStep : outputPart (sequencerStep c e) = outputPart e := by
  have htick : outputPart (tick c e) = outputPart e := outputPart_tick
  rw [sequencerStep_eq]
  generalize tick c e = ticked at htick ⊢
  split
  · split
    · exact htick
    · rfl
  · rfl

theorem outputPart_mix : outputPart (mix c e).1 = outputPart e :=
  outputPart_foldl (f := mixVoice c) (eng := Prod.fst) (fun _ _ => rfl) renderedVoices (e, 0)

/-- The output of a frame of the block is written inside AUDIO (20_memory.md R71). -/
theorem canonical_emit (h : memoryCanonical c e = true) (hframes : e.frameIdx.val < blockN) (acc : Int) :
    memoryCanonical c (emit e acc) = true := by
  rw [emit]
  generalize toSample (sat16 acc) = out
  generalize e.frameIdx + 1 = frameIdx
  exact canonical_setAudio (canonical_setAudio h hframes false out) hframes true out

theorem canonical_frame (h : memoryCanonical c e = true) (hframes : e.frameIdx.val < blockN) :
    memoryCanonical c (frame c e) = true := by
  have hwrites : RenderWrites e (mix c (sequencerStep c e)).1 := renderWrites_trans sequencerStep_writes mix_writes
  have hpart : outputPart (mix c (sequencerStep c e)).1 = outputPart e :=
    outputPart_mix.trans outputPart_sequencerStep
  obtain ⟨hframeIdx, haudio⟩ := Prod.mk.inj hpart
  exact canonical_emit (canonical_of_renderWrites h hwrites haudio) (by rw [hframeIdx]; exact hframes) _

theorem canonical_blockStart (h : memoryCanonical c e = true) : memoryCanonical c (blockStart c e) = true := by
  have hpart : outputPart (blockStart c e) = (0, e.audioMem) :=
    outputPart_foldl (eng := id) (fun _ _ => outputPart_pull) renderedVoices _
  exact canonical_of_renderWrites h blockStart_writes (congrArg Prod.snd hpart)

theorem outputPart_blockEnd : outputPart (blockEnd c e) = outputPart e := by
  rw [blockEnd]
  dsimp only
  split
  · exact outputPart_trigger
  · rfl

theorem canonical_renderStep (h : memoryCanonical c e = true) : memoryCanonical c (renderStep c e) = true := by
  rcases renderStep_cases c e with ⟨_, hframes, heq⟩ | ⟨_, _, heq⟩ | ⟨_, heq⟩ <;> rw [heq]
  · exact canonical_frame h hframes
  · exact canonical_of_renderWrites h blockEnd_writes (congrArg Prod.snd outputPart_blockEnd)
  · exact h

/-! The step. -/

/-- A result that is a next state has its memory spaces in canonical form. -/
def IsCanonical : Result → Prop
  | .next t => memoryCanonical t.cfg t.hw = true
  | .fault _ => True
  | .refused _ => True

theorem isCanonical_of_answers {P : Engine → Prop} (hP : ∀ e, P e → memoryCanonical s.cfg e = true) {r : Result}
    (h : Answers P s r) : IsCanonical r := by
  cases r with
  | next t =>
    obtain ⟨e, status, data, rfl, hpart⟩ := h
    exact hP e hpart
  | fault f => trivial
  | refused r => trivial

theorem runCommand_canonical (h : memoryCanonical s.cfg s.hw = true) (w : Word) : IsCanonical (runCommand w s) := by
  rw [runCommand]
  split
  · exact isCanonical_of_answers (fun _ hpart => hpart.2 h) (exec_answers _ s)
  · exact isCanonical_of_answers (fun _ hpart => hpart.canonical h) answers_refuseIllegal

theorem periodSignal_canonical (h : memoryCanonical s.cfg s.hw = true) : IsCanonical (periodSignal s) := by
  rw [periodSignal]
  split
  · trivial
  · exact canonical_blockStart h

theorem runInput_canonical (h : memoryCanonical s.cfg s.hw = true) (i : Input) : IsCanonical (runInput i s) := by
  cases i with
  | command w => exact runCommand_canonical h w
  | period => exact periodSignal_canonical h
  | render => exact canonical_renderStep h
  | hardReset => exact reset_canonical s.cfg

theorem step_canonical (h : memoryCanonical s.cfg s.hw = true) : IsCanonical (step s) := by
  cases hinputs : s.inputs with
  | nil =>
    rw [step_of_inputs_nil hinputs]
    exact canonical_renderStep h
  | cons i rest =>
    rw [step_of_inputs_cons hinputs]
    exact runInput_canonical (s := { s with inputs := rest }) h i

/-- Settles O57: the commands, the render agent's turn, BlockStart and the reset input each keep the form. -/
theorem stepKeepsMemoryCanonical : Obligations.StepKeepsMemoryCanonical := by
  intro s t h hnext
  have hcanon := step_canonical h
  rw [hnext] at hcanon
  exact hcanon

end Sys2Proof.MemorySpaces
end

section
/-!
PROOFS. Decoder and encoder (O1 to O5): the word of a command gives the command back (Schedule.decode_encode), a legal
word is the word of its command, and the words of a command are those that match its row of the opcode map.
-/

namespace Sys2Proof.Encoding

open Sys2Proof Sys2Proof.Machine Sys2Proof.Laws Sys2Proof.Schedule

variable {w : Word} {r : Row} {i j : Instr}

/-! Cutting a word into fields. The word's width is written as 32 and not as a sum, hence `no_index`. -/

/-- A word is `x ++ y` where its high bits are `x` and its low bits `y`. -/
theorem append_eq_iff {m k : Nat} {x : BitVec m} {y : BitVec k} {z : BitVec (no_index (m + k))} :
    HAppend.hAppend (γ := no_index (BitVec (m + k))) x y = z ↔ x = z.extractLsb' k m ∧ y = z.extractLsb' 0 k := by
  constructor
  · rintro rfl
    exact ⟨BitVec.extractLsb'_append_eq_left.symm, BitVec.extractLsb'_append_eq_right.symm⟩
  · rintro ⟨rfl, rfl⟩
    exact BitVec.extractLsb'_append_extractLsb'

/-- A range of bits of a range of bits. -/
theorem extract_extract {n start len start' len' : Nat} {x : BitVec n} (h : start' + len' ≤ len) :
    (x.extractLsb' start len).extractLsb' start' len' = x.extractLsb' (start + start') len' := by
  ext k hk
  have hlt : start' + k < len := by omega
  simp [hlt, Nat.add_assoc]

/-! What the match of a row says about a word (30_encoding.md R85, R86). -/

/-- A range of bits that the mask covers is the row's. -/
theorem extract_of_matches (h : w &&& r.mask = r.bits) {start len : Nat}
    (hmask : r.mask.extractLsb' start len = BitVec.allOnes len) :
    w.extractLsb' start len = r.bits.extractLsb' start len := by
  rw [← h, BitVec.extractLsb'_and, hmask, BitVec.and_allOnes]

/-- A command without operands has one word. -/
theorem eq_bits_of_matches (h : w &&& r.mask = r.bits) (hmask : r.mask = BitVec.allOnes 32) : w = r.bits := by
  rw [← h, hmask, BitVec.and_allOnes]

/-- Every mask covers `op`. -/
theorem mask_covers_op : ∀ r ∈ opcodeRows, r.mask.extractLsb' 27 5 = BitVec.allOnes 5 := by decide

/-- The masks of the system commands cover `fn`. -/
theorem mask_covers_fn :
    ∀ r ∈ opcodeRows, fieldOp r.bits = 0x1F#5 → r.mask.extractLsb' 23 4 = BitVec.allOnes 4 := by decide

/-- The opcode map has every command's row. -/
theorem rowOf_mem (i : Instr) : rowOf i ∈ opcodeRows := by cases i <;> simp [rowOf, opcodeRows]

/-- Every row's own bits decode to a command of the row. -/
theorem decode_bits : ∀ r ∈ opcodeRows, (decode r.bits).map rowOf = .ok r := by decide

/-- The opcode map has no row without commands. -/
theorem exists_rowOf_eq (hr : r ∈ opcodeRows) : ∃ i, rowOf i = r := by
  have h := decode_bits r hr
  cases hi : decode r.bits with
  | ok i => exact ⟨i, by simpa [hi, Except.map] using h⟩
  | error why => simp [hi, Except.map] at h

/-! From a legal word to the word of its command. -/

/-- A row's check passes exactly on the words that match the row, and gives the command it was asked for. -/
theorem accept_eq_ok : accept r w j = .ok i ↔ w &&& r.mask = r.bits ∧ j = i := by
  rw [accept]
  split <;> simp [*]

/-- The encoder puts the operands back where the decoder took them, and the bits in between are under the mask. -/
theorem encode_of_decodeSystem (h : decodeSystem w = .ok i) : encode i = w := by
  rw [decodeSystem] at h
  split at h
  -- no such `fn`
  case h_12 => cases h
  all_goals obtain ⟨hrow, rfl⟩ := accept_eq_ok.1 h
  -- `POOL_STAT`, `DIAG_RD`, `SOFT_RESET`: no operand, the mask is the whole word
  case h_8 | h_9 | h_11 => exact (eq_bits_of_matches hrow rfl).symm
  all_goals
    simp (disch := decide) only [encode, append_eq_iff, extract_extract, fieldImm, extract_of_matches hrow]
    decide

/-- A legal word is the word of the command it decodes to. -/
theorem encode_of_decode (h : decode w = .ok i) : encode i = w := by
  rw [decode] at h
  split at h
  -- the system commands; no such `op`
  case h_24 => exact encode_of_decodeSystem h
  case h_25 => cases h
  all_goals obtain ⟨hrow, rfl⟩ := accept_eq_ok.1 h
  -- `NOP`: no operand
  case h_1 => exact (eq_bits_of_matches hrow rfl).symm
  all_goals
    simp (disch := decide) only [encode, append_eq_iff, extract_extract, fieldV, fieldP, fieldS, fieldQ, fieldId,
      fieldVal, extract_of_matches hrow]
    decide

/-! Rows and commands. -/

theorem matches_of_decode (h : decode w = .ok i) : w &&& (rowOf i).mask = (rowOf i).bits :=
  encode_of_decode h ▸ encodesItsRow i

theorem decode_of_fieldOp_system (hop : fieldOp w = 0x1F#5) : decode w = decodeSystem w := by simp only [decode, hop]

/-- A word that matches a command's row is selected by its `op` (and `fn`) as a command of that row. -/
theorem decode_of_matches_rowOf (j : Instr) (h : w &&& (rowOf j).mask = (rowOf j).bits) :
    ∃ i, decode w = .ok i ∧ rowOf i = rowOf j := by
  have hop : fieldOp w = fieldOp (rowOf j).bits := extract_of_matches h (mask_covers_op _ (rowOf_mem j))
  have hfn (hsystem : fieldOp (rowOf j).bits = 0x1F#5) : fieldFn w = fieldFn (rowOf j).bits :=
    extract_of_matches h (mask_covers_fn _ (rowOf_mem j) hsystem)
  cases j with
  | play | selVoice | modeSet | tempoSet | noteReq | seqRd | poolRd | poolStat | diagRd | diagClr | softReset =>
    simp only [rowOf] at h hop hfn ⊢
    rw [decode_of_fieldOp_system hop, decodeSystem, hfn rfl]
    exact ⟨_, accept_eq_ok.2 ⟨h, rfl⟩, rfl⟩
  | _ =>
    simp only [rowOf] at h hop ⊢
    rw [decode, hop]
    exact ⟨_, accept_eq_ok.2 ⟨h, rfl⟩, rfl⟩

/-- The words of a row of the opcode map are those of its commands. -/
theorem matches_iff_decode (hr : r ∈ opcodeRows) : w &&& r.mask = r.bits ↔ ∃ i, decode w = .ok i ∧ rowOf i = r := by
  constructor
  · intro h
    obtain ⟨j, rfl⟩ := exists_rowOf_eq hr
    exact decode_of_matches_rowOf j h
  · rintro ⟨i, hi, rfl⟩
    exact matches_of_decode hi

/-- Settles O1: `op` and `fn` of a command's word select the command's own arm, which reads the operands back. -/
theorem decodeReadsWhatEncodeWrites : Obligations.DecodeReadsWhatEncodeWrites := decode_encode

/-- Settles O2: field by field, a bit of a legal word is an operand's or under its row's mask. -/
theorem encodeRebuildsEveryLegalWord : Obligations.EncodeRebuildsEveryLegalWord := fun _ _ => encode_of_decode

/-- Settles O3: two rows that one word matches are both the row of the one command it decodes to. -/
theorem commandExactlyWhenMaskedBitsMatch : Obligations.CommandExactlyWhenMaskedBitsMatch := by
  refine ⟨fun r hr w => matches_iff_decode hr, fun r hr r' hr' w h h' => ?_⟩
  obtain ⟨i, hi, rfl⟩ := (matches_iff_decode hr).1 h
  obtain ⟨i', hi', rfl⟩ := (matches_iff_decode hr').1 h'
  cases hi.symm.trans hi'
  rfl

/-- Settles O4: a word that decodes matches the row of its command. -/
theorem illegalExactlyWhenNoRowMatches : Obligations.IllegalExactlyWhenNoRowMatches := by
  intro w
  constructor
  · rintro ⟨why, hwhy⟩ r hr h
    obtain ⟨i, hi, -⟩ := (matches_iff_decode hr).1 h
    cases hwhy.symm.trans hi
  · intro hnone
    cases hw : decode w with
    | error why => exact ⟨why, rfl⟩
    | ok i => exact absurd (matches_of_decode hw) (hnone _ (rowOf_mem i))

/-- Settles O5: each word is decoded. -/
theorem specWordsDecode : Obligations.SpecWordsDecode := ⟨rfl, rfl, rfl, rfl, rfl, rfl, rfl⟩

end Sys2Proof.Encoding
end

section
/-!
PROOFS. Commands that are refused (O7, O8): an illegal word and an operand out of range change `DIAG` and the response
alone.
-/

namespace Sys2Proof.RefusedCommands

open Sys2Proof Sys2Proof.Machine Sys2Proof.Laws Sys2Proof.Schedule

variable {s : State} {i : Instr}

theorem refuseIllegal_eq (s : State) :
    refuseIllegal s
      = .next { s with hw := { s.hw with diag := s.hw.diag ||| 4#4 }, response := some ⟨1#4, 0#32⟩ } := rfl

theorem refuseOperand_eq (s : State) :
    refuseOperand s
      = .next { s with hw := { s.hw with diag := s.hw.diag ||| 8#4 }, response := some ⟨2#4, 0#32⟩ } := rfl

theorem runCommand_of_decode_error {w : Word} {why : Illegal} (h : decode w = .error why) :
    runCommand w s = refuseIllegal s := by rw [runCommand, h]

/-- An index that is not below `POOL_C` names no record (40_pool.md R103). -/
theorem poolResolve_of_not_inRange {c : Config} {e : Engine} {ix : PoolIx} (h : poolIxInRange c ix = false) :
    poolResolve c e ix = none := by
  rw [poolResolve, h]
  split <;> rfl

/-- A command checks its operands before anything else (30_encoding.md R84 step (3), R88 (b)). -/
theorem exec_of_not_wellFormed (h : wellFormed s.cfg i = false) : exec i s = refuseOperand s := by
  cases i with
  | paramWr | paramRd | resolve | lockSt | plenSet | typeSet | gridTrig | tempoSet =>
    exact if_neg (Bool.eq_false_iff.1 h)
  | poolRd ix w =>
    show execPoolRd ix w s = refuseOperand s
    rw [execPoolRd, poolResolve_of_not_inRange h]
  | _ => cases h

/-! The ranges of 30_encoding.md R88 (b). -/

theorem paramInUse_eq_false {id : ParamId} (h : 27 ≤ id.toNat) : paramInUse id = false :=
  decide_eq_false (Nat.not_lt.2 h)

theorem lengthInRange_eq_false {val : Byte} (h : val.toNat < 1 ∨ 64 < val.toNat) : lengthInRange val = false := by
  rw [lengthInRange, Bool.and_eq_false_iff]
  exact h.imp (fun hlow => decide_eq_false (Nat.not_le.2 hlow)) fun hhigh => decide_eq_false (Nat.not_le.2 hhigh)

theorem typeInRange_eq_false {val : Byte} (h : 4 < val.toNat) : typeInRange val = false :=
  decide_eq_false (Nat.not_le.2 h)

theorem poolIxInRange_eq_false {c : Config} {ix : PoolIx} (h : c.poolC ≤ ix.toNat) : poolIxInRange c ix = false :=
  decide_eq_false (Nat.not_lt.2 h)

/-- Settles O7: the decoder's rejection is the only thing that an illegal word's step looks at. -/
theorem illegalWordChangesOnlyDiag : Obligations.IllegalWordChangesOnlyDiag := by
  intro s w rest why hinputs hw
  rw [step_of_inputs_cons hinputs, runInput, runCommand_of_decode_error hw, refuseIllegal_eq]

/-- Settles O8: outside each range the command is not well-formed, and so refused. -/
theorem refusedOperandChangesOnlyDiag : Obligations.RefusedOperandChangesOnlyDiag := by
  intro s t ht
  have hrefused (i : Instr) (h : wellFormed s.cfg i = false) : exec i s = .next t := by
    rw [exec_of_not_wellFormed h, refuseOperand_eq, ht]
  refine ⟨fun v p st id val hid => ?_, fun v p val hval => ?_, fun v val hval => ?_, fun v g => ?_, ?_,
    fun ix sel hix => ?_, hrefused⟩
  · have hunused := paramInUse_eq_false hid
    exact ⟨hrefused _ hunused, hrefused _ hunused, hrefused _ hunused, hrefused _ hunused⟩
  · exact hrefused _ (lengthInRange_eq_false hval)
  · exact hrefused _ (typeInRange_eq_false hval)
  · exact hrefused _ rfl
  · exact hrefused _ rfl
  · exact hrefused _ (poolIxInRange_eq_false hix)

end Sys2Proof.RefusedCommands
end

section
/-!
PROOFS. The pool (O21, O22): the two commands that read it answer packed fields and change nothing, and `allocate` and
`release` are the pop and the push of one free list.
-/

namespace Sys2Proof.Pool

open Sys2Proof Sys2Proof.Machine Sys2Proof.Laws

variable {s : State} {c : Config} {e : Engine} {ix : PoolIx}

/-- Fields that are joined have the value of their digits in base `2 ^ k`. -/
theorem toNat_append_eq_mul_add {m k : Nat} (x : BitVec m) (y : BitVec k) :
    (x ++ y).toNat = x.toNat * 2 ^ k + y.toNat := by
  rw [BitVec.toNat_append, ← Nat.shiftLeft_add_eq_or_of_lt y.isLt, Nat.shiftLeft_eq]

theorem poolIxInRange_eq_true (h : ix.toNat < c.poolC) : poolIxInRange c ix = true := decide_eq_true h

/-- An index below a legal `POOL_C` is not the sentinel, whose number is 65535. -/
theorem ne_sentinel_of_lt (hc : c.poolC ≤ 32768) (h : ix.toNat < c.poolC) : ix ≠ sentinel := by
  rintro rfl
  exact absurd (h.trans_le hc) (by decide)

/-- An index below `POOL_C` names its record (40_pool.md R103). -/
theorem poolResolve_of_inRange (hne : ix ≠ sentinel) (h : poolIxInRange c ix = true) :
    poolResolve c e ix = some (e.record c ix) := by
  rw [poolResolve, if_neg hne, if_pos h]

/-- `POOL_RD` of a record answers its three fields in one word, or its link (40_pool.md R105). -/
theorem exec_poolRd_of_resolve {r : LockRecord} (h : poolResolve s.cfg s.hw ix = some r) (w : BitVec 1) :
    exec (.poolRd ix w) s
      = respond s s.hw .ok (if w = 0#1 then 0#8 ++ r.param ++ r.step ++ r.value else 0#16 ++ r.next) := by
  change execPoolRd ix w s = _
  rw [execPoolRd, h]
  exact (apply_ite (respond s s.hw .ok) ..).symm

/-- `POOL_STAT` answers the count and the head of the free list in one word (40_pool.md R106). -/
theorem exec_poolStat (s : State) :
    exec .poolStat s = respond s s.hw .ok (s.hw.freeCount ++ s.hw.freeHead) := rfl

theorem toNat_recordWord (r : LockRecord) :
    (0#8 ++ r.param ++ r.step ++ r.value).toNat = r.param.toNat * 65536 + r.step.toNat * 256 + r.value.toNat := by
  simp only [toNat_append_eq_mul_add, BitVec.toNat_ofNat]
  omega

theorem toNat_linkWord (r : LockRecord) : (0#16 ++ r.next).toNat = r.next.toNat := by
  simp only [toNat_append_eq_mul_add, BitVec.toNat_ofNat]
  omega

/-- Settles O21: an index below `POOL_C` resolves to its record, and the answers are packed fields. -/
theorem poolReadsAnswerTheRecordAndTheOccupancy : Obligations.PoolReadsAnswerTheRecordAndTheOccupancy := by
  refine ⟨fun s ix hc hix => ?_, fun s => ?_⟩
  · have hresolve : poolResolve s.cfg s.hw ix = some (s.hw.record s.cfg ix) :=
      poolResolve_of_inRange (ne_sentinel_of_lt hc hix) (poolIxInRange_eq_true hix)
    exact ⟨_, _, exec_poolRd_of_resolve hresolve 0#1, exec_poolRd_of_resolve hresolve 1#1,
      toNat_recordWord _, toNat_linkWord _⟩
  · exact ⟨_, exec_poolStat s, toNat_append_eq_mul_add _ _⟩

/-! `allocate` and `release`. -/

/-- An empty free list is exhausted (40_pool.md R101). -/
theorem allocate_of_empty (h : e.freeHead = sentinel) : allocate c e = .ok none := by
  rw [allocate, if_pos h]

/-- A free list with a record gives its head, and the head's link is the next head (40_pool.md R101). -/
theorem allocate_of_inRange (hne : e.freeHead ≠ sentinel) (h : poolIxInRange c e.freeHead = true) :
    allocate c e = .ok (some (e.freeHead,
      { e with freeHead := (e.record c e.freeHead).next, freeCount := e.freeCount - 1#16 })) := by
  rw [allocate, if_neg hne, if_pos h]

/-- A release writes the link of its record. -/
theorem record_release_self (c : Config) (e : Engine) (i : PoolIx) :
    (release c e i).record c i = { e.record c i with next := e.freeHead } := by
  rw [record_release, if_pos rfl]

/-- A release leaves every other record. -/
theorem record_release_of_ne {i j : PoolIx} (h : j ≠ i) : (release c e i).record c j = e.record c j := by
  rw [record_release, if_neg h]

/-- The free list is a stack: a record that is released is allocated next, and the head and the count are then what they
were before the release. -/
theorem allocate_release {i : PoolIx} (hne : i ≠ sentinel) (h : poolIxInRange c i = true) :
    ∃ e', allocate c (release c e i) = .ok (some (i, e')) ∧ e'.freeHead = e.freeHead ∧ e'.freeCount = e.freeCount := by
  refine ⟨_, allocate_of_inRange (e := release c e i) hne h, ?_, ?_⟩
  · exact congrArg LockRecord.next (record_release_self c e i)
  · exact BitVec.add_sub_cancel e.freeCount 1#16

/-- Settles O22: the pop, the push, and the pop after a push. -/
theorem allocatePopsAndReleasePushes : Obligations.AllocatePopsAndReleasePushes :=
  ⟨fun _ _ => allocate_of_empty,
   fun _ _ hne hlt => allocate_of_inRange hne (poolIxInRange_eq_true hlt),
   fun c e i => ⟨release_eq c e i, record_release_self c e i, fun _ => record_release_of_ne⟩,
   fun _ _ _ hne hlt => allocate_release hne (poolIxInRange_eq_true hlt)⟩

end Sys2Proof.Pool
end

section
/-!
PROOFS. Parameters and the walks that only read (O9, O10, O11, O20): what each command on parameters and locks answers,
given the result of its walk, and the answers on a list and on a corrupt chain.
-/

namespace Sys2Proof.LockCommands

open Sys2Proof Sys2Proof.Machine Sys2Proof.Laws

variable {s : State} {c : Config} {e : Engine} {v : VoiceIx} {p q : PatternIx} {st : StepIx} {id : ParamId}
  {val : Byte} {l : List PoolIx} {status : Status} {n : Nat}

/-! The commands, one equation each. Ids below 27 are in use (10_state.md R30). -/

theorem paramInUse_eq_true (hid : id.toNat < 27) : paramInUse id = true := decide_eq_true hid

theorem exec_paramWr (hid : id.toNat < 27) :
    exec (.paramWr v id val) s = respond s (s.hw.setPar v id val) .ok 0#32 := if_pos (paramInUse_eq_true hid)

theorem exec_paramRd (hid : id.toNat < 27) :
    exec (.paramRd v id) s = respond s s.hw .ok ((s.hw.par v id).setWidth 32) := if_pos (paramInUse_eq_true hid)

theorem exec_resolve {fault : Bool} (hid : id.toNat < 27)
    (h : resolveParam s.cfg s.hw v id (some (p, st)) = (val, fault)) :
    exec (.resolve v p st id) s
      = respond s (raiseCycleIf fault s.hw) (walkStatus fault) (val.setWidth 32) := by
  change execResolve v p st id s = _
  rw [execResolve, if_pos (paramInUse_eq_true hid), h]

theorem exec_lockSt (hid : id.toNat < 27)
    (h : storeLock s.cfg s.hw v p (st.setWidth 8) (id.setWidth 8) val = .ok (status, e)) :
    exec (.lockSt v p st id val) s = respond s e status 0#32 := by
  change execLockSt v p st id val s = _
  rw [execLockSt, if_pos (paramInUse_eq_true hid), h]

theorem exec_lockClr (h : clearLocks s.cfg s.hw v p = (status, n, e)) :
    exec (.lockClr v p) s = respond s e status (BitVec.ofNat 32 n) := by
  change execLockClr v p s = _
  rw [execLockClr, h]

theorem exec_lockRms (h : removeLocksForStep s.cfg s.hw v p (st.setWidth 8) = (status, n, e)) :
    exec (.lockRms v p st) s = respond s e status (BitVec.ofNat 32 n) := by
  change execLockRms v p st s = _
  rw [execLockRms, h]

theorem exec_lockCpy (h : copyLocks s.cfg s.hw v p q = .ok (status, n, e)) :
    exec (.lockCpy v p q) s = respond s e status (BitVec.ofNat 32 n) := by
  change execLockCpy v p q s = _
  rw [execLockCpy, h]

theorem exec_lockHas {found fault : Bool} (h : hasAnyLockForStep s.cfg s.hw v p (st.setWidth 8) = (found, fault)) :
    exec (.lockHas v p st) s
      = respond s (raiseCycleIf fault s.hw) (walkStatus fault) (if found then 1#32 else 0#32) := by
  change execLockHas v p st s = _
  rw [execLockHas, h]

/-! Parameters, and walks over a list. -/

/-- Settles O9: the byte is written at its own place, and a read with no step context is the voice-level value. -/
theorem parameterWriteStoresOneByteAndReadAnswersIt : Obligations.ParameterWriteStoresOneByteAndReadAnswersIt := by
  intro s v id val hid
  refine ⟨⟨_, exec_paramWr hid, rfl, ?_, fun v' id' hne => ?_⟩, exec_paramRd hid⟩
  · rw [par_setPar, if_pos ⟨rfl, rfl⟩]
  · rw [par_setPar, if_neg hne]

/-- `RESOLVE` on a list. -/
theorem exec_resolve_of_list (hid : id.toNat < 27) (h : IsList s.cfg s.hw (s.hw.lockHead v p) l) :
    exec (.resolve v p st id) s
      = .next { s with
          response := some ⟨0#4,
            ((lockedValue s.cfg s.hw l (st.setWidth 8) (id.setWidth 8)).getD (s.hw.par v id)).setWidth 32⟩ } :=
  exec_resolve hid (resolveParam_list h)

/-- Settles O10. -/
theorem resolveAnswersTheLockOrTheDefault : Obligations.ResolveAnswersTheLockOrTheDefault :=
  fun _ _ _ _ _ _ => exec_resolve_of_list

/-- Settles O20: the walk's answer is whether some record of the list has the step. -/
theorem lockHasAnswersWhetherTheStepIsLocked : Obligations.LockHasAnswersWhetherTheStepIsLocked := by
  intro s v p st l hlist
  refine ⟨_, exec_lockHas (hasAnyLockForStep_list hlist), ?_, ?_⟩
  · split <;> decide
  · rw [ite_eq_left_iff, List.any_eq_true]
    simp

/-! Walks over a corrupt chain in which no record has the step. -/

theorem holdsKey_eq_false {st id : Byte} (h : ∀ i ∈ l, (e.record c i).step ≠ st) : holdsKey c e l st id = false := by
  rw [holdsKey, List.any_eq_false]
  intro i hi
  simp [h i hi]

theorem resolveParam_corrupt (h : CorruptAfter c e (e.lockHead v p) l)
    (hkey : holdsKey c e l (st.setWidth 8) (id.setWidth 8) = false) :
    resolveParam c e v id (some (p, st)) = (e.par v id, true) := by
  rw [resolveParam, findLock_corrupt h hkey]

theorem hasAnyLockForStep_corrupt {st : Byte} (h : CorruptAfter c e (e.lockHead v p) l)
    (hstep : ∀ i ∈ l, (e.record c i).step ≠ st) : hasAnyLockForStep c e v p st = (false, true) := by
  obtain ⟨stop, hpath, hstop, hcorrupt⟩ := h
  exact hasLockFrom_corrupt hpath hstop (hcorrupt.imp_right (Or.imp_right Eq.ge)) hstep

/-- Where no record that the walk meets has the step, `RemoveLocksForStep` walks as `HasAnyLockForStep` does: it ends in
the same way and writes no record (41_params_locks.md R118, R120). -/
theorem removeFrom_of_hasLockFrom {st : Byte} {fault : Bool} {fuel : Nat} {prev cur : PoolIx}
    (h : hasLockFrom c e st fuel cur = (false, fault)) :
    removeFrom c v p st fuel prev cur e n = (walkStatus fault, n, raiseCycleIf fault e) := by
  induction fuel generalizing prev cur with
  | zero =>
    obtain rfl : (cur != sentinel) = fault := congrArg Prod.snd h
    rw [removeFrom]
    by_cases hcur : cur = sentinel <;> simp [hcur, walkStatus, raiseCycleIf]
  | succ fuel ih =>
    rw [hasLockFrom] at h
    rw [removeFrom]
    by_cases hcur : cur = sentinel
    · rw [if_pos hcur] at h ⊢
      cases h
      rfl
    rw [if_neg hcur] at h ⊢
    by_cases hrange : poolIxInRange c cur = true
    · rw [if_pos hrange] at h ⊢
      by_cases hstep : (e.record c cur).step = st
      · rw [if_pos hstep] at h
        cases h
      rw [if_neg hstep] at h
      dsimp only
      by_cases hself : (e.record c cur).next = cur
      · rw [if_pos hself] at h ⊢
        cases h
        rfl
      · rw [if_neg hself] at h
        rw [if_neg hself, if_neg hstep]
        exact ih h
    · rw [if_neg hrange] at h ⊢
      cases h
      rfl

/-- Settles O11: each of the four walks ends at a guard, and nothing was written before. -/
theorem walkOverACorruptListOnlyRaisesCycle : Obligations.WalkOverACorruptListOnlyRaisesCycle := by
  intro s v p st id val l hid hcorrupt hstep
  have hkey : holdsKey s.cfg s.hw l (st.setWidth 8) (id.setWidth 8) = false := holdsKey_eq_false hstep
  have hhas := hasAnyLockForStep_corrupt hcorrupt hstep
  exact ⟨exec_resolve hid (resolveParam_corrupt hcorrupt hkey), exec_lockSt hid (storeLock_corrupt hcorrupt hkey),
    exec_lockRms (removeFrom_of_hasLockFrom hhas), exec_lockHas hhas⟩

end Sys2Proof.LockCommands
end

section
/-!
PROOFS. `LOCK_ST` (O12 to O15): in place, with a free record, on a full pool; and what every resolution gives after it.
-/

namespace Sys2Proof.LockStore

open Sys2Proof Sys2Proof.Machine Sys2Proof.Laws Sys2Proof.LockCommands

variable {s t : State} {c : Config} {e e' : Engine} {v : VoiceIx} {p : PatternIx} {st id val : Byte}
  {free l : List PoolIx} {own : VoiceIx → PatternIx → List PoolIx} {i : PoolIx}

/-! The step and the parameter of a lock are bytes; those that a command can name are in range, and keep apart. -/

theorem stepByte_lt (st : StepIx) : (st.setWidth 8).toNat < maxSteps := by
  rw [BitVec.toNat_setWidth, maxSteps]
  omega

theorem paramByte_lt {id : ParamId} (hid : id.toNat < 27) : (id.setWidth 8).toNat < nParams := by
  rw [BitVec.toNat_setWidth, nParams]
  omega

theorem stepByte_inj {st st' : StepIx} (h : st'.setWidth 8 = st.setWidth 8) : st' = st := by
  bv_omega

theorem paramByte_inj {id id' : ParamId} (h : id'.setWidth 8 = id.setWidth 8) : id' = id := by
  bv_omega

/-! The three ways a `StoreLock` on a sound pool ends, each told by what the pattern and the free list hold. -/

theorem holdsKey_of_mem (hi : i ∈ l) (hstep : (e.record c i).step = st) (hparam : (e.record c i).param = id) :
    holdsKey c e l st id = true :=
  List.any_eq_true.2 ⟨i, hi, by simp [hstep, hparam]⟩

/-- A lock that the pattern has is found, since keys are unique (10_state.md R49 item 3). -/
theorem storeLock_inPlace (h : PoolOwned c e free own) (hi : i ∈ own v p) (hstep : (e.record c i).step = st)
    (hparam : (e.record c i).param = id) :
    storeLock c e v p st id val = .ok (.ok, e.setRecord c i { e.record c i with value := val }) := by
  obtain ⟨j, hj, hfind, hstep', hparam'⟩ := find_of_holdsKey (holdsKey_of_mem hi hstep hparam)
  obtain rfl : j = i := h.keys v p j hj i hi (hstep'.trans hstep.symm) (hparam'.trans hparam.symm)
  exact storeLock_found (h.lists v p) hfind

/-- A lock that the pattern lacks takes the first free record. -/
theorem storeLock_push (h : PoolOwned c e (i :: free) own) (hkey : holdsKey c e (own v p) st id = false) :
    storeLock c e v p st id val = .ok (.ok, pushed c e v p i st id val) := by
  obtain ⟨hne, hrange⟩ := owned_mem_free h List.mem_cons_self
  obtain rfl : e.freeHead = i := owned_freeHead_cons h
  exact storeLock_fresh (h.lists v p) hkey hne hrange

/-- Settles O12: the value of a record is no part of the ownership. -/
theorem lockStoreUpdatesInPlace : Obligations.LockStoreUpdatesInPlace := by
  intro s v p st id val free own i hid hown hi hstep hparam
  refine ⟨_, exec_lockSt hid (storeLock_inPlace hown hi hstep hparam), rfl, ?_, fun j hj => ?_,
    owned_setValue hown i val⟩
  · rw [record_setRecord, if_pos rfl]
  · rw [record_setRecord, if_neg hj]

/-- Settles O13: the head of the free list becomes the head of the pattern's list. -/
theorem lockStorePushesAFreeRecord : Obligations.LockStorePushesAFreeRecord := by
  intro s v p st id val i free own hid hown hkey
  refine ⟨_, exec_lockSt hid (storeLock_push hown hkey), rfl, ?_, fun j hj => ?_,
    owned_push hown hkey (stepByte_lt st) (paramByte_lt hid)⟩
  · rw [record_pushed, if_pos rfl]
  · rw [record_pushed, if_neg hj]

/-- Settles O14. -/
theorem lockStoreOnAFullPoolDropsTheLock : Obligations.LockStoreOnAFullPoolDropsTheLock :=
  fun _ _ _ _ _ _ _ hid hlist hkey hfull => exec_lockSt hid (storeLock_exhausted hlist hkey hfull)

/-! What a lock list holds for each key after a `StoreLock`. -/

/-- The lock for a key depends on the keys of the records and on the values of those that have the key. -/
theorem lockedValue_congr_of_key
    (h : ∀ i ∈ l, (e'.record c i).step = (e.record c i).step ∧ (e'.record c i).param = (e.record c i).param
      ∧ ((e.record c i).step = st → (e.record c i).param = id → (e'.record c i).value = (e.record c i).value)) :
    lockedValue c e' l st id = lockedValue c e l st id := by
  induction l with
  | nil => rfl
  | cons i l ih =>
    obtain ⟨hstep, hparam, hvalue⟩ := h i List.mem_cons_self
    by_cases hhit : (e.record c i).step = st ∧ (e.record c i).param = id
    · rw [lockedValue_cons_hit hhit, lockedValue_cons_hit ⟨hstep.trans hhit.1, hparam.trans hhit.2⟩,
        hvalue hhit.1 hhit.2]
    · rw [lockedValue_cons_miss hhit, lockedValue_cons_miss (by rwa [hstep, hparam])]
      exact ih fun j hj => h j (List.mem_cons_of_mem i hj)

/-- On a list with unique keys the lock for a key is the one record that has it. -/
theorem lockedValue_of_mem (hkeys : KeysUnique c e l) (hi : i ∈ l) (hstep : (e.record c i).step = st)
    (hparam : (e.record c i).param = id) : lockedValue c e l st id = some (e.record c i).value := by
  obtain ⟨j, hj, hfind, hstep', hparam'⟩ := find_of_holdsKey (holdsKey_of_mem hi hstep hparam)
  obtain rfl : j = i := hkeys j hj i hi (hstep'.trans hstep.symm) (hparam'.trans hparam.symm)
  rw [lockedValue, hfind]
  rfl

/-- In `e'`, with the lists `own'`, the pattern's lock for one key has the value `val`; every other lock of every pattern
is what it is in `e` with the lists `own`, and so are the voice-level values. -/
structure StoresLock (c : Config) (e e' : Engine) (own own' : VoiceIx → PatternIx → List PoolIx) (v : VoiceIx)
    (p : PatternIx) (st id val : Byte) : Prop where
  stored : lockedValue c e' (own' v p) st id = some val
  others : ∀ v' p' st' id', ¬(v' = v ∧ p' = p ∧ st' = st ∧ id' = id) →
    lockedValue c e' (own' v' p') st' id' = lockedValue c e (own v' p') st' id'
  defaults : e'.parMem = e.parMem

/-- A value written in place is read under the record's own key and pattern alone. -/
theorem storesLock_setValue (h : PoolOwned c e free own) (hi : i ∈ own v p) (hstep : (e.record c i).step = st)
    (hparam : (e.record c i).param = id) :
    StoresLock c e (e.setRecord c i { e.record c i with value := val }) own own v p st id val where
  stored := by
    have hrec : (e.setRecord c i { e.record c i with value := val }).record c i
        = { e.record c i with value := val } := by rw [record_setRecord, if_pos rfl]
    have hkeys := (owned_setValue h i val).keys v p
    rw [lockedValue_of_mem hkeys hi (by rw [hrec]; exact hstep) (by rw [hrec]; exact hparam), hrec]
  others v' p' st' id' hother := by
    refine lockedValue_congr_of_key fun j hj => ?_
    rw [record_setRecord]
    split
    · rename_i hji
      subst hji
      refine ⟨rfl, rfl, fun hstep' hparam' => ?_⟩
      obtain ⟨hv, hp⟩ := h.single v' p' v p j hj hi
      exact absurd ⟨hv, hp, hstep'.symm.trans hstep, hparam'.symm.trans hparam⟩ hother
    · exact ⟨rfl, rfl, fun _ _ => rfl⟩
  defaults := rfl

/-- A record pushed on a list is read first there, and is on no other list. -/
theorem storesLock_pushed (h : PoolOwned c e (i :: free) own) :
    StoresLock c e (pushed c e v p i st id val) own (setList own v p (i :: own v p)) v p st id val where
  stored := by
    have hrec : (pushed c e v p i st id val).record c i = ⟨id, st, val, e.lockHead v p⟩ := by
      rw [record_pushed, if_pos rfl]
    rw [setList_same, lockedValue_cons_hit (by rw [hrec]; exact ⟨rfl, rfl⟩), hrec]
  others v' p' st' id' hother := by
    have hold : lockedValue c (pushed c e v p i st id val) (own v' p') st' id'
        = lockedValue c e (own v' p') st' id' := by
      refine lockedValue_congr fun j hj => ?_
      rw [record_pushed, if_neg]
      rintro rfl
      exact h.apart v' p' j hj List.mem_cons_self
    by_cases hvp : v' = v ∧ p' = p
    · obtain ⟨rfl, rfl⟩ := hvp
      rw [setList_same, lockedValue_cons_miss, hold]
      rw [record_pushed, if_pos rfl]
      exact fun hkey => hother ⟨rfl, rfl, hkey.1.symm, hkey.2.symm⟩
    · rw [setList_other hvp, hold]
  defaults := rfl

/-- A `StoreLock` on a sound pool that ends with OK. -/
theorem storesLock_of_storeLock_ok (h : PoolOwned c e free own) (hst : st.toNat < maxSteps) (hid : id.toNat < nParams)
    (hok : storeLock c e v p st id val = .ok (.ok, e')) :
    ∃ free' own', PoolOwned c e' free' own' ∧ StoresLock c e e' own own' v p st id val := by
  rcases storeLock_owned (v := v) (p := p) (val := val) h hst hid with
    ⟨i, hi, hstep, hparam, heq, hown⟩ | ⟨_, _, heq⟩ | ⟨i, rest, _, rfl, heq, hown⟩ <;>
    rw [hok] at heq <;> cases heq
  · exact ⟨_, _, hown, storesLock_setValue h hi hstep hparam⟩
  · exact ⟨_, _, hown, storesLock_pushed h⟩

/-- A `LOCK_ST` that answered OK is a `StoreLock` that ended with OK. -/
theorem storeLock_of_exec_ok {st : StepIx} {id : ParamId} (hid : id.toNat < 27)
    (hexec : exec (.lockSt v p st id val) s = .next t) (hok : t.response = some ⟨0#4, 0#32⟩) :
    t.cfg = s.cfg ∧ storeLock s.cfg s.hw v p (st.setWidth 8) (id.setWidth 8) val = .ok (.ok, t.hw) := by
  change execLockSt v p st id val s = _ at hexec
  rw [execLockSt, if_pos (paramInUse_eq_true hid)] at hexec
  split at hexec
  · rename_i status e hstore
    cases hexec
    obtain ⟨hcode, _⟩ := Response.mk.inj (Option.some.inj hok)
    obtain rfl : status = .ok := statusCode_inj hcode
    exact ⟨rfl, hstore⟩
  · cases hexec

/-- Settles O15: each resolution is read off the list of its pattern, before and after. -/
theorem storedLockIsResolvedAndNoOtherChanges : Obligations.StoredLockIsResolvedAndNoOtherChanges := by
  intro s t v p st id val hid ⟨free, own, hown⟩ hexec hok
  obtain ⟨hcfg, hstore⟩ := storeLock_of_exec_ok hid hexec hok
  obtain ⟨free', own', hown', hstores⟩ := storesLock_of_storeLock_ok hown (stepByte_lt st) (paramByte_lt hid) hstore
  have hpar (v' : VoiceIx) (id' : ParamId) : t.hw.par v' id' = s.hw.par v' id' := by
    rw [Engine.par, hstores.defaults, Engine.par]
  rw [← hcfg] at hown'
  refine ⟨?_, fun v' p' st' id' hother => ?_, fun v' id' => ?_⟩
  · rw [exec_resolve_of_list hid (hown'.lists v p), hcfg, hstores.stored]
    rfl
  · rw [resolveParam_list (hown'.lists v' p'), resolveParam_list (hown.lists v' p'), hcfg, hpar, hstores.others]
    rintro ⟨hv, hp, hst, hid'⟩
    exact hother ⟨hv, hp, stepByte_inj hst, paramByte_inj hid'⟩
  · exact congrArg (·, false) (hpar v' id')

end Sys2Proof.LockStore
end

section
/-!
PROOFS. The walks that write (O16 to O19, O30): `LOCK_CLR`, `LOCK_RMS` and `LOCK_CPY` on a sound pool and on a corrupt
chain.
-/

namespace Sys2Proof.LockWalks

open Sys2Proof Sys2Proof.Machine Sys2Proof.Laws Sys2Proof.LockCommands

variable {c : Config} {e e' : Engine} {v : VoiceIx} {p q : PatternIx} {l : List PoolIx}

/-! On a sound pool. -/

/-- Settles O17. -/
theorem lockClearFreesTheWholeList : Obligations.LockClearFreesTheWholeList := by
  intro s v p free own hown
  obtain ⟨e, hclear, hown', hsame, hframe⟩ := clearLocks_owned (v := v) (p := p) hown
  exact ⟨e, exec_lockClr hclear, hframe, hsame, hown'⟩

/-- Settles O18. -/
theorem lockRemovalFreesExactlyTheStep : Obligations.LockRemovalFreesExactlyTheStep := by
  intro s v p st free own hown
  obtain ⟨e, hremove, hown', hsame, hframe⟩ := removeLocksForStep_owned (v := v) (p := p) (st := st.setWidth 8) hown
  rw [List.countP_eq_length_filter] at hremove
  exact ⟨e, exec_lockRms hremove, hframe, hsame, hown'⟩

theorem statusCode_okOrExhausted (b : Prop) [Decidable b] :
    statusCode (if b then .ok else .exhausted) = if b then 0#4 else 3#4 := apply_ite statusCode ..

/-- Settles O19: between two patterns, and from a pattern to itself. -/
theorem lockCopyReplaysEveryLock : Obligations.LockCopyReplaysEveryLock := by
  refine ⟨?_, ?_⟩
  · rintro s v p q free own _ hpq hown rfl
    obtain ⟨e, hcopy, hown', hnew, hold, hrest, hframe⟩ := copyLocks_owned (v := v) hown hpq
    refine ⟨e, ?_, hframe, hown', hnew, hold, hrest⟩
    rw [exec_lockCpy hcopy, respond_eq, statusCode_okOrExhausted]
  · rintro s v p ⟨free, own, hown⟩
    obtain ⟨e, hcopy, _, hrecords, hframe⟩ := copyLocks_self (v := v) (p := p) hown
    exact ⟨e, exec_lockCpy hcopy, hframe, hrecords⟩

/-! `LOCK_CLR` from any state, and on a corrupt chain. -/

/-- The walk of `ClearLocks` writes no lock head. -/
theorem clearFrom_lockHeadMem (fuel : Nat) (cur : PoolIx) (e : Engine) (n : Nat) :
    (clearFrom c fuel cur e n).2.2.lockHeadMem = e.lockHeadMem := by
  induction fuel generalizing cur e n with
  | zero =>
    rw [clearFrom]
    split <;> rfl
  | succ fuel ih =>
    rw [clearFrom]
    split
    · rfl
    split
    · dsimp only
      split
      · rfl
      · exact ih _ _ _
    · rfl

/-- `ClearLocks` writes one lock head, whatever the walk does. -/
theorem lockHead_clearLocks (v' : VoiceIx) (p' : PatternIx) :
    (clearLocks c e v p).2.2.lockHead v' p' = if v' = v ∧ p' = p then sentinel else e.lockHead v' p' := by
  rw [clearLocks, lockHead_setLockHead]
  simp only [Engine.lockHead, clearFrom_lockHeadMem]

/-- A chain of distinct records has at most `POOL_C` of them. -/
theorem path_length_le {head stop : PoolIx} (h : LockPath c e head l stop) (hnodup : l.Nodup) : l.length ≤ c.poolC :=
  length_le_poolC hnodup fun _ hi => (path_mem h hi).2

/-- A path depends on the records alone. -/
theorem path_of_poolMem_eq {head stop : PoolIx} (hpath : LockPath c e head l stop) (h : e'.poolMem = e.poolMem) :
    LockPath c e' head l stop :=
  (path_congr fun i _ => by rw [Engine.record, h, Engine.record]).2 hpath

/-- Settles O16: the head is written after the walk, however it ends. -/
theorem lockClearAlwaysEmptiesThePattern : Obligations.LockClearAlwaysEmptiesThePattern := by
  refine ⟨fun s v p => ⟨_, exec_lockClr rfl, ?_, fun v' p' hother => ?_⟩, ?_⟩
  · exact (lockHead_clearLocks v p).trans (if_pos ⟨rfl, rfl⟩)
  · exact (lockHead_clearLocks v' p').trans (if_neg hother)
  · rintro s v p l ⟨stop, hpath, hstop, hcorrupt⟩ hnodup
    obtain ⟨e, hclear, hframe, hfree, hsame, hrest⟩ :=
      clearFrom_corrupt (n := 0) hpath hnodup hstop (path_length_le hpath hnodup) hcorrupt
    rw [Nat.zero_add] at hclear
    have hlocks : clearLocks s.cfg s.hw v p
        = (.cycle, l.length, (raiseDiag diagListCycle e).setLockHead v p sentinel) := by rw [clearLocks, hclear]
    refine ⟨_, exec_lockClr hlocks, ?_, path_of_poolMem_eq hfree rfl, hsame, hrest⟩
    rw [hframe]
    rfl

/-! `LOCK_RMS` and `LOCK_CPY` up to a corrupt link. -/

/-- The first record of a list hangs on the head. -/
theorem linkOf_sentinel : linkOf c e v p sentinel = e.lockHead v p := if_pos rfl

/-- A walk of `CopyLocks` that stands at an index that names nothing, or that has used up its records. -/
theorem copyFrom_corrupt {fuel : Nat} {stop : PoolIx} {dropped : Nat} {acc : Status} (hstop : stop ≠ sentinel)
    (h : poolIxInRange c stop = false ∨ fuel = 0) :
    copyFrom c v q fuel stop e dropped acc = .ok (.cycle, dropped, raiseDiag diagListCycle e) := by
  cases fuel with
  | zero => rw [copyFrom, if_neg hstop]
  | succ fuel =>
    have hrange : poolIxInRange c stop = false := h.resolve_right (Nat.succ_ne_zero fuel)
    rw [copyFrom, if_neg hstop, if_neg (Bool.eq_false_iff.1 hrange)]

/-- `CopyLocks` that replays `l` and then stands at a corrupt link of the source. -/
theorem copyLocks_sourceCorrupt {dropped : Nat} {stop : PoolIx} (h : Replays c v q e (e.lockHead v p) l dropped e' stop)
    (hlen : l.length ≤ c.poolC) (hstop : stop ≠ sentinel)
    (hcorrupt : poolIxInRange c stop = false ∨ l.getLast? = some stop ∨ l.length = c.poolC) :
    copyLocks c e v p q = .ok (.cycle, dropped, raiseDiag diagListCycle e') := by
  have hwalk := copyFrom_replays (n := 0) (acc := .ok) h hlen
  rw [Nat.zero_add] at hwalk
  by_cases hlast : l.getLast? = some stop
  · rw [if_pos hlast] at hwalk
    exact hwalk
  · rw [if_neg hlast] at hwalk
    obtain ⟨acc, hwalk⟩ := hwalk
    refine hwalk.trans (copyFrom_corrupt hstop (hcorrupt.imp_right fun hend => ?_))
    exact Nat.sub_eq_zero_of_le (hend.resolve_left hlast).ge

/-- A `StoreLock` that ends with CYCLE has raised LIST_CYCLE and written nothing else. -/
theorem eq_raiseDiag_of_storeLock_cycle {st id val : Byte} (h : storeLock c e v p st id val = .ok (.cycle, e')) :
    e' = raiseDiag diagListCycle e := by
  rw [storeLock] at h
  split at h
  · cases h
    rfl
  · cases h
  · split at h <;> cases h

/-- `CopyLocks` that replays `l` and then finds the destination corrupt. -/
theorem copyLocks_destinationCorrupt {dropped : Nat} {stop : PoolIx} {e1 : Engine}
    (h : Replays c v q e (e.lockHead v p) l dropped e1 stop) (hlen : l.length < c.poolC) (hstop : stop ≠ sentinel)
    (hrange : poolIxInRange c stop = true) (hlast : l.getLast? ≠ some stop)
    (hstore : storeLock c e1 v q (e1.record c stop).step (e1.record c stop).param (e1.record c stop).value
      = .ok (.cycle, e')) :
    copyLocks c e v p q = .ok (.cycle, dropped, e') := by
  have hwalk := copyFrom_replays (n := 0) (acc := .ok) h hlen.le
  rw [if_neg hlast, Nat.zero_add] at hwalk
  obtain ⟨acc, hwalk⟩ := hwalk
  obtain ⟨fuel, hfuel⟩ : ∃ fuel, c.poolC - l.length = fuel + 1 := Nat.exists_eq_add_one.2 (Nat.sub_pos_of_lt hlen)
  rw [hfuel, copyFrom, if_neg hstop, if_pos hrange] at hwalk
  dsimp only at hwalk
  rw [hstore] at hwalk
  exact hwalk

/-- Settles O30: the walk of `LOCK_RMS` starts on the head, and `LOCK_CPY` ends in one of its two corrupt ways. -/
theorem lockRemovalAndCopyStopAtACorruptLink : Obligations.LockRemovalAndCopyStopAtACorruptLink := by
  refine ⟨?_, fun s v p q l dropped e stop hreplay hlen hstop hcorrupt => ?_,
    fun s v p q l dropped e e' stop hreplay hlen hstop hrange hlast hstore => ?_⟩
  · rintro s v p st l _ _ _ stop ⟨hpath, hstop, hcorrupt⟩ hnodup rfl rfl rfl
    have hhead : sentinel ∉ l := fun hmem => (path_mem hpath hmem).1 rfl
    obtain ⟨e, _, _, rfl, rfl, hremove, hframe, hheads, hkept, hfree, hsame, hrest⟩ :=
      removeFrom_corrupt (st := st.setWidth 8) (n := 0) hpath hnodup hstop (path_length_le hpath hnodup) hcorrupt hhead
        linkOf_sentinel
    rw [Nat.zero_add] at hremove
    rw [linkOf_sentinel] at hkept
    refine ⟨_, exec_lockRms hremove, ?_, fun v' p' hother => ?_, path_of_poolMem_eq hkept rfl,
      path_of_poolMem_eq hfree rfl, hsame, fun i hi => hrest i hi (.inr rfl)⟩
    · rw [hframe]
      rfl
    · exact hheads v' p' fun ⟨hv, hp, _⟩ => hother ⟨hv, hp⟩
  · exact exec_lockCpy (copyLocks_sourceCorrupt hreplay hlen hstop hcorrupt)
  · exact ⟨eq_raiseDiag_of_storeLock_cycle hstore,
      exec_lockCpy (copyLocks_destinationCorrupt hreplay hlen hstop hrange hlast hstore)⟩

end Sys2Proof.LockWalks
end

section
/-!
PROOFS. The pattern store (O23 to O27): what each command answers, then the loops of `PAT_DBL` and `PAT_CPY` as one loop
that moves a run of slots, note and key, to another place.
-/

namespace Sys2Proof.Patterns

open Sys2Proof Sys2Proof.Machine Sys2Proof.Laws

variable {s : State} {e : Engine} {v : VoiceIx} {p q : PatternIx} {st : StepIx} {val : Byte} {off n : Nat}

/-! The commands on one element (42_patterns.md R127 to R131). -/

theorem exec_noteSet :
    exec (.noteSet v p st val) s
      = respond s (setNote s.hw v p st val) .ok (((setNote s.hw v p st val).noteCount v p).setWidth 32) := rfl

theorem exec_keySet : exec (.keySet v p st val) s = respond s (s.hw.setKey v p st val) .ok 0#32 := rfl

theorem exec_plenSet (h : lengthInRange val = true) :
    exec (.plenSet v p val) s = respond s (s.hw.setLength v p (val.setWidth 7)) .ok 0#32 := if_pos h

theorem exec_prateSet : exec (.prateSet v p val) s = respond s (s.hw.setRate v p val) .ok 0#32 := rfl

theorem exec_noteGet :
    exec (.noteGet v p st) s = respond s s.hw .ok (0#16 ++ s.hw.key v p st ++ s.hw.note v p st) := rfl

theorem exec_patInfo_counts :
    exec (.patInfo v p 0#1) s
      = respond s s.hw .ok (0#8 ++ s.hw.rate v p ++ 0#1 ++ s.hw.noteCount v p ++ 0#1 ++ s.hw.length v p) := rfl

theorem exec_patInfo_head :
    exec (.patInfo v p 1#1) s = respond s s.hw .ok (0#16 ++ s.hw.lockHead v p) := rfl

theorem noteCount_setNote_of_ne {v' : VoiceIx} {p' : PatternIx} (h : ¬(v' = v ∧ p' = p)) :
    (setNote e v p st val).noteCount v' p' = e.noteCount v' p' := by
  rw [noteCount_setNote, if_neg h]

/-- Where all counts are right, `setNote` moves the count by the difference of the active bits. -/
theorem noteCount_setNote_add_active (h : NoteCountsRight e) :
    ((setNote e v p st val).noteCount v p).toNat + ((e.note v p st).getLsbD 7).toNat
      = (e.noteCount v p).toNat + (val.getLsbD 7).toNat := by
  rw [noteCountsRight_setNote h v p st val v p, h v p, activeSteps_setNote]

/-- Settles O23: the count is the number of active steps before and after. -/
theorem noteWriteKeepsTheCount : Obligations.NoteWriteKeepsTheCount := fun s v p st val =>
  ⟨setNote s.hw v p st val, exec_noteSet, setNote_eq .., fun v' p' st' => note_setNote s.hw v v' p p' st st' val,
    fun _ _ => noteCount_setNote_of_ne,
    fun h => ⟨noteCountsRight_setNote h v p st val, noteCount_setNote_add_active h⟩⟩

/-- Settles O24: a length of 1 to 64 is in range and loses nothing at width 7. -/
theorem patternWritesStoreOneElement : Obligations.PatternWritesStoreOneElement := by
  refine ⟨fun s v p st val => ?_, fun s v p val hpos hle => ?_, fun s v p val => ?_⟩
  · exact ⟨_, exec_keySet, rfl, fun v' p' st' => key_setKey s.hw v v' p p' st st' val⟩
  · have hrange : lengthInRange val = true := (Invariant.lengthInRange_iff val).2 ⟨hpos, hle⟩
    refine ⟨_, exec_plenSet hrange, rfl, ?_, fun v' p' hne => ?_⟩
    · rw [length_setLength, if_pos ⟨rfl, rfl⟩, BitVec.toNat_setWidth]
      omega
    · rw [length_setLength, if_neg hne]
  · exact ⟨_, exec_prateSet, rfl, fun v' p' => rate_setRate s.hw v v' p p' val⟩

theorem toNat_noteWord (key note : Byte) : (0#16 ++ key ++ note).toNat = key.toNat * 256 + note.toNat := by
  simp only [Pool.toNat_append_eq_mul_add, BitVec.toNat_ofNat]
  omega

theorem toNat_countsWord (rate : Byte) (count length : BitVec 7) :
    (0#8 ++ rate ++ 0#1 ++ count ++ 0#1 ++ length).toNat
      = rate.toNat * 65536 + count.toNat * 256 + length.toNat := by
  simp only [Pool.toNat_append_eq_mul_add, BitVec.toNat_ofNat]
  omega

theorem toNat_headWord (head : PoolIx) : (0#16 ++ head).toNat = head.toNat := by
  simp only [Pool.toNat_append_eq_mul_add, BitVec.toNat_ofNat]
  omega

/-- Settles O25: the answers are packed fields. -/
theorem patternReadsAnswerTheElements : Obligations.PatternReadsAnswerTheElements :=
  ⟨fun _ _ _ _ => ⟨_, exec_noteGet, toNat_noteWord _ _⟩,
    fun _ _ _ => ⟨_, _, exec_patInfo_counts, exec_patInfo_head, toNat_countsWord _ _ _, toNat_headWord _⟩⟩

/-! The loop of `PAT_DBL` and of `PAT_CPY`: slots 0 to n - 1 of one pattern go to the slots from `off` on of another, or of
the same one. -/

/-- What a slot holds: its note and its key. -/
def slot (e : Engine) (v : VoiceIx) (p : PatternIx) (st : StepIx) : Byte × Byte := (e.note v p st, e.key v p st)

theorem slot_eq_iff {e e' : Engine} {v v' : VoiceIx} {p p' : PatternIx} {st st' : StepIx} :
    slot e v p st = slot e' v' p' st' ↔ e.note v p st = e'.note v' p' st' ∧ e.key v p st = e'.key v' p' st' :=
  Prod.mk_inj

theorem slot_setLength (v' : VoiceIx) (p' : PatternIx) (len : BitVec 7) :
    slot (e.setLength v' p' len) v p st = slot e v p st := rfl

theorem slot_setRate (v' : VoiceIx) (p' : PatternIx) (rate : Byte) :
    slot (e.setRate v' p' rate) v p st = slot e v p st := rfl

theorem noteCount_setLength (v' : VoiceIx) (p' : PatternIx) (len : BitVec 7) :
    (e.setLength v' p' len).noteCount v p = e.noteCount v p := rfl

theorem noteCount_setRate (v' : VoiceIx) (p' : PatternIx) (rate : Byte) :
    (e.setRate v' p' rate).noteCount v p = e.noteCount v p := rfl

theorem length_setRate (v' : VoiceIx) (p' : PatternIx) (rate : Byte) :
    (e.setRate v' p' rate).length v p = e.length v p := rfl

theorem rate_setLength (v' : VoiceIx) (p' : PatternIx) (len : BitVec 7) :
    (e.setLength v' p' len).rate v p = e.rate v p := rfl

theorem noteCountsRight_setLength (h : NoteCountsRight e) (len : BitVec 7) :
    NoteCountsRight (e.setLength v p len) := h

theorem noteCountsRight_setRate (h : NoteCountsRight e) (rate : Byte) : NoteCountsRight (e.setRate v p rate) := h

/-- Slot i of pattern p, note and key, goes to slot `off + i` of pattern q. -/
def moveSlot (v : VoiceIx) (p q : PatternIx) (off : Nat) (e : Engine) (i : Nat) : Engine :=
  (setNote e v q (BitVec.ofNat 6 (off + i)) (e.note v p (BitVec.ofNat 6 i))).setKey v q (BitVec.ofNat 6 (off + i))
    (e.key v p (BitVec.ofNat 6 i))

/-- Slots 0 to n - 1 of pattern p go to slots `off` to `off + n - 1` of pattern q, in this order. -/
def moveSlots (v : VoiceIx) (p q : PatternIx) (off n : Nat) (e : Engine) : Engine :=
  (List.range n).foldl (moveSlot v p q off) e

theorem moveSlots_succ : moveSlots v p q off (n + 1) e = moveSlot v p q off (moveSlots v p q off n e) n := by
  rw [moveSlots, List.range_succ, List.foldl_append]
  rfl

/-- `PAT_DBL`'s loop moves slots within one pattern, by its length. -/
theorem doubleSlot_eq (v : VoiceIx) (p : PatternIx) (len : Nat) : doubleSlot v p len = moveSlot v p p len := rfl

/-- `PAT_CPY`'s loop moves slots to their own numbers in another pattern. -/
theorem copySlot_eq (v : VoiceIx) (p q : PatternIx) : copySlot v p q = moveSlot v p q 0 := by
  funext e i
  rw [moveSlot, Nat.zero_add]
  rfl

theorem slot_moveSlot (i : Nat) (v' : VoiceIx) (p' : PatternIx) (st : StepIx) :
    slot (moveSlot v p q off e i) v' p' st
      = if v' = v ∧ p' = q ∧ st = BitVec.ofNat 6 (off + i) then slot e v p (BitVec.ofNat 6 i) else slot e v' p' st := by
  have hnote := note_setNote e v v' q p' (BitVec.ofNat 6 (off + i)) st (e.note v p (BitVec.ofNat 6 i))
  have hkey := key_setKey e v v' q p' (BitVec.ofNat 6 (off + i)) st (e.key v p (BitVec.ofNat 6 i))
  have hslot : slot (moveSlot v p q off e i) v' p' st = (_, _) := congrArg₂ Prod.mk hnote hkey
  rw [hslot]
  split <;> rfl

/-- Moving slots writes notes, keys and note counts alone. -/
theorem exists_moveSlots_eq :
    ∃ notes keys counts,
      moveSlots v p q off n e = { e with noteMem := notes, keyMem := keys, noteCountMem := counts } := by
  induction n with
  | zero => exact ⟨_, _, _, rfl⟩
  | succ n ih =>
    obtain ⟨notes, keys, counts, hmoved⟩ := ih
    rw [moveSlots_succ, hmoved]
    exact ⟨_, _, _, rfl⟩

/-- Each slot of the destination run holds what its source held, and every other slot what it held, provided that no
source is overwritten before it is read. -/
theorem slot_moveSlots (hoff : off + n ≤ 64) (hapart : p ≠ q ∨ n ≤ off) (v' : VoiceIx) (p' : PatternIx) (st : StepIx) :
    slot (moveSlots v p q off n e) v' p' st
      = if v' = v ∧ p' = q ∧ off ≤ st.toNat ∧ st.toNat < off + n then slot e v p (st - BitVec.ofNat 6 off)
        else slot e v' p' st := by
  induction n generalizing v' p' st with
  | zero =>
    rw [if_neg fun ⟨_, _, hlow, hhigh⟩ => absurd hlow (Nat.not_le.2 hhigh)]
    rfl
  | succ n ih =>
    replace ih := ih (by omega) (hapart.imp_right fun h => by omega)
    have hsource : slot (moveSlots v p q off n e) v p (BitVec.ofNat 6 n) = slot e v p (BitVec.ofNat 6 n) := by
      rw [ih, if_neg]
      rintro ⟨-, hpq, hlow, -⟩
      rw [BitVec.toNat_ofNat] at hlow
      have hrun := hapart.resolve_left (not_not.2 hpq)
      omega
    rw [moveSlots_succ, slot_moveSlot, hsource, ih]
    by_cases hlast : st = BitVec.ofNat 6 (off + n)
    · have hnum : st.toNat = off + n := by
        rw [hlast, BitVec.toNat_ofNat]
        omega
      have hback : st - BitVec.ofNat 6 off = BitVec.ofNat 6 n := by
        rw [hlast, BitVec.ofNat_add, BitVec.add_comm, BitVec.add_sub_cancel]
      simp [← hlast, hnum, hback]
    · have hnum : st.toNat ≠ off + n := fun h => hlast (by rw [← h, BitVec.ofNat_toNat, BitVec.setWidth_eq])
      have hrun : st.toNat < off + (n + 1) ↔ st.toNat < off + n := by omega
      simp [hlast, hrun]

theorem noteCount_moveSlots_of_ne {v' : VoiceIx} {p' : PatternIx} (h : ¬(v' = v ∧ p' = q)) :
    (moveSlots v p q off n e).noteCount v' p' = e.noteCount v' p' := by
  induction n with
  | zero => rfl
  | succ n ih =>
    rw [moveSlots_succ]
    exact (noteCount_setNote_of_ne h).trans ih

theorem noteCountsRight_moveSlots (h : NoteCountsRight e) : NoteCountsRight (moveSlots v p q off n e) := by
  induction n with
  | zero => exact h
  | succ n ih =>
    rw [moveSlots_succ]
    exact Invariant.noteCountsRight_congr (noteCountsRight_setNote ih v q _ _) rfl

theorem length_moveSlots (v' : VoiceIx) (p' : PatternIx) :
    (moveSlots v p q off n e).length v' p' = e.length v' p' := by
  obtain ⟨_, _, _, hmoved⟩ := exists_moveSlots_eq (v := v) (p := p) (q := q) (off := off) (n := n) (e := e)
  rw [hmoved]
  rfl

theorem rate_moveSlots (v' : VoiceIx) (p' : PatternIx) : (moveSlots v p q off n e).rate v' p' = e.rate v' p' := by
  obtain ⟨_, _, _, hmoved⟩ := exists_moveSlots_eq (v := v) (p := p) (q := q) (off := off) (n := n) (e := e)
  rw [hmoved]
  rfl

/-! `PAT_DBL` (42_patterns.md R132). -/

theorem exec_patDbl :
    exec (.patDbl v p) s
      = respond s (doublePattern s.hw v p) .ok (((doublePattern s.hw v p).length v p).setWidth 32) := rfl

theorem doublePattern_of_lt (h : 32 < (e.length v p).toNat) : doublePattern e v p = e :=
  if_neg (Nat.not_le.2 h)

section doubled

variable (hn : n = (e.length v p).toNat) (hle : n ≤ 32)

include hn hle

theorem doublePattern_of_le :
    doublePattern e v p = (moveSlots v p p n n e).setLength v p (BitVec.ofNat 7 (2 * n)) := by
  subst hn
  rw [doublePattern, if_pos hle, doubleSlot_eq]
  rfl

theorem doublePattern_eq :
    doublePattern e v p = { e with
      noteMem := (doublePattern e v p).noteMem, keyMem := (doublePattern e v p).keyMem,
      lengthMem := (doublePattern e v p).lengthMem, noteCountMem := (doublePattern e v p).noteCountMem } := by
  obtain ⟨_, _, _, hmoved⟩ := exists_moveSlots_eq (v := v) (p := p) (q := p) (off := n) (n := n) (e := e)
  rw [doublePattern_of_le hn hle, hmoved]
  rfl

theorem length_doublePattern (v' : VoiceIx) (p' : PatternIx) :
    (doublePattern e v p).length v' p' = if v' = v ∧ p' = p then BitVec.ofNat 7 (2 * n) else e.length v' p' := by
  rw [doublePattern_of_le hn hle, length_setLength, length_moveSlots]

/-- The second half becomes the first one, and every other slot stays. -/
theorem slot_doublePattern (v' : VoiceIx) (p' : PatternIx) (st : StepIx) :
    slot (doublePattern e v p) v' p' st
      = if v' = v ∧ p' = p ∧ n ≤ st.toNat ∧ st.toNat < 2 * n then slot e v p (st - BitVec.ofNat 6 n)
        else slot e v' p' st := by
  rw [doublePattern_of_le hn hle, slot_setLength, Nat.two_mul]
  exact slot_moveSlots (by omega) (.inr le_rfl) v' p' st

theorem slot_doublePattern_self (st : StepIx) :
    slot (doublePattern e v p) v p st
      = if n ≤ st.toNat ∧ st.toNat < 2 * n then slot e v p (st - BitVec.ofNat 6 n) else slot e v p st := by
  rw [slot_doublePattern hn hle]
  simp only [true_and]

theorem slot_doublePattern_of_ne {v' : VoiceIx} {p' : PatternIx} (h : ¬(v' = v ∧ p' = p)) (st : StepIx) :
    slot (doublePattern e v p) v' p' st = slot e v' p' st := by
  rw [slot_doublePattern hn hle, if_neg fun ⟨hv, hp, _⟩ => h ⟨hv, hp⟩]

theorem noteCount_doublePattern_of_ne {v' : VoiceIx} {p' : PatternIx} (h : ¬(v' = v ∧ p' = p)) :
    (doublePattern e v p).noteCount v' p' = e.noteCount v' p' := by
  rw [doublePattern_of_le hn hle, noteCount_setLength, noteCount_moveSlots_of_ne h]

theorem noteCountsRight_doublePattern (h : NoteCountsRight e) : NoteCountsRight (doublePattern e v p) := by
  rw [doublePattern_of_le hn hle]
  exact noteCountsRight_setLength (noteCountsRight_moveSlots h) _

end doubled

/-- Settles O26: a length up to 32 moves the first half by itself, so the loop reads no slot that it has written. -/
theorem patternDoublingRepeatsTheFirstHalf : Obligations.PatternDoublingRepeatsTheFirstHalf := by
  refine ⟨fun s v p n hn hle => ?_, fun s v p hlong => ?_⟩
  · have hlength : (doublePattern s.hw v p).length v p = BitVec.ofNat 7 (2 * n) :=
      (length_doublePattern hn hle v p).trans (if_pos ⟨rfl, rfl⟩)
    have hanswer : ((doublePattern s.hw v p).length v p).setWidth 32 = BitVec.ofNat 32 (2 * n) := by
      rw [hlength, BitVec.setWidth_ofNat_of_le_of_lt (by omega) (by omega)]
    have hnumber : (BitVec.ofNat 7 (2 * n)).toNat = 2 * n := Nat.mod_eq_of_lt (by omega)
    refine ⟨doublePattern s.hw v p, hanswer ▸ exec_patDbl, doublePattern_eq hn hle, hlength ▸ hnumber,
      fun st => ?_, fun st => ?_, fun v' p' hne => ⟨?_, noteCount_doublePattern_of_ne hn hle hne, fun st => ?_⟩,
      noteCountsRight_doublePattern hn hle⟩
    · exact (congrArg Prod.fst (slot_doublePattern_self hn hle st)).trans (apply_ite Prod.fst ..)
    · exact (congrArg Prod.snd (slot_doublePattern_self hn hle st)).trans (apply_ite Prod.snd ..)
    · rw [length_doublePattern hn hle, if_neg hne]
    · exact slot_eq_iff.1 (slot_doublePattern_of_ne hn hle hne st)
  · rw [exec_patDbl, doublePattern_of_lt hlong]
    rfl

/-! `PAT_CPY` (42_patterns.md R133). -/

theorem exec_patCpy :
    exec (.patCpy v p q) s
      = respond s (copyPattern s.hw v p q) .ok (((copyPattern s.hw v p q).noteCount v q).setWidth 32) := rfl

theorem copyPattern_self : copyPattern e v p p = e := if_pos rfl

section copied

variable (hpq : p ≠ q)

include hpq

theorem copyPattern_of_ne :
    copyPattern e v p q
      = ((moveSlots v p q 0 maxSteps e).setLength v q (e.length v p)).setRate v q (e.rate v p) := by
  rw [copyPattern, if_neg hpq.symm, copySlot_eq, ← length_moveSlots v p, ← rate_moveSlots v p]
  rfl

theorem copyPattern_eq :
    copyPattern e v p q = { e with
      noteMem := (copyPattern e v p q).noteMem, keyMem := (copyPattern e v p q).keyMem,
      lengthMem := (copyPattern e v p q).lengthMem, rateMem := (copyPattern e v p q).rateMem,
      noteCountMem := (copyPattern e v p q).noteCountMem } := by
  obtain ⟨_, _, _, hmoved⟩ := exists_moveSlots_eq (v := v) (p := p) (q := q) (off := 0) (n := maxSteps) (e := e)
  rw [copyPattern_of_ne hpq, hmoved]
  rfl

theorem length_copyPattern (v' : VoiceIx) (p' : PatternIx) :
    (copyPattern e v p q).length v' p' = if v' = v ∧ p' = q then e.length v p else e.length v' p' := by
  rw [copyPattern_of_ne hpq, length_setRate, length_setLength, length_moveSlots]

theorem rate_copyPattern (v' : VoiceIx) (p' : PatternIx) :
    (copyPattern e v p q).rate v' p' = if v' = v ∧ p' = q then e.rate v p else e.rate v' p' := by
  rw [copyPattern_of_ne hpq, rate_setRate, rate_setLength, rate_moveSlots]

/-- Every slot of the destination becomes the source's, and every other slot stays. -/
theorem slot_copyPattern (v' : VoiceIx) (p' : PatternIx) (st : StepIx) :
    slot (copyPattern e v p q) v' p' st = if v' = v ∧ p' = q then slot e v p st else slot e v' p' st := by
  have hlt : st.toNat < maxSteps := st.isLt
  rw [copyPattern_of_ne hpq, slot_setRate, slot_setLength, slot_moveSlots le_rfl (.inl hpq)]
  simp [hlt]

theorem noteCount_copyPattern_of_ne {v' : VoiceIx} {p' : PatternIx} (h : ¬(v' = v ∧ p' = q)) :
    (copyPattern e v p q).noteCount v' p' = e.noteCount v' p' := by
  rw [copyPattern_of_ne hpq, noteCount_setRate, noteCount_setLength, noteCount_moveSlots_of_ne h]

theorem noteCountsRight_copyPattern (h : NoteCountsRight e) : NoteCountsRight (copyPattern e v p q) := by
  rw [copyPattern_of_ne hpq]
  exact noteCountsRight_setRate (noteCountsRight_setLength (noteCountsRight_moveSlots h) _) _

theorem slot_copyPattern_destination (st : StepIx) :
    (copyPattern e v p q).note v q st = e.note v p st ∧ (copyPattern e v p q).key v q st = e.key v p st :=
  slot_eq_iff.1 ((slot_copyPattern hpq v q st).trans (if_pos ⟨rfl, rfl⟩))

/-- Where all counts are right, equal notes have equal counts. -/
theorem noteCount_copyPattern_destination (h : NoteCountsRight e) :
    (copyPattern e v p q).noteCount v q = e.noteCount v p := by
  apply BitVec.eq_of_toNat_eq
  rw [noteCountsRight_copyPattern hpq h v q, h v p]
  exact activeSteps_congr fun st => (slot_copyPattern_destination hpq st).1

end copied

/-- Settles O27: the loop moves all 64 slots to another pattern. -/
theorem patternCopyCopiesEverySlot : Obligations.PatternCopyCopiesEverySlot := by
  refine ⟨fun s v p q hpq => ?_, fun s v p => ?_⟩
  · refine ⟨copyPattern s.hw v p q, exec_patCpy, copyPattern_eq hpq, slot_copyPattern_destination hpq, ?_, ?_,
      fun v' p' hne => ⟨?_, ?_, noteCount_copyPattern_of_ne hpq hne, fun st => ?_⟩,
      fun h => ⟨noteCountsRight_copyPattern hpq h, noteCount_copyPattern_destination hpq h⟩⟩
    · rw [length_copyPattern hpq, if_pos ⟨rfl, rfl⟩]
    · rw [rate_copyPattern hpq, if_pos ⟨rfl, rfl⟩]
    · rw [length_copyPattern hpq, if_neg hne]
    · rw [rate_copyPattern hpq, if_neg hne]
    · exact slot_eq_iff.1 ((slot_copyPattern hpq v' p' st).trans (if_neg hne))
  · rw [exec_patCpy, copyPattern_self]
    rfl

end Sys2Proof.Patterns
end

section
/-!
PROOFS. The commands of 43_sequencer_cmds.md (O28, O29, O31 to O35, O37 to O39): what each answers, one equation per
command; the packed words of the reads have the value of their fields, and one lemma gives the only word of a command.
-/

namespace Sys2Proof.SequencerCommands

open Sys2Proof Sys2Proof.Machine Sys2Proof.Laws

variable {s : State} {e : Engine} {v : VoiceIx} {p : PatternIx} {g : GridIx} {val : Byte}

/-! What the commands share: their words, reads, and `IsPlaying` (45_envelope.md R187). -/

/-- A command has exactly one word (O1 and O2 together). -/
theorem decode_eq_ok_iff {w : Word} {i : Instr} : decode w = .ok i ↔ w = encode i := by
  constructor
  · exact fun h => (Encoding.encode_of_decode h).symm
  · rintro rfl
    exact Schedule.decode_encode i

/-- A read leaves everything but the response. -/
theorem respond_hw (st : Status) (d : Word) :
    respond s s.hw st d = .next { s with response := some ⟨statusCode st, d⟩ } := rfl

theorem toNat_bit (b : Bool) : (bit b).toNat = b.toNat := by cases b <;> rfl

theorem isPlaying_eq (r : Instrument) : isPlaying r = (decide (r.kind ≠ .sample) && decide (r.seg ≠ .dead)) := by
  cases hkind : r.kind with
  | sample => simp [isPlaying, hkind]
  | _ => simp [isPlaying, hkind, bne, beq_eq_decide]

theorem isPlaying_eq_false_iff (r : Instrument) : isPlaying r = false ↔ r.kind = .sample ∨ r.seg = .dead := by
  simp [isPlaying_eq, or_iff_not_imp_left]

/-! `NOP` (R140). -/

theorem exec_nop : exec .nop s = respond s s.hw .ok 0#32 := rfl

/-- Where `op` is 0 only the mask check of `NOP` is left, and it covers every bit. -/
theorem decode_of_fieldOp_zero {w : Word} (hop : fieldOp w = 0#5) (hw : w ≠ 0#32) :
    decode w = .error (.reservedBits "NOP") := by
  have hmask : ¬(w &&& rowNop.mask = rowNop.bits) := fun h => hw (Encoding.eq_bits_of_matches h rfl)
  simp only [decode, hop]
  exact if_neg hmask

/-- Settles O28: the mask of `NOP` is the whole word. -/
theorem nopChangesNothing : Obligations.NopChangesNothing :=
  ⟨fun _ => exec_nop.trans (respond_hw ..), rfl, fun _ hop hw => ⟨_, decode_of_fieldOp_zero hop hw⟩⟩

/-! `TYPE_SET` and `PAT_SEL` (R141, R142). -/

theorem exec_typeSet (h : typeInRange val = true) :
    exec (.typeSet v val) s
      = respond s (s.hw.setVoice v { s.hw.voice v with kind := typeOf val }) .ok 0#32 := if_pos h

theorem exec_patSel : exec (.patSel v p) s = respond s (s.hw.setCurPat v p) .ok 0#32 := rfl

/-- The five types have the codes 0 to 4 (10_state.md R22). -/
theorem toNat_typeCode_typeOf (h : val.toNat ≤ 4) : (typeCode (typeOf val)).toNat = val.toNat := by
  rw [typeOf]
  generalize val.toNat = n at h ⊢
  interval_cases n <;> rfl

/-- Settles O29: each write is of one element of a vector. -/
theorem typeAndPatternWritesChangeOneRegister : Obligations.TypeAndPatternWritesChangeOneRegister := by
  refine ⟨fun s v val hval => ?_, fun s v p => ?_, fun w v p => decode_eq_ok_iff⟩
  · refine ⟨_, exec_typeSet (decide_eq_true hval), rfl, ?_, ?_, fun v' hne => ?_⟩
    · rw [voice_setVoice_same]
      exact toNat_typeCode_typeOf hval
    · rw [voice_setVoice_same]
    · rw [voice_setVoice, if_neg hne]
  · exact ⟨_, exec_patSel, rfl, fun v' => curPat_setCurPat s.hw v v' p⟩

/-! The grid (R143 to R145). -/

theorem exec_gridTrig {m : BitVec 2} (h : gridModeInRange m = true) :
    exec (.gridTrig v g m) s
      = respond s (s.hw.setTrig v g (gridTrigBit m (s.hw.trig v g))) .ok
          ((bit (gridTrigBit m (s.hw.trig v g))).setWidth 32) := if_pos h

theorem exec_gridNote : exec (.gridNote v g val) s = respond s (s.hw.setGnote v g val) .ok 0#32 := rfl

theorem exec_gridRd :
    exec (.gridRd v g) s = respond s s.hw .ok (0#23 ++ bit (s.hw.trig v g) ++ s.hw.gnote v g) := rfl

/-- The modes that R143 names, clear, set and toggle, are those in range. -/
theorem gridTrigBit_eq {m : BitVec 2} {b old : Bool}
    (h : (m = 0#2 ∧ b = false) ∨ (m = 1#2 ∧ b = true) ∨ (m = 2#2 ∧ b = !old)) :
    gridModeInRange m = true ∧ gridTrigBit m old = b := by
  obtain ⟨rfl, rfl⟩ | ⟨rfl, rfl⟩ | ⟨rfl, rfl⟩ := h <;> exact ⟨rfl, rfl⟩

theorem setWidth_bit (b : Bool) : (bit b).setWidth 32 = if b then 1#32 else 0#32 := by cases b <;> rfl

/-- Settles O31: each write is of one cell of the space GRID. -/
theorem gridWritesStoreOneCell : Obligations.GridWritesStoreOneCell := by
  refine ⟨fun s v g m b hmode => ?_, fun s v g val => ?_⟩
  · obtain ⟨hrange, hbit⟩ := gridTrigBit_eq hmode
    refine ⟨s.hw.setTrig v g b, ?_, rfl, fun v' g' => trig_setTrig s.hw v v' g g' b⟩
    rw [exec_gridTrig hrange, hbit, setWidth_bit, respond_eq]
    rfl
  · exact ⟨_, exec_gridNote, rfl, fun v' g' => gnote_setGnote s.hw v v' g g' val⟩

theorem toNat_cellWord (b : Bool) (note : Byte) :
    (0#23 ++ bit b ++ note).toNat = b.toNat * 256 + note.toNat := by
  simp only [Pool.toNat_append_eq_mul_add, BitVec.toNat_ofNat, toNat_bit]
  omega

/-- Settles O32: the answer is the cell's packed fields. -/
theorem gridReadAnswersTheCell : Obligations.GridReadAnswersTheCell :=
  ⟨fun _ _ _ => ⟨_, exec_gridRd, toNat_cellWord _ _⟩, fun _ _ _ => decode_eq_ok_iff⟩

/-! `VOICE_RD` (R146). -/

theorem exec_voiceRd_status : exec (.voiceRd v 0#2) s = respond s s.hw .ok (voiceStatus s.hw v) := rfl

theorem exec_voiceRd_envPhase : exec (.voiceRd v 1#2) s = respond s s.hw .ok (s.hw.voice v).envPhase := rfl

theorem exec_voiceRd_oscPhase : exec (.voiceRd v 2#2) s = respond s s.hw .ok (s.hw.voice v).oscPhase := rfl

theorem exec_voiceRd_phaseInc : exec (.voiceRd v 3#2) s = respond s s.hw .ok (s.hw.voice v).phaseInc := rfl

theorem toNat_voiceStatus :
    (voiceStatus e v).toNat
      = (e.voice v).pitch.toNat * 65536 + (e.curPat v).toNat * 256 + (isPlaying (e.voice v)).toNat * 32
        + (segCode (e.voice v).seg).toNat * 8 + (typeCode (e.voice v).kind).toNat := by
  simp only [voiceStatus, Pool.toNat_append_eq_mul_add, BitVec.toNat_ofNat, toNat_bit]
  omega

/-- `IsPlaying` in bit 5 of the status word. -/
theorem isPlaying_mul_32 (r : Instrument) :
    (isPlaying r).toNat * 32 = if r.kind = .sample ∨ r.seg = .dead then 0 else 32 := by
  have hsilent := isPlaying_eq_false_iff r
  split
  case isTrue h => rw [hsilent.2 h]; rfl
  case isFalse h => rw [Bool.eq_true_of_not_eq_false (mt hsilent.1 h)]; rfl

/-- Settles O33: the status word is packed fields, the other answers are registers. -/
theorem voiceReadAnswersTheRegisters : Obligations.VoiceReadAnswersTheRegisters := by
  refine fun s v => ⟨_, exec_voiceRd_status, ?_, exec_voiceRd_envPhase, exec_voiceRd_oscPhase,
    exec_voiceRd_phaseInc⟩
  rw [toNat_voiceStatus, isPlaying_mul_32]

/-! `PLAY` (R148). -/

theorem exec_play_start : exec (.play 1#1) s = respond s (startSequencer s.hw) .ok 0#32 := rfl

theorem exec_play_stop : exec (.play 0#1) s = respond s (stopSequencer s.hw) .ok 0#32 := rfl

theorem startSequencer_of_stopped (h : e.playing = false) :
    startSequencer e = { e with playing := true, curStep := 0#4, countdown := 1#32 } :=
  if_neg (Bool.eq_false_iff.1 h)

theorem startSequencer_of_playing (h : e.playing = true) : startSequencer e = e := if_pos h

/-- Settles O34: a start looks at `playing`, a stop does not. -/
theorem playStartsAndStopsTheSequencer : Obligations.PlayStartsAndStopsTheSequencer := by
  refine ⟨fun s hstopped => ?_, fun s hplaying => ?_, fun s => exec_play_stop⟩
  · rw [exec_play_start, startSequencer_of_stopped hstopped]
    rfl
  · rw [exec_play_start, startSequencer_of_playing hplaying, respond_hw]
    rfl

/-! The registers of the sequencer (R149 to R152). -/

theorem exec_selVoice : exec (.selVoice v) s = respond s { s.hw with selVoice := v } .ok 0#32 := rfl

theorem exec_modeSet {m : BitVec 3} : exec (.modeSet m) s = respond s { s.hw with mode := m } .ok 0#32 := rfl

theorem exec_noteReq :
    exec (.noteReq val) s = respond s { s.hw with pendingNoteValue := val, pendingNote := true } .ok 0#32 := rfl

theorem exec_tempoSet {bpm : BitVec 16} (h : bpm ≠ 0#16) :
    exec (.tempoSet bpm) s
      = respond s { s.hw with tempo := bpm, samplesPerStep := samplesPerStepOf bpm } .ok (samplesPerStepOf bpm) :=
  if_pos (bne_iff_ne.2 h)

/-- The step period is at most a minute of frames, so it fits its register. -/
theorem toNat_samplesPerStepOf (bpm : BitVec 16) :
    (samplesPerStepOf bpm).toNat = max 1 (44100 * 60 / (bpm.toNat * 4)) := by
  have hle : 44100 * 60 / (bpm.toNat * 4) ≤ 44100 * 60 := Nat.div_le_self _ _
  rw [samplesPerStepOf, BitVec.toNat_ofNat, sampleRate, stepsPerBeat]
  exact Nat.mod_eq_of_lt (by omega)

/-- Settles O35: each command writes its registers, and every tempo but 0 is in range. -/
theorem sequencerRegisterWritesStoreTheOperand : Obligations.SequencerRegisterWritesStoreTheOperand :=
  ⟨fun _ _ _ _ => ⟨exec_selVoice, exec_modeSet, exec_noteReq⟩,
    fun _ bpm hbpm => ⟨samplesPerStepOf bpm, toNat_samplesPerStepOf bpm, exec_tempoSet hbpm⟩⟩

/-! `SEQ_RD` (R153). -/

theorem exec_seqRd_status : exec (.seqRd 0#2) s = respond s s.hw .ok (seqStatus s.hw) := rfl

theorem exec_seqRd_countdown : exec (.seqRd 1#2) s = respond s s.hw .ok s.hw.countdown := rfl

theorem exec_seqRd_samplesPerStep : exec (.seqRd 2#2) s = respond s s.hw .ok s.hw.samplesPerStep := rfl

theorem exec_seqRd_playing : exec (.seqRd 3#2) s = respond s s.hw .ok (playingMask s.hw ++ s.hw.tempo) := rfl

theorem toNat_seqStatus :
    (seqStatus e).toNat
      = e.pendingNoteValue.toNat * 16777216 + e.pendingNote.toNat * 131072 + e.playValid.toNat * 65536
        + e.playStep.toNat * 4096 + e.curStep.toNat * 256 + e.selVoice.toNat * 16 + e.mode.toNat * 2
        + e.playing.toNat := by
  simp only [seqStatus, Pool.toNat_append_eq_mul_add, BitVec.toNat_ofNat, toNat_bit]
  omega

theorem getLsbD_playingMask (e : Engine) (v : VoiceIx) : (playingMask e).getLsbD v.toNat = isPlaying (e.voice v) := by
  rw [playingMask, BitVec.getLsbD_ofFnLE, dif_pos v.isLt]
  rfl

/-- The upper half of the word of `SEQ_RD 3`. -/
theorem getLsbD_playingWord (e : Engine) (v : VoiceIx) :
    (playingMask e ++ e.tempo).getLsbD (16 + v.toNat) = isPlaying (e.voice v) := by
  rw [BitVec.getLsbD_append, if_neg (Nat.not_lt.2 (Nat.le_add_right ..)), Nat.add_sub_cancel_left, getLsbD_playingMask]

/-- Settles O37: the status word is packed fields, the word of `SEQ_RD 3` two halves. -/
theorem sequencerReadAnswersTheRegisters : Obligations.SequencerReadAnswersTheRegisters := fun s =>
  ⟨_, _, exec_seqRd_status, toNat_seqStatus, exec_seqRd_countdown, exec_seqRd_samplesPerStep, exec_seqRd_playing,
    BitVec.setWidth_append_eq_right, fun v => (getLsbD_playingWord s.hw v).trans (isPlaying_eq _)⟩

/-! `DIAG_RD` and `DIAG_CLR` (R154, R155). -/

theorem exec_diagRd : exec .diagRd s = respond s s.hw .ok (s.hw.diag.setWidth 32) := rfl

theorem exec_diagClr (mask : BitVec 4) :
    exec (.diagClr mask) s
      = respond s { s.hw with diag := s.hw.diag &&& ~~~mask } .ok ((s.hw.diag &&& ~~~mask).setWidth 32) := rfl

/-- A mask clears its own bits; from bit 4 on there is nothing to clear. -/
theorem getLsbD_and_not {n : Nat} (d mask : BitVec n) (k : Nat) :
    (d &&& ~~~mask).getLsbD k = (d.getLsbD k && !mask.getLsbD k) := by
  rw [BitVec.getLsbD_and, BitVec.getLsbD_not]
  by_cases hk : k < n
  · rw [decide_eq_true hk, Bool.true_and]
  · rw [BitVec.getLsbD_of_ge d k (Nat.not_lt.1 hk), Bool.false_and, Bool.false_and]

/-- The `diag` line is the OR of the bits of `DIAG` (60_exceptions.md R224). -/
theorem diagLine_iff : diagLine e = true ↔ ∃ k, e.diag.getLsbD k = true := by
  rw [diagLine, bne_iff_ne]
  constructor
  · intro hne
    by_contra hnone
    refine hne (BitVec.eq_of_getLsbD_eq fun k _ => ?_)
    rw [BitVec.getLsbD_zero]
    exact Bool.eq_false_iff.2 fun hk => hnone ⟨k, hk⟩
  · rintro ⟨k, hk⟩ hzero
    rw [hzero, BitVec.getLsbD_zero] at hk
    cases hk

/-- Settles O38: `DIAG` keeps the bits outside the mask, and each command has one word. -/
theorem diagnosticCommandsReadAndClear : Obligations.DiagnosticCommandsReadAndClear :=
  ⟨fun _ => exec_diagRd, fun s mask => ⟨_, exec_diagClr mask, getLsbD_and_not s.hw.diag mask, diagLine_iff⟩,
    fun _ => decode_eq_ok_iff, fun _ _ => decode_eq_ok_iff⟩

/-! `SOFT_RESET` (R156). -/

theorem exec_softReset : exec .softReset s = respond s (softResetEngine s.cfg s.hw) .ok 0#32 := rfl

/-- Settles O39: `softResetEngine` is the reset value with the three components of the block put back. -/
theorem softResetKeepsOnlyTheBlock : Obligations.SoftResetKeepsOnlyTheBlock :=
  ⟨fun _ => exec_softReset, fun _ => decode_eq_ok_iff⟩

end Sys2Proof.SequencerCommands
end

section
/-!
PROOFS. The oscillator (O36, O40): the phase increment as a table value on natural numbers, non-decreasing over one octave
and one past it, and the reference waves, with the rotation of R172 as any sequences that take its steps.
-/

namespace Sys2Proof.Oscillator

open Sys2Proof Sys2Proof.Machine Sys2Proof.Laws

/-! Shifts and samples (00_scope.md R7). -/

theorem asr_eq_div (v : Int) (n : Nat) : asr v n = v / 2 ^ n := by
  rw [asr, Int.shiftRight_eq_div_pow, Nat.cast_pow, Nat.cast_ofNat]

theorem asr_natCast (m n : Nat) : asr (m : Int) n = (m / 2 ^ n : Nat) := by
  rw [asr_eq_div, Int.natCast_ediv, Nat.cast_pow, Nat.cast_ofNat]

theorem clamp15_eq (v : Int) : clamp15 v = max (-32767) (min 32767 v) := by
  unfold clamp15
  split
  · omega
  · split <;> omega

theorem toInt_toSample {v : Int} (hlow : -32768 ≤ v) (hhigh : v ≤ 32767) : (toSample v).toInt = v :=
  BitVec.toInt_ofInt_eq_self (by decide) hlow (Int.lt_add_one_of_le hhigh)

/-! The pitch brought into the base octave (R167). -/

section

variable {c : Config} {p p' : BitVec 14}

theorem lutEntry_le_succ (hc : c.valid) {i : Nat} (hi : i < 12) :
    (c.lutEntry i).toNat ≤ (c.lutEntry (i + 1)).toNat := by
  obtain ⟨_, _, hmono, _, _⟩ := hc
  exact hmono i (List.mem_range.2 hi)

/-- The origin is high enough that no subtraction of R167 goes below 0. -/
theorem reducedPitch_spec (hc : c.valid) (p : BitVec 14) :
    reducedPitch c p < 1536 ∧ reducedPitch c p + c.lutOrigin = p.toNat + 1536 * octaveShift c p := by
  obtain ⟨_, _, _, _, horigin⟩ := hc
  have hp := p.isLt
  simp only [reducedPitch, octaveShift, octave] at *
  omega

theorem reducedPitch_lt (hc : c.valid) (p : BitVec 14) : reducedPitch c p < 1536 := (reducedPitch_spec hc p).1

/-- A higher pitch is shifted by fewer octaves, or by as many and stands higher in the table. -/
theorem octaveShift_lt_or_reducedPitch_le (hc : c.valid) (h : p.toNat ≤ p'.toNat) :
    octaveShift c p' < octaveShift c p
      ∨ octaveShift c p' = octaveShift c p ∧ reducedPitch c p ≤ reducedPitch c p' := by
  obtain ⟨hlt, hsum⟩ := reducedPitch_spec hc p
  obtain ⟨hlt', hsum'⟩ := reducedPitch_spec hc p'
  omega

/-- An octave is one shift at the same place in the table. -/
theorem octaveShift_of_octave_above (hc : c.valid) (h : p'.toNat = p.toNat + octave) :
    octaveShift c p = octaveShift c p' + 1 ∧ reducedPitch c p = reducedPitch c p' := by
  obtain ⟨hlt, hsum⟩ := reducedPitch_spec hc p
  obtain ⟨hlt', hsum'⟩ := reducedPitch_spec hc p'
  rw [octave] at h
  omega

/-! The table (R167, R169). -/

/-- The interpolated table value on natural numbers; `interpolate_eq` ties it to the model's. -/
def tableValue (c : Config) (q : Nat) : Nat :=
  (c.lutEntry (q / 128)).toNat
    + ((c.lutEntry (q / 128 + 1)).toNat - (c.lutEntry (q / 128)).toNat) * (q % 128) / 128

theorem interpolate_eq (hc : c.valid) {q : Nat} (hq : q < 1536) : interpolate c q = (tableValue c q : Int) := by
  have hab := lutEntry_le_succ hc (i := q / 128) (by omega)
  rw [interpolate, tableValue, ← Nat.cast_sub hab, ← Nat.cast_mul, asr_natCast, ← Nat.cast_add]
  rfl

theorem tableValue_at_entry (c : Config) (i : Nat) : tableValue c (128 * i) = (c.lutEntry i).toNat := by
  simp [tableValue]

/-- Interpolation stays between the two entries. -/
theorem tableValue_le_next_entry (hc : c.valid) {q : Nat} (hq : q < 1536) :
    tableValue c q ≤ (c.lutEntry (q / 128 + 1)).toNat := by
  have hab := lutEntry_le_succ hc (i := q / 128) (by omega)
  have hpart : ((c.lutEntry (q / 128 + 1)).toNat - (c.lutEntry (q / 128)).toNat) * (q % 128) / 128
      ≤ (c.lutEntry (q / 128 + 1)).toNat - (c.lutEntry (q / 128)).toNat :=
    Nat.div_le_of_le_mul (by rw [Nat.mul_comm 128]; exact Nat.mul_le_mul_left _ (by omega))
  rw [tableValue]
  omega

theorem tableValue_le_succ (hc : c.valid) {q : Nat} (hq : q < 1536) : tableValue c q ≤ tableValue c (q + 1) := by
  by_cases hcell : q % 128 = 127
  · calc tableValue c q
        ≤ (c.lutEntry (q / 128 + 1)).toNat := tableValue_le_next_entry hc hq
      _ = tableValue c (128 * (q / 128 + 1)) := (tableValue_at_entry c _).symm
      _ = tableValue c (q + 1) := by congr 1; omega
  · have hdiv : (q + 1) / 128 = q / 128 := by omega
    have hmod : (q + 1) % 128 = q % 128 + 1 := by omega
    rw [tableValue, tableValue, hdiv, hmod]
    gcongr
    exact Nat.le_succ _

theorem tableValue_mono (hc : c.valid) {q q' : Nat} (hqq' : q ≤ q') (hq' : q' ≤ 1536) :
    tableValue c q ≤ tableValue c q' := by
  induction q', hqq' using Nat.le_induction with
  | base => exact le_rfl
  | succ n _ ih => exact (ih (by omega)).trans (tableValue_le_succ hc (by omega))

/-- Any two values of the table lie within an octave of each other, as its last entry is twice its first. -/
theorem tableValue_le_two_mul (hc : c.valid) {q q' : Nat} (hq : q ≤ 1536) (hq' : q' ≤ 1536) :
    tableValue c q ≤ 2 * tableValue c q' := by
  have hlast : tableValue c 1536 = 2 * tableValue c 0 := by
    obtain ⟨_, _, _, hoctave, _⟩ := hc
    rw [tableValue_at_entry c 12, tableValue_at_entry c 0, hoctave]
  calc tableValue c q
      ≤ tableValue c 1536 := tableValue_mono hc hq le_rfl
    _ = 2 * tableValue c 0 := hlast
    _ ≤ 2 * tableValue c q' := Nat.mul_le_mul_left 2 (tableValue_mono hc (Nat.zero_le _) hq')

/-! The phase increment (R167, R169). -/

/-- The increment fits its 32 bits, as every table entry does. -/
theorem toNat_computePhaseIncrement (hc : c.valid) (p : BitVec 14) :
    (computePhaseIncrement c p).toNat = tableValue c (reducedPitch c p) / 2 ^ octaveShift c p := by
  have hq := reducedPitch_lt hc p
  have hfits : tableValue c (reducedPitch c p) / 2 ^ octaveShift c p < 2 ^ 32 :=
    calc tableValue c (reducedPitch c p) / 2 ^ octaveShift c p
        ≤ tableValue c (reducedPitch c p) := Nat.div_le_self _ _
      _ ≤ (c.lutEntry (reducedPitch c p / 128 + 1)).toNat := tableValue_le_next_entry hc hq
      _ < 2 ^ 32 := BitVec.isLt _
  rw [computePhaseIncrement, interpolate_eq hc hq, asr_natCast, BitVec.ofInt_natCast, BitVec.toNat_ofNat,
    Nat.mod_eq_of_lt hfits]

theorem computePhaseIncrement_mono (hc : c.valid) (h : p ≤ p') :
    computePhaseIncrement c p ≤ computePhaseIncrement c p' := by
  have hq := (reducedPitch_lt hc p).le
  have hq' := (reducedPitch_lt hc p').le
  rw [BitVec.le_def, toNat_computePhaseIncrement hc, toNat_computePhaseIncrement hc]
  obtain hk | ⟨hk, hqq'⟩ := octaveShift_lt_or_reducedPitch_le hc h
  · calc tableValue c (reducedPitch c p) / 2 ^ octaveShift c p
        ≤ 2 * tableValue c (reducedPitch c p') / 2 ^ (octaveShift c p' + 1) :=
          Nat.div_le_div (tableValue_le_two_mul hc hq hq') (Nat.pow_le_pow_right (by decide) hk) (by positivity)
      _ = tableValue c (reducedPitch c p') / 2 ^ octaveShift c p' := by
          rw [Nat.pow_succ', Nat.mul_div_mul_left _ _ (by decide)]
  · rw [hk]
    exact Nat.div_le_div_right (tableValue_mono hc hqq' hq')

theorem computePhaseIncrement_octave_below (hc : c.valid) (h : p'.toNat = p.toNat + octave) :
    (computePhaseIncrement c p).toNat = (computePhaseIncrement c p').toNat / 2 := by
  obtain ⟨hk, hq⟩ := octaveShift_of_octave_above hc h
  rw [toNat_computePhaseIncrement hc, toNat_computePhaseIncrement hc, hk, hq, Nat.pow_succ, Nat.div_div_eq_div_mul]

end

/-- Settles O40: one octave less is one more halving of the same table value, and the table spans exactly one octave. -/
theorem phaseIncrementHalvesAnOctaveBelow : Obligations.PhaseIncrementHalvesAnOctaveBelow := by
  refine fun c hc => ⟨?_, fun _ _ => computePhaseIncrement_mono hc, fun _ _ => computePhaseIncrement_octave_below hc⟩
  rintro p k q a b (rfl : k = octaveShift c p) (rfl : q = reducedPitch c p) rfl rfl
  have hq := reducedPitch_lt hc p
  exact ⟨hq, lutEntry_le_succ hc (by omega), toNat_computePhaseIncrement hc p⟩

/-! The rotation (R172). -/

/-- Step i of the rotation with the table's angle a, on sequences of the three values. -/
def RotationStep (x y z : Nat → Int) (i : Nat) (a : Int) : Prop :=
  if 0 ≤ z i then
    x (i + 1) = x i - y i / 2 ^ i ∧ y (i + 1) = y i + x i / 2 ^ i ∧ z (i + 1) = z i - a
  else x (i + 1) = x i + y i / 2 ^ i ∧ y (i + 1) = y i - x i / 2 ^ i ∧ z (i + 1) = z i + a

section

variable {x y z : Nat → Int}

theorem cordicFrom_cons {i : Nat} {a : Int} (h : RotationStep x y z i a) (rest : List Int) :
    cordicFrom i (x i) (y i) (z i) (a :: rest) = cordicFrom (i + 1) (x (i + 1)) (y (i + 1)) (z (i + 1)) rest := by
  rw [cordicFrom, asr_eq_div, asr_eq_div]
  unfold RotationStep at h
  split at h
  case isTrue hz =>
    obtain ⟨hx, hy, hz'⟩ := h
    rw [if_pos hz, hx, hy, hz']
  case isFalse hz =>
    obtain ⟨hx, hy, hz'⟩ := h
    rw [if_neg hz, hx, hy, hz']

theorem cordicFrom_eq (angles : List Int) (i : Nat)
    (h : ∀ (j : Nat) (a : Int), angles[j]? = some a → RotationStep x y z (i + j) a) :
    cordicFrom i (x i) (y i) (z i) angles = (x (i + angles.length), y (i + angles.length)) := by
  induction angles generalizing i with
  | nil => rfl
  | cons a rest ih =>
    have hrest : ∀ (j : Nat) (b : Int), rest[j]? = some b → RotationStep x y z (i + 1 + j) b := fun j b hb => by
      rw [Nat.add_right_comm, Nat.add_assoc]
      exact h (j + 1) b hb
    have hfirst : RotationStep x y z i a := h 0 a rfl
    rw [cordicFrom_cons hfirst, ih (i + 1) hrest, List.length_cons, Nat.add_right_comm, Nat.add_assoc]

/-- `Cordic(r)` is the end of any sequences that take its sixteen steps. -/
theorem cordic_eq {r : Nat} (hx : x 0 = 326011462) (hy : y 0 = 0) (hz : z 0 = r)
    (h : ∀ (i : Nat) (a : Int), i < 16 → cordicAtan[i]? = some a → RotationStep x y z i a) :
    cordic r = (x 16, y 16) := by
  have hsteps : ∀ (j : Nat) (a : Int), cordicAtan[j]? = some a → RotationStep x y z (0 + j) a := fun j a ha => by
    obtain ⟨hj, _⟩ := List.getElem?_eq_some_iff.1 ha
    rw [Nat.zero_add]
    exact h j a hj ha
  rw [cordic, cordicX0, ← hx, ← hy, ← hz]
  exact cordicFrom_eq cordicAtan 0 hsteps

end

/-! The waves (R170 to R175). -/

/-- A component of the rotation as a sample: rounded to 16 bits and limited (R171). -/
def roundedSample (v : Int) : Int := max (-32767) (min 32767 ((v + 8192) / 2 ^ 14))

theorem clamp15_rounded (v : Int) : clamp15 (asr (v + 8192) 14) = roundedSample v := by
  rw [clamp15_eq, asr_eq_div, roundedSample]

theorem roundedSample_mem (v : Int) : -32767 ≤ roundedSample v ∧ roundedSample v ≤ 32767 := by
  rw [roundedSample]
  omega

/-- The quadrants of R171 as ranges of the phase. -/
theorem sineWave_eq (phase : Word) :
    sineWave phase
      = if phase.toNat < 2 ^ 30 then roundedSample (cordic (phase.toNat % 2 ^ 30)).2
        else if phase.toNat < 2 ^ 31 then roundedSample (cordic (phase.toNat % 2 ^ 30)).1
        else if phase.toNat < 2 ^ 31 + 2 ^ 30 then -roundedSample (cordic (phase.toNat % 2 ^ 30)).2
        else -roundedSample (cordic (phase.toNat % 2 ^ 30)).1 := by
  have hangle : (phase.extractLsb' 0 30).toNat = phase.toNat % 2 ^ 30 := BitVec.extractLsb'_toNat ..
  have hquadrant : (phase.extractLsb' 30 2).toNat = phase.toNat / 2 ^ 30 := by
    rw [BitVec.extractLsb'_toNat, Nat.shiftRight_eq_div_pow]
    omega
  simp only [sineWave, hangle, clamp15_rounded]
  split_ifs
  · simp only [hquadrant, show phase.toNat / 2 ^ 30 = 0 by omega]
  · simp only [hquadrant, show phase.toNat / 2 ^ 30 = 1 by omega]
  · simp only [hquadrant, show phase.toNat / 2 ^ 30 = 2 by omega]
  · simp only [hquadrant, show phase.toNat / 2 ^ 30 = 3 by omega]

theorem sineWave_mem (phase : Word) : -32767 ≤ sineWave phase ∧ sineWave phase ≤ 32767 := by
  obtain ⟨hco, hco'⟩ := roundedSample_mem (cordic (phase.toNat % 2 ^ 30)).1
  obtain ⟨hsi, hsi'⟩ := roundedSample_mem (cordic (phase.toNat % 2 ^ 30)).2
  rw [sineWave_eq]
  split_ifs <;> omega

/-- The upper half of the phase. -/
theorem toNat_upperHalf (phase : Word) : (phase.extractLsb' 16 16).toNat = phase.toNat / 65536 := by
  rw [BitVec.extractLsb'_toNat, Nat.shiftRight_eq_div_pow]
  omega

/-- Turning the sign bit over takes the range 0..65535 to -32768..32767 in order. -/
theorem toInt_xor_signBit (t : BitVec 16) : (t ^^^ 0x8000#16).toInt = (t.toNat : Int) - 32768 := by
  have ht := t.isLt
  have hlow : (t.toNat ^^^ 2 ^ 15) % 2 ^ 15 = t.toNat % 2 ^ 15 := by
    rw [Nat.xor_mod_two_pow, Nat.mod_self, Nat.xor_zero]
  have hhigh : (t.toNat ^^^ 2 ^ 15) / 2 ^ 15 = 1 - t.toNat / 2 ^ 15 := by
    rw [Nat.xor_div_two_pow, Nat.div_self (by decide)]
    obtain h | h : t.toNat / 2 ^ 15 = 0 ∨ t.toNat / 2 ^ 15 = 1 := by omega
    · rw [h]
      rfl
    · rw [h]
      rfl
  rw [BitVec.toInt_eq_toNat_cond, BitVec.toNat_xor, show (0x8000#16).toNat = 2 ^ 15 from rfl]
  split <;> omega

theorem sawWave_eq (phase : Word) : sawWave phase = ((phase.toNat / 65536 : Nat) : Int) - 32768 := by
  rw [sawWave, toInt_xor_signBit, toNat_upperHalf]

theorem triangleWave_eq (phase : Word) :
    triangleWave phase
      = if phase.toNat < 2 ^ 31 then -32768 + 2 * ((phase.toNat / 65536 : Nat) : Int)
        else 98303 - 2 * ((phase.toNat / 65536 : Nat) : Int) := by
  unfold triangleWave
  rw [toNat_upperHalf]
  by_cases hfirst : phase.toNat < 2 ^ 31
  · rw [if_pos hfirst]
    exact if_pos (by omega)
  · rw [if_neg hfirst]
    exact if_neg (by omega)

section

variable {c : Config} {phase : Word} {timbre color : Byte}

theorem oscWave_reference (h : c.wave = .reference) (shape : Byte) :
    oscWave c shape phase timbre color = referenceWave shape phase timbre := by
  rw [oscWave, h]

theorem toInt_oscWave_sine (h : c.wave = .reference) :
    (oscWave c 0#8 phase timbre color).toInt = sineWave phase := by
  obtain ⟨hlow, hhigh⟩ := sineWave_mem phase
  rw [oscWave_reference h]
  exact toInt_toSample (by omega) hhigh

theorem toInt_oscWave_saw (h : c.wave = .reference) : (oscWave c 1#8 phase timbre color).toInt = sawWave phase := by
  have hrange : -32768 ≤ sawWave phase ∧ sawWave phase ≤ 32767 := by
    rw [sawWave_eq]
    omega
  rw [oscWave_reference h]
  exact toInt_toSample hrange.1 hrange.2

theorem toInt_oscWave_pulse (h : c.wave = .reference) :
    (oscWave c 2#8 phase timbre color).toInt = pulseWave phase timbre := by
  have hrange : -32768 ≤ pulseWave phase timbre ∧ pulseWave phase timbre ≤ 32767 := by
    rw [pulseWave]
    split <;> decide
  rw [oscWave_reference h]
  exact toInt_toSample hrange.1 hrange.2

theorem toInt_oscWave_triangle (h : c.wave = .reference) :
    (oscWave c 3#8 phase timbre color).toInt = triangleWave phase := by
  have hrange : -32768 ≤ triangleWave phase ∧ triangleWave phase ≤ 32767 := by
    rw [triangleWave_eq]
    split <;> omega
  rw [oscWave_reference h]
  exact toInt_toSample hrange.1 hrange.2

theorem oscWave_silent (h : c.wave = .reference) {shape : Byte} (hshape : 4 ≤ shape.toNat) :
    oscWave c shape phase timbre color = 0#16 := by
  rw [oscWave_reference h]
  unfold referenceWave
  split
  case h_5 => rfl
  all_goals omega

end

/-- Settles O36: the model's rotation is the end of any sequences that take its steps, and every wave fits a sample. -/
theorem referenceWavesFollowTheirRules : Obligations.ReferenceWavesFollowTheirRules := by
  refine fun c phase timbre color hwave => ⟨?_, (toInt_oscWave_saw hwave).trans (sawWave_eq phase),
    toInt_oscWave_pulse hwave, (toInt_oscWave_triangle hwave).trans (triangleWave_eq phase),
    fun _ hshape => oscWave_silent hwave hshape⟩
  rintro x y z si co hx hy hz hsteps (rfl : co = roundedSample (x 16)) (rfl : si = roundedSample (y 16))
  rw [toInt_oscWave_sine hwave, sineWave_eq, cordic_eq hx hy hz hsteps]

end Sys2Proof.Oscillator
end

section
/-!
PROOFS. The envelope (O41): the increment of a count reaches 2^32 in exactly that many frames, so a timed segment lasts
its count; the frames of one segment are one induction, shared by Attack, Hold and Decay.
-/

namespace Sys2Proof.Envelope

open Sys2Proof Sys2Proof.Machine Sys2Proof.Laws

variable {c : Config}

/-! The counts and the increments (45_envelope.md R183). -/

theorem envCount_reference (h : c.envMap = .reference) (b : Byte) : envCount c b = max 1 (128 * b.toNat) := by
  rw [envCount, h]

theorem envInc_le_iff (b : Byte) (q : Nat) : (envInc c b).toNat ≤ q ↔ 2 ^ 32 ≤ q * envCount c b := by
  obtain ⟨hpos, _⟩ := envCount_range c b
  rw [envInc_toNat]
  exact ceilDiv_le_iff hpos q

/-- The square of a count is at most 2^32, so no increment is below its count. -/
theorem envCount_le_envInc (b : Byte) : envCount c b ≤ (envInc c b).toNat := by
  obtain ⟨hpos, hmax⟩ := envCount_range c b
  refine (Nat.mul_le_mul_right_iff hpos).1 ?_
  calc envCount c b * envCount c b ≤ 2 ^ 16 * 2 ^ 16 := Nat.mul_le_mul hmax hmax
    _ ≤ (envInc c b).toNat * envCount c b := (envInc_le_iff b _).1 le_rfl

/-- The increments of m frames stay below 2^32 exactly while m is below the count: the excess of one increment over
`2^32 / count` is less than 1, and so that of all of them is less than one increment. -/
theorem mul_envInc_lt_iff (b : Byte) (m : Nat) : m * (envInc c b).toNat < 2 ^ 32 ↔ m < envCount c b := by
  have hreach : 2 ^ 32 ≤ (envInc c b).toNat * envCount c b := (envInc_le_iff b _).1 le_rfl
  have hle := envCount_le_envInc (c := c) b
  obtain ⟨hpos, _⟩ := envInc_range c b
  have hleast : ((envInc c b).toNat - 1) * envCount c b < 2 ^ 32 := by
    have := mt (envInc_le_iff (c := c) b ((envInc c b).toNat - 1)).2
    omega
  generalize (envInc c b).toNat = q at *
  generalize envCount c b = n at *
  constructor
  · intro hm
    by_contra hn
    have : n * q ≤ m * q := Nat.mul_le_mul_right q (by omega)
    rw [Nat.mul_comm] at hreach
    omega
  · intro hm
    calc m * q ≤ (n - 1) * q := Nat.mul_le_mul_right q (by omega)
      _ ≤ (q - 1) * n := by
        rw [Nat.sub_one_mul, Nat.sub_one_mul, Nat.mul_comm]
        omega
      _ < 2 ^ 32 := hleast

/-! A voice's envelope at a phase of a segment. -/

/-- The registers of a voice with the envelope at phase t of a segment. -/
def envAt (r : Instrument) (seg : Segment) (t : Nat) : Instrument :=
  { r with seg := seg, envPhase := BitVec.ofNat 32 t }

section

variable {r : Instrument} {seg after : Segment} {t : Nat}

@[simp] theorem envAt_seg : (envAt r seg t).seg = seg := rfl

theorem envAt_envPhase (ht : t < 2 ^ 32) : (envAt r seg t).envPhase.toNat = t :=
  (BitVec.toNat_ofNat t 32).trans (Nat.mod_eq_of_lt ht)

theorem eq_envAt_zero (hseg : r.seg = seg) (hphase : r.envPhase = 0#32) : r = envAt r seg 0 := by
  rw [← hseg, envAt, ← hphase]

/-- The level at a phase of a segment (R181). -/
theorem envLevel_envAt (ht : t < 2 ^ 32) :
    envLevel (envAt r seg t)
      = match seg with
        | .attack => t / 65536
        | .hold => 65535
        | .decay => 65535 - t / 65536
        | .dead => 0 := by
  cases seg <;> simp only [envLevel, envAt_seg, Oscillator.toNat_upperHalf, envAt_envPhase ht]

theorem envRamp_envAt {inc : BitVec 33} (ht : t < 2 ^ 32) :
    envRamp (envAt r seg t) inc after
      = if t + inc.toNat < 2 ^ 32 then envAt r seg (t + inc.toNat) else envAt r after 0 := by
  rw [envRamp, envAt_envPhase ht]
  split_ifs
  · omega
  · rfl
  · rfl
  · omega

/-! One frame in each segment (R182). -/

theorem envAdvance_attack : envAdvance c (envAt r .attack t) = envRamp (envAt r .attack t) r.attackInc .hold := rfl

theorem envAdvance_hold (ht : t < 2 ^ 32) :
    envAdvance c (envAt r .hold t) = if t < c.envHold.toNat then envAt r .hold (t + 1) else envAt r .decay 0 := by
  have hphase : (envAt r .hold t).envPhase + 1#32 = BitVec.ofNat 32 (t + 1) := (BitVec.ofNat_add t 1).symm
  simp only [envAdvance, envAt_seg, BitVec.le_def, envAt_envPhase ht, hphase]
  split_ifs
  · omega
  · rfl
  · rfl
  · omega

theorem envAdvance_decay : envAdvance c (envAt r .decay t) = envRamp (envAt r .decay t) r.decayInc .dead := rfl

theorem envAdvance_dead : envAdvance c (envAt r .dead t) = envAt r .dead t := rfl

end

/-! The frames of a segment (R182, R184). -/

/-- From its phase 0 on a segment lasts n frames, in steps of q, and the next one starts at phase 0. -/
def SegmentLasts (c : Config) (r : Instrument) (seg : Segment) (q n : Nat) (after : Segment) : Prop :=
  ∀ j < n, envAdvance c (envAt r seg (j * q)) = if j + 1 < n then envAt r seg ((j + 1) * q) else envAt r after 0

section

variable {r : Instrument} {seg after : Segment} {b : Byte}

/-- A segment that advances by the increment of a byte lasts the byte's count. -/
theorem segmentLasts_of_envRamp
    (h : ∀ t, envAdvance c (envAt r seg t) = envRamp (envAt r seg t) (envInc c b) after) :
    SegmentLasts c r seg (envInc c b).toNat (envCount c b) after := by
  intro j hj
  rw [h, envRamp_envAt ((mul_envInc_lt_iff b j).2 hj), ← Nat.succ_mul]
  exact if_congr (mul_envInc_lt_iff b (j + 1)) rfl rfl

theorem segmentLasts_attack (h : r.attackInc = envInc c b) :
    SegmentLasts c r .attack (envInc c b).toNat (envCount c b) .hold :=
  segmentLasts_of_envRamp fun _ => h ▸ envAdvance_attack

theorem segmentLasts_hold : SegmentLasts c r .hold 1 (c.envHold.toNat + 1) .decay := by
  intro j hj
  have := c.envHold.isLt
  rw [Nat.mul_one, Nat.mul_one, envAdvance_hold (by omega)]
  exact if_congr (by omega) rfl rfl

theorem segmentLasts_decay (h : r.decayInc = envInc c b) :
    SegmentLasts c r .decay (envInc c b).toNat (envCount c b) .dead :=
  segmentLasts_of_envRamp fun _ => h ▸ envAdvance_decay

theorem envFrames_add (j k : Nat) : envFrames c (j + k) r = envFrames c k (envFrames c j r) := by
  induction j generalizing r with
  | zero => rw [Nat.zero_add, envFrames]
  | succ j ih => rw [Nat.add_right_comm, envFrames, envFrames, ih]

theorem envFrames_succ (k : Nat) : envFrames c (k + 1) r = envAdvance c (envFrames c k r) := envFrames_add k 1

theorem envFrames_dead {t : Nat} (k : Nat) : envFrames c k (envAt r .dead t) = envAt r .dead t := by
  induction k with
  | zero => rfl
  | succ k ih => rw [envFrames, envAdvance_dead, ih]

section

variable {q n : Nat} (h : SegmentLasts c r seg q n after)

include h

theorem envFrames_within {k : Nat} (hk : k < n) : envFrames c k (envAt r seg 0) = envAt r seg (k * q) := by
  induction k with
  | zero => rw [envFrames, Nat.zero_mul]
  | succ k ih => rw [envFrames_succ, ih (by omega), h k (by omega), if_pos hk]

theorem envFrames_through (hn : 0 < n) : envFrames c n (envAt r seg 0) = envAt r after 0 := by
  obtain ⟨m, rfl⟩ : ∃ m, n = m + 1 := ⟨n - 1, by omega⟩
  rw [envFrames_succ, envFrames_within h (by omega), h m (by omega), if_neg (by omega)]

/-- The frames from the start of a segment: those of its own, then those of the next one. -/
theorem envFrames_segment (hn : 0 < n) (k : Nat) :
    envFrames c k (envAt r seg 0)
      = if k < n then envAt r seg (k * q) else envFrames c (k - n) (envAt r after 0) := by
  split_ifs with hk
  · exact envFrames_within h hk
  · rw [← envFrames_through h hn, ← envFrames_add, Nat.add_sub_cancel' (by omega)]

end

/-- All frames of a triggered envelope: Attack, Hold and Decay, each as long as its count, then dead. -/
theorem envFrames_triggered {a d : Byte} (ha : r.attackInc = envInc c a) (hd : r.decayInc = envInc c d) (k : Nat) :
    envFrames c k (envAt r .attack 0)
      = if k < envCount c a then envAt r .attack (k * (envInc c a).toNat)
        else if k < envCount c a + (c.envHold.toNat + 1) then envAt r .hold (k - envCount c a)
        else if k < envCount c a + (c.envHold.toNat + 1) + envCount c d then
          envAt r .decay ((k - (envCount c a + (c.envHold.toNat + 1))) * (envInc c d).toNat)
        else envAt r .dead 0 := by
  obtain ⟨hapos, _⟩ := envCount_range c a
  obtain ⟨hdpos, _⟩ := envCount_range c d
  rw [envFrames_segment (segmentLasts_attack ha) hapos, envFrames_segment segmentLasts_hold (Nat.succ_pos _),
    envFrames_segment (segmentLasts_decay hd) hdpos, envFrames_dead, Nat.mul_one, Nat.sub_sub]
  exact if_congr Iff.rfl rfl (if_congr (by omega) rfl (if_congr (by omega) rfl rfl))

end

/-- Settles O41: the frames of the three segments follow one another, and no phase reaches 2^32 in its segment. -/
theorem envelopeLastsItsCounts : Obligations.EnvelopeLastsItsCounts := by
  refine ⟨fun c b h => envCount_reference h b, fun c b => ?_, ?_⟩
  · obtain ⟨hmin, hmax⟩ := envCount_range c b
    exact ⟨hmin, hmax, (envInc_le_iff b _).1 le_rfl, fun q => (envInc_le_iff b q).2⟩
  · rintro c r a d toHold toDecay toDead hseg hphase ha hd rfl rfl rfl k
    have := c.envHold.isLt
    rw [eq_envAt_zero hseg hphase, envFrames_triggered ha hd]
    split_ifs with hattack hhold hdecay
    · exact ⟨rfl, envLevel_envAt ((mul_envInc_lt_iff a k).2 hattack)⟩
    · exact ⟨rfl, envLevel_envAt (by omega)⟩
    · exact ⟨rfl, envLevel_envAt ((mul_envInc_lt_iff d _).2 (by omega))⟩
    · exact ⟨rfl, envLevel_envAt (by decide)⟩

end Sys2Proof.Envelope
end

section
/-!
PROOFS. The filter (O42): the saturation as a clamp, which fits a sample, and the three values of a step as R190 writes
them, in its order.
-/

namespace Sys2Proof.Filter

open Sys2Proof Sys2Proof.Machine Sys2Proof.Laws Sys2Proof.Oscillator

/-! Saturation, and products of Q15 (00_scope.md R7). -/

theorem sat16_eq (v : Int) : sat16 v = max (-32768) (min 32767 v) := by
  unfold sat16
  split
  · omega
  · split <;> omega

/-- A saturated value is already in the range of a sample, so narrowing it loses nothing. -/
theorem toInt_toSample_sat16 (v : Int) : (toSample (sat16 v)).toInt = sat16 v := by
  have hrange : -32768 ≤ sat16 v ∧ sat16 v ≤ 32767 := by
    rw [sat16_eq]
    omega
  exact toInt_toSample hrange.1 hrange.2

theorem asr_fifteen (v : Int) : asr v 15 = v / 32768 := asr_eq_div v 15

/-! The three values of a step (46_filter.md R190). -/

section

variable (r : Instrument) (input : Int)

theorem svfLow_eq :
    svfLow r = max (-32768) (min 32767 (r.low.toInt + r.fCoef.toNat * r.band.toInt / 32768)) := by
  rw [svfLow, sat16_eq, asr_fifteen]

theorem svfHigh_eq :
    svfHigh r input = max (-32768) (min 32767 (input - svfLow r - r.dCoef.toNat * r.band.toInt / 32768)) := by
  rw [svfHigh, sat16_eq, asr_fifteen]

theorem svfBand_eq :
    svfBand r input
      = max (-32768) (min 32767 (r.band.toInt + r.fCoef.toNat * svfHigh r input / 32768)) := by
  rw [svfBand, sat16_eq, asr_fifteen]

/-! The step returns the new low, and writes the new low and the new band alone. -/

@[simp] theorem svfStep_output : (svfStep r input).1 = svfLow r := rfl

@[simp] theorem toInt_low_svfStep : (svfStep r input).2.low.toInt = svfLow r := toInt_toSample_sat16 _

@[simp] theorem toInt_band_svfStep : (svfStep r input).2.band.toInt = svfBand r input := toInt_toSample_sat16 _

theorem svfStep_eq :
    (svfStep r input).2 = { r with low := (svfStep r input).2.low, band := (svfStep r input).2.band } := rfl

end

/-- Settles O42: the high is formed from the new low, and the band from that high. -/
theorem filterStepFollowsTheRecursion : Obligations.FilterStepFollowsTheRecursion := by
  intro r input low high band hlow hhigh hband
  obtain rfl : low = svfLow r := hlow.trans (svfLow_eq r).symm
  obtain rfl : high = svfHigh r input := hhigh.trans (svfHigh_eq r input).symm
  obtain rfl : band = svfBand r input := hband.trans (svfBand_eq r input).symm
  exact ⟨svfStep_output r input, toInt_low_svfStep r input, toInt_band_svfStep r input, svfStep_eq r input⟩

end Sys2Proof.Filter
end

section
/-!
PROOFS. The gain stages (O44): the bit replication as a sum, and the one bound behind every gain, which scales an integer
by a fraction between 0 and 1 and rounds down.
-/

namespace Sys2Proof.Gain

open Sys2Proof Sys2Proof.Machine Sys2Proof.Laws Sys2Proof.Oscillator Sys2Proof.Filter

/-! `byte_to_q15` (47_gain_mixer.md R198). -/

/-- The two parts have no bit in common, so the OR is a sum. -/
theorem toNat_byteToQ15 (b : Byte) : (byteToQ15 b).toNat = 128 * b.toNat + b.toNat / 2 := by
  have hb := b.isLt
  have hdisjoint : b.toNat <<< 7 ||| b.toNat / 2 = b.toNat <<< 7 + b.toNat / 2 :=
    (Nat.shiftLeft_add_eq_or_of_lt (by omega) b.toNat).symm
  have hhigh : (b.setWidth 15 <<< 7).toNat = b.toNat <<< 7 := by
    rw [BitVec.toNat_shiftLeft, BitVec.toNat_setWidth_of_le (by decide), Nat.shiftLeft_eq]
    omega
  have hlow : ((b >>> 1).setWidth 15).toNat = b.toNat / 2 := by
    rw [BitVec.toNat_setWidth_of_le (by decide), BitVec.toNat_ushiftRight, Nat.shiftRight_one]
  rw [byteToQ15, BitVec.toNat_or, hhigh, hlow, hdisjoint, Nat.shiftLeft_eq, Nat.mul_comm]

theorem byteToQ15_lt {b b' : Byte} (h : b < b') : byteToQ15 b < byteToQ15 b' := by
  rw [BitVec.lt_def] at h
  rw [BitVec.lt_def, toNat_byteToQ15, toNat_byteToQ15]
  omega

/-! Scaling by k / n with k at most n, rounded down (R204 (a), (b)). -/

section

variable {a k n : Int}

theorem scaled_of_nonneg (ha : 0 ≤ a) (hn : 0 < n) (hk : 0 ≤ k) (hkn : k ≤ n) : 0 ≤ a * k / n ∧ a * k / n ≤ a :=
  ⟨Int.ediv_nonneg (mul_nonneg ha hk) hn.le, Int.ediv_le_of_le_mul hn (mul_le_mul_of_nonneg_left hkn ha)⟩

theorem le_scaled_of_neg (ha : a < 0) (hn : 0 < n) (hkn : k ≤ n) : a ≤ a * k / n :=
  Int.le_ediv_of_mul_le hn (mul_le_mul_of_nonpos_left hkn ha.le)

theorem scaled_of_neg (ha : a < 0) (hn : 0 < n) (hk : 0 ≤ k) (hkn : k ≤ n) : a ≤ a * k / n ∧ a * k / n ≤ 0 :=
  ⟨le_scaled_of_neg ha hn hkn,
    Int.ediv_le_of_le_mul hn ((mul_nonpos_of_nonpos_of_nonneg ha.le hk).trans_eq (zero_mul n).symm)⟩

/-- The floor of a value below 0 is at most -1. -/
theorem scaled_of_neg_of_pos (ha : a < 0) (hn : 0 < n) (hk : 0 < k) (hkn : k ≤ n) :
    a ≤ a * k / n ∧ a * k / n ≤ -1 :=
  ⟨le_scaled_of_neg ha hn hkn, Int.le_sub_one_of_lt (Int.ediv_neg_of_neg_of_pos (mul_neg_of_neg_of_pos ha hk) hn)⟩

end

/-! `satmul_q15` (R197). -/

theorem toInt_range (a : Sample) : -32768 ≤ a.toInt ∧ a.toInt ≤ 32767 :=
  ⟨BitVec.le_toInt a, Int.le_of_lt_add_one (BitVec.toInt_lt (x := a))⟩

theorem satmulQ15_eq (a b : Int) : satmulQ15 a b = max (-32768) (min 32767 (a * b / 32768)) := by
  rw [satmulQ15, sat16_eq, asr_fifteen]

/-- A product whose factors are not both at their largest magnitude stays inside the range of a sample. -/
theorem satmulQ15_of_abs_le {a b : Int} (h : |a * b| ≤ 32767 * 32768) : satmulQ15 a b = a * b / 32768 := by
  rw [abs_le] at h
  rw [satmulQ15_eq]
  omega

theorem abs_mul_le_mul {a b m n : Int} (ha : |a| ≤ m) (hb : |b| ≤ n) : |a * b| ≤ m * n := by
  rw [abs_mul]
  exact mul_le_mul ha hb (abs_nonneg b) ((abs_nonneg a).trans ha)

theorem abs_toInt_le (a : Sample) : |a.toInt| ≤ 32768 := by
  obtain ⟨hlow, hhigh⟩ := toInt_range a
  exact abs_le.2 ⟨hlow, by omega⟩

theorem abs_toInt_le_of_ne {a : Sample} (h : a ≠ 0x8000#16) : |a.toInt| ≤ 32767 := by
  obtain ⟨hlow, hhigh⟩ := toInt_range a
  have hne : a.toInt ≠ -32768 := fun ha => h (BitVec.eq_of_toInt_eq ha)
  exact abs_le.2 ⟨by omega, hhigh⟩

theorem satmulQ15_samples (a b : Sample) :
    satmulQ15 a.toInt b.toInt = if a = 0x8000#16 ∧ b = 0x8000#16 then 32767 else a.toInt * b.toInt / 32768 := by
  split_ifs with hboth
  · obtain ⟨rfl, rfl⟩ := hboth
    decide
  · refine satmulQ15_of_abs_le ?_
    obtain ha | hb := not_and_or.1 hboth
    · exact abs_mul_le_mul (abs_toInt_le_of_ne ha) (abs_toInt_le b)
    · rw [mul_comm]
      exact abs_mul_le_mul (abs_toInt_le_of_ne hb) (abs_toInt_le a)

/-- A product with a coefficient never saturates. -/
theorem satmulQ15_coefficient (a : Sample) (k : BitVec 15) : satmulQ15 a.toInt k.toNat = a.toInt * k.toNat / 32768 := by
  have hk : |(k.toNat : Int)| ≤ 32767 := by
    rw [Nat.abs_cast]
    exact Int.ofNat_le.2 (Nat.le_of_lt_succ k.isLt)
  refine satmulQ15_of_abs_le ?_
  rw [mul_comm]
  exact abs_mul_le_mul hk (abs_toInt_le a)

/-! The envelope's gain (R199). -/

theorem envGain_eq (o : Int) (lvl : Nat) : envGain o lvl = o * lvl / 65536 := asr_eq_div _ 16

theorem envGain_level_zero (o : Int) : envGain o 0 = 0 := by
  rw [envGain_eq, Nat.cast_zero, mul_zero, Int.zero_ediv]

/-- Settles O44: the coefficient and the level are both a fraction below 1, so one bound on scaling serves the two. -/
theorem coefficientsReplicateBitsAndGainsNeverAmplify :
    Obligations.CoefficientsReplicateBitsAndGainsNeverAmplify := by
  refine ⟨⟨toNat_byteToQ15, fun _ _ => byteToQ15_lt, by decide, by decide⟩, satmulQ15_samples, fun a k => ?_,
    fun o lvl hlvl => ?_⟩
  · have hk : (0 : Int) ≤ k.toNat ∧ (k.toNat : Int) ≤ 32768 := by omega
    rw [satmulQ15_coefficient]
    exact ⟨fun ha => scaled_of_nonneg ha (by decide) hk.1 hk.2, fun ha => scaled_of_neg ha (by decide) hk.1 hk.2⟩
  · have hlvl' : (0 : Int) ≤ lvl ∧ (lvl : Int) ≤ 65536 := by omega
    refine ⟨?_, ?_, fun hzero => hzero ▸ envGain_level_zero _⟩ <;> rw [envGain_eq]
    · exact fun ho => scaled_of_nonneg ho (by decide) hlvl'.1 hlvl'.2
    · exact fun ho hpos => scaled_of_neg_of_pos ho (by decide) (Int.natCast_pos.2 hpos) hlvl'.2

end Sys2Proof.Gain
end

section
/-!
PROOFS. A voice's frame (O43): no stage writes what a later one reads of the state before the frame, so every value of the
chain is one of that state.
-/

namespace Sys2Proof.VoiceChain

open Sys2Proof Sys2Proof.Machine Sys2Proof.Laws Sys2Proof.Filter Sys2Proof.Gain

variable {c : Config} (r : Instrument)

/-! The envelope from any state (45_envelope.md R181, R182). -/

theorem envLevel_eq :
    (envLevel r : Int)
      = if r.seg = .attack then ((r.envPhase.toNat / 65536 : Nat) : Int)
        else if r.seg = .hold then 65535
        else if r.seg = .decay then 65535 - ((r.envPhase.toNat / 65536 : Nat) : Int)
        else 0 := by
  have hphase := r.envPhase.isLt
  cases hseg : r.seg <;> simp only [envLevel, hseg, Oscillator.toNat_upperHalf, reduceCtorEq, if_true, if_false]
  case decay => omega
  all_goals rfl

/-- Where the envelope stands: its segment and its phase. -/
def envPlace (r : Instrument) : Segment × Nat := (r.seg, r.envPhase.toNat)

theorem envPlace_envRamp (inc : BitVec 33) (after : Segment) :
    envPlace (envRamp r inc after)
      = if 2 ^ 32 ≤ r.envPhase.toNat + inc.toNat then (after, 0) else (r.seg, r.envPhase.toNat + inc.toNat) := by
  rw [envRamp]
  split_ifs with hreached
  · rfl
  · exact congrArg (Prod.mk r.seg) ((BitVec.toNat_ofNat _ _).trans (Nat.mod_eq_of_lt (by omega)))

theorem envPlace_envAdvance :
    envPlace (envAdvance c r)
      = if r.seg = .attack then
          if 2 ^ 32 ≤ r.envPhase.toNat + r.attackInc.toNat then (.hold, 0)
          else (.attack, r.envPhase.toNat + r.attackInc.toNat)
        else if r.seg = .hold then
          if c.envHold.toNat ≤ r.envPhase.toNat then (.decay, 0) else (.hold, r.envPhase.toNat + 1)
        else if r.seg = .decay then
          if 2 ^ 32 ≤ r.envPhase.toNat + r.decayInc.toNat then (.dead, 0)
          else (.decay, r.envPhase.toNat + r.decayInc.toNat)
        else (.dead, r.envPhase.toNat) := by
  cases hseg : r.seg <;> simp only [envAdvance, hseg, reduceCtorEq, if_true, if_false]
  case attack => rw [envPlace_envRamp, hseg]
  case hold =>
    have hhold := c.envHold.isLt
    simp only [BitVec.le_def]
    split_ifs
    · rfl
    · exact congrArg (Prod.mk Segment.hold) (BitVec.toNat_add_of_lt (show r.envPhase.toNat + 1 < 2 ^ 32 by omega))
  case decay => rw [envPlace_envRamp, hseg]
  case dead => rw [envPlace, hseg]

/-! The chain of a `SYNTH` voice (47_gain_mixer.md R201). -/

/-- The filter's input: the wave at the gain of the level, both from the state before the frame. -/
def filterInput (c : Config) (r : Instrument) : Int :=
  envGain (oscWave c r.shape r.oscPhase r.timbre r.color).toInt (envLevel r)

/-- The registers once the oscillator and the envelope have advanced, before the filter. -/
def advanced (c : Config) (r : Instrument) : Instrument := envAdvance c (oscStep c r).2

theorem advanced_eq :
    advanced c r = { r with
      oscPhase := r.oscPhase + r.phaseInc, seg := (advanced c r).seg, envPhase := (advanced c r).envPhase } :=
  envAdvance_eq _

theorem svfLow_advanced : svfLow (advanced c r) = svfLow r := by
  rw [advanced_eq]
  rfl

theorem svfBand_advanced (input : Int) : svfBand (advanced c r) input = svfBand r input := by
  rw [advanced_eq]
  rfl

/-- The volume's multiply does not saturate, as the filter's low is a sample. -/
theorem satmulQ15_svfLow (k : BitVec 15) : satmulQ15 (svfLow r) k.toNat = svfLow r * k.toNat / 32768 := by
  rw [← toInt_low_svfStep r 0, satmulQ15_coefficient]

theorem voiceSample_synth (h : r.kind = .synth) :
    voiceSample c r
      = (svfLow r * r.volQ15.toNat / 32768, (svfStep (advanced c r) (filterInput c r)).2) := by
  rw [← satmulQ15_svfLow, ← svfLow_advanced (c := c), voiceSample, h]
  rfl

theorem voiceSample_of_ne_synth (h : r.kind ≠ .synth) : voiceSample c r = (0, r) := by
  rw [voiceSample]
  split
  · exact absurd ‹_› h
  · rfl

/-- Settles O43: each register after the frame is that of the stage that writes it. -/
theorem voiceSampleFollowsTheChain : Obligations.VoiceSampleFollowsTheChain := by
  refine ⟨?_, fun c r => voiceSample_of_ne_synth r⟩
  rintro c r o lvl g low high band next hkind rfl hlvl hnext hg hlow hhigh hband
  obtain rfl : lvl = envLevel r := hlvl.trans (envLevel_eq r).symm
  obtain rfl : g = filterInput c r := hg.trans (envGain_eq _ _).symm
  obtain rfl : low = svfLow r := hlow.trans (svfLow_eq r).symm
  obtain rfl : high = svfHigh r (filterInput c r) := hhigh.trans (svfHigh_eq r _).symm
  obtain rfl : band = svfBand r (filterInput c r) := hband.trans (svfBand_eq r _).symm
  have hframe := voiceSample_eq (c := c) r
  rw [voiceSample_synth r hkind] at hframe
  refine ⟨_, voiceSample_synth r hkind, hframe, ?_, ?_, ?_, ?_⟩
  · rw [svfStep_eq, advanced_eq]
    exact BitVec.toNat_add _ _
  · exact (envPlace_envAdvance (oscStep c r).2).trans hnext.symm
  · rw [toInt_low_svfStep, svfLow_advanced]
  · rw [toInt_band_svfStep, svfBand_advanced]

end Sys2Proof.VoiceChain
end

section
/-!
PROOFS. Silence (O52): a silent voice renders 0 and stays silent, so a frame that triggers no voice sums zeros.
-/

namespace Sys2Proof.Silence

open Sys2Proof Sys2Proof.Machine Sys2Proof.Laws Sys2Proof.Filter Sys2Proof.Gain Sys2Proof.VoiceChain
open Sys2Proof.MemorySpaces

variable {c : Config} {e e' : Engine}

/-! The sequencer's part of a frame that triggers no voice (48_render_sequencer.md R207 to R209). -/

theorem trig_congr (h : e'.trigMem = e.trigMem) (v : VoiceIx) (g : GridIx) : e'.trig v g = e.trig v g := by
  rw [Engine.trig, Engine.trig, h]

theorem foldl_tickVoice_untriggered {g : GridIx} (h : ∀ v, e.trig v g = false) (l : List VoiceIx) :
    l.foldl (tickVoice c g) e = e := by
  induction l with
  | nil => rfl
  | cons v l ih =>
    have hstep : tickVoice c g e v = e := by
      rw [tickVoice, h v]
      rfl
    rw [List.foldl_cons, hstep, ih]

theorem voice_tick_untriggered (h : ∀ v, e.trig v e.curStep = false) (v : VoiceIx) :
    (tick c e).voice v = e.voice v := by
  have hvoices : allVoices.foldl (tickVoice c e.curStep) { e with playStep := e.curStep, playValid := true }
      = { e with playStep := e.curStep, playValid := true } :=
    foldl_tickVoice_untriggered (e := { e with playStep := e.curStep, playValid := true })
      (fun v => (trig_congr (e := e) rfl v e.curStep).trans (h v)) allVoices
  rw [tick]
  generalize allVoices.foldl _ _ = ticked at hvoices ⊢
  rw [hvoices]
  rfl

theorem voice_sequencerStep_untriggered
    (h : e.playing = false ∨ 1 < e.countdown.toNat ∨ ∀ v, e.trig v e.curStep = false) (v : VoiceIx) :
    (sequencerStep c e).voice v = e.voice v := by
  have htick : (∀ v, e.trig v e.curStep = false) → (tick c e).voice v = e.voice v :=
    fun huntriggered => voice_tick_untriggered huntriggered v
  rw [sequencerStep_eq]
  generalize tick c e = ticked at htick ⊢
  split_ifs with hplaying hdue
  · obtain hstopped | hcounting | huntriggered := h
    · exact absurd (hstopped.symm.trans hplaying) Bool.false_ne_true
    · omega
    · exact htick huntriggered
  · rfl
  · rfl

/-! A silent voice (47_gain_mixer.md R204; 46_filter.md R192). -/

/-- What `Quiet` says of one voice: dead, with a cleared filter. -/
def Silent (r : Instrument) : Prop := r.seg = .dead ∧ r.low = 0#16 ∧ r.band = 0#16

theorem silent_of_quiet {v : VoiceIx} (h : Quiet e) (hv : v ∈ renderedVoices) : Silent (e.voice v) := h v hv

theorem quiet_of_voices (h : Quiet e) (hvoices : ∀ v, e'.voice v = e.voice v) : Quiet e' := fun v hv => by
  rw [hvoices]
  exact h v hv

section

variable {r : Instrument}

theorem filterInput_silent (h : Silent r) : filterInput c r = 0 := by
  obtain ⟨hseg, _, _⟩ := h
  rw [filterInput, envLevel, hseg]
  exact envGain_level_zero _

theorem svfLow_silent (h : Silent r) : svfLow r = 0 := by
  obtain ⟨_, hlow, hband⟩ := h
  simp [svfLow_eq, hlow, hband]

theorem svfBand_silent (h : Silent r) : svfBand r 0 = 0 := by
  have ⟨_, _, hband⟩ := h
  simp [svfBand_eq, svfHigh_eq, svfLow_silent h, hband]

theorem advanced_seg_dead (h : r.seg = .dead) : (advanced c r).seg = .dead := by
  rw [advanced, envAdvance, oscStep, h]

/-- A silent voice renders 0, of whatever type it is, and stays silent. -/
theorem voiceSample_silent (h : Silent r) : (voiceSample c r).1 = 0 ∧ Silent (voiceSample c r).2 := by
  by_cases hkind : r.kind = .synth
  · have ⟨hseg, _, _⟩ := h
    rw [voiceSample_synth r hkind, svfLow_silent h, filterInput_silent h]
    refine ⟨by simp, advanced_seg_dead hseg, BitVec.eq_of_toInt_eq ?_, BitVec.eq_of_toInt_eq ?_⟩
    · rw [toInt_low_svfStep, svfLow_advanced, svfLow_silent h]
      rfl
    · rw [toInt_band_svfStep, svfBand_advanced, svfBand_silent h]
      rfl
  · rw [voiceSample_of_ne_synth r hkind]
    exact ⟨rfl, h⟩

end

/-! The mix and the output (47_gain_mixer.md R202, R203). -/

/-- A rendered voice of a quiet state adds 0 to the sum. -/
theorem mixVoice_quiet {acc : Engine × Int} {v : VoiceIx} (h : Quiet acc.1) (hv : v ∈ renderedVoices) :
    Quiet (mixVoice c acc v).1 ∧ (mixVoice c acc v).2 = acc.2 := by
  obtain ⟨hzero, hsilent⟩ := voiceSample_silent (c := c) (silent_of_quiet h hv)
  refine ⟨fun v' hv' => ?_, ?_⟩
  · rw [mixVoice, voice_setVoice]
    split
    · exact hsilent
    · exact silent_of_quiet h hv'
  · rw [mixVoice, hzero, zero_mul, asr_fifteen]
    exact add_zero _

theorem foldl_mixVoice_quiet {l : List VoiceIx} (hl : l ⊆ renderedVoices) {acc : Engine × Int} (h : Quiet acc.1) :
    Quiet (l.foldl (mixVoice c) acc).1 ∧ (l.foldl (mixVoice c) acc).2 = acc.2 := by
  induction l generalizing acc with
  | nil => exact ⟨h, rfl⟩
  | cons v l ih =>
    obtain ⟨hv, hrest⟩ := List.cons_subset.1 hl
    obtain ⟨hquiet, hsum⟩ := mixVoice_quiet (c := c) h hv
    rw [List.foldl_cons, ← hsum]
    exact ih hrest hquiet

theorem mix_quiet (h : Quiet e) : Quiet (mix c e).1 ∧ (mix c e).2 = 0 :=
  foldl_mixVoice_quiet (List.Subset.refl _) h

theorem voice_emit (acc : Int) (v : VoiceIx) : (emit e acc).voice v = e.voice v := by
  rw [emit]
  generalize toSample (sat16 acc) = out
  generalize e.frameIdx + 1 = frameIdx
  simp only [Engine.voice, setAudio_x]

theorem audio_emit (acc : Int) (right : Bool) :
    (emit e acc).audio e.frameIdx.val right = toSample (sat16 acc) := by
  rw [emit]
  generalize toSample (sat16 acc) = out
  generalize e.frameIdx + 1 = frameIdx
  have hboth : ((e.setAudio e.frameIdx.val false out).setAudio e.frameIdx.val true out).audio e.frameIdx.val right
      = out := by
    cases right <;> simp [audio_setAudio]
  exact hboth

/-- Settles O52: the sequencer moves no voice, and from there every rendered voice adds 0 and stays silent. -/
theorem silenceStaysSilent : Obligations.SilenceStaysSilent := by
  intro c e hquiet huntriggered
  obtain ⟨hvoices, hsum⟩ := mix_quiet (c := c)
    (quiet_of_voices hquiet (voice_sequencerStep_untriggered (c := c) huntriggered))
  have hpart : outputPart (mix c (sequencerStep c e)).1 = outputPart e :=
    outputPart_mix.trans outputPart_sequencerStep
  obtain ⟨hindex, _⟩ := Prod.mk.inj hpart
  rw [frame, ← hindex]
  generalize mix c (sequencerStep c e) = m at hvoices hsum ⊢
  refine ⟨quiet_of_voices hvoices (voice_emit m.2), fun right => ?_⟩
  rw [audio_emit, hsum]
  rfl

end Sys2Proof.Silence
end

section
/-!
PROOFS. The render agent's folds over voices, and with them a tick and the two ends of a block (O45, O46, O48, O50).
-/

namespace Sys2Proof.RenderVoices

open Sys2Proof Sys2Proof.Machine Sys2Proof.Laws Sys2Proof.Schedule

variable {c : Config} {e e' e'' : Engine} {s : State} {rest : List Input}

/-! Parts of a step that write registers and `DIAG` alone. -/

/-- `e'` differs from `e` in the voices' registers and `DIAG` alone. -/
def VoicesWritten (e e' : Engine) : Prop := e' = { e with x := e'.x, diag := e'.diag }

theorem VoicesWritten.refl (e : Engine) : VoicesWritten e e := rfl

theorem VoicesWritten.trans (h : VoicesWritten e e') (h' : VoicesWritten e' e'') : VoicesWritten e e'' := by
  rw [VoicesWritten] at h h'
  rw [h] at h'
  exact h'

theorem VoicesWritten.foldl {f : Engine → VoiceIx → Engine} (hf : ∀ e v, VoicesWritten e (f e v)) (l : List VoiceIx)
    (e : Engine) : VoicesWritten e (l.foldl f e) := by
  induction l generalizing e with
  | nil => exact .refl e
  | cons v l ih => exact (hf e v).trans (ih (f e v))

theorem voicesWritten_pull (v : VoiceIx) : VoicesWritten e (pull c e v) := by
  rw [VoicesWritten, pull, raiseCycleIf_eq]
  rfl

theorem voicesWritten_trigger (v : VoiceIx) : VoicesWritten e (trigger c e v) := trigger_eq v

theorem voicesWritten_setPitch (v : VoiceIx) (note : Byte) : VoicesWritten e (setPitch c v note e) := rfl

/-- The registers that a fold over distinct voices leaves, each of whose passes gives its own voice the registers `new`
and leaves the others, where `new` reads of the voices the voice's own registers alone. -/
theorem voice_foldl {f : Engine → VoiceIx → Engine} {new : Engine → VoiceIx → Instrument}
    (hwritten : ∀ e v, VoicesWritten e (f e v))
    (hvoice : ∀ e v v', (f e v).voice v' = if v' = v then new e v else e.voice v')
    (hnew : ∀ e e' v, VoicesWritten e e' → e'.voice v = e.voice v → new e' v = new e v)
    {l : List VoiceIx} (hl : l.Nodup) (e : Engine) (v : VoiceIx) :
    (l.foldl f e).voice v = if v ∈ l then new e v else e.voice v := by
  induction l generalizing e with
  | nil => rfl
  | cons u l ih =>
    obtain ⟨hu, hrest⟩ := List.nodup_cons.1 hl
    rw [List.foldl_cons, ih hrest]
    by_cases hv : v = u
    · subst hv
      rw [if_neg hu, hvoice, if_pos rfl, if_pos List.mem_cons_self]
    · have hother : (f e u).voice v = e.voice v := by rw [hvoice, if_neg hv]
      simp only [List.mem_cons, hv, false_or, hother, hnew e (f e u) v (hwritten e u) hother]

theorem mem_allVoices (v : VoiceIx) : v ∈ allVoices := by
  revert v
  decide

theorem nodup_allVoices : allVoices.Nodup := by decide

/-- The rendered voices are those below 6 (00_scope.md R5). -/
theorem mem_renderedVoices (v : VoiceIx) : v ∈ renderedVoices ↔ v.toNat < 6 := by
  revert v
  decide

theorem nodup_renderedVoices : renderedVoices.Nodup := by decide

/-! What a pull reads (45_envelope.md R186). -/

/-- `e'` agrees with `e` in what a pull reads but the voice's own registers: the step context, the parameters and the
locks. -/
def SamePullSource (e e' : Engine) : Prop :=
  e' = { e' with
    playValid := e.playValid, playStep := e.playStep, curPattern := e.curPattern, parMem := e.parMem,
    lockHeadMem := e.lockHeadMem, poolMem := e.poolMem }

theorem VoicesWritten.samePullSource (h : VoicesWritten e e') : SamePullSource e e' := by
  rw [h]
  rfl

theorem samePullSource_voices (e : Engine) (x : Vector Instrument 16) (diag : BitVec 4) :
    SamePullSource e { e with x := x, diag := diag } := rfl

theorem pullContext_congr (h : SamePullSource e e') (v : VoiceIx) : pullContext e' v = pullContext e v := by
  rw [h]
  rfl

theorem pullParam_congr (h : SamePullSource e e') (v : VoiceIx) (id : ParamId) :
    pullParam c e' v id = pullParam c e v id := by
  rw [pullParam, pullParam, pullContext_congr h]
  rw [SamePullSource] at h
  exact resolveParam_congr (by rw [h]) (by rw [h]) (by rw [h]) v id _

/-- The latched registers of a voice depend on no other voice. -/
theorem latch_congr (h : SamePullSource e e') {v : VoiceIx} (hv : e'.voice v = e.voice v) :
    latch c e' v = latch c e v := by
  simp only [latch, hv, pullParam_congr h]

/-- A pull of the voice finds a corrupt list. -/
def FaultyPull (c : Config) (e : Engine) (v : VoiceIx) : Prop := PullFaults c e v (pullContext e v)

theorem faultyPull_congr (h : SamePullSource e e') (v : VoiceIx) : FaultyPull c e' v ↔ FaultyPull c e v := by
  rw [FaultyPull, FaultyPull, pullContext_congr h]
  rw [SamePullSource] at h
  exact pullFaults_congr (by rw [h]) (by rw [h]) (by rw [h]) v _

/-- The latched copies by parameter number (10_state.md R30; 45_envelope.md R186; 46_filter.md R191). -/
theorem latch_eq (v : VoiceIx) {value : ParamId → Byte} (h : ∀ id, value id = (pullParam c e v id).1) :
    latch c e v = { e.voice v with
      shape := value 24#5, timbre := value 25#5, color := value 26#5, fCoef := byteToQ15 (value 2#5),
      dCoef := BitVec.ofNat 15 (32767 - 127 * (value 3#5).toNat), volQ15 := byteToQ15 (value 0#5),
      attackInc := envInc c (value 6#5), decayInc := envInc c (value 7#5) } := by
  simp only [latch, h]
  rfl

/-! BlockStart (48_render_sequencer.md R206). -/

/-- The state in which BlockStart's pulls begin. -/
def blockBegun (e : Engine) : Engine := { e with busy := true, frameIdx := 0 }

theorem samePullSource_blockBegun (e : Engine) : SamePullSource e (blockBegun e) := rfl

theorem voicesWritten_blockStart : VoicesWritten (blockBegun e) (blockStart c e) :=
  .foldl (fun _ v => voicesWritten_pull v) renderedVoices _

/-- BlockStart writes registers, `DIAG` and the block state alone. -/
theorem blockStart_eq :
    blockStart c e
      = { e with x := (blockStart c e).x, diag := (blockStart c e).diag, busy := true, frameIdx := 0 } :=
  voicesWritten_blockStart

theorem voice_blockStart (v : VoiceIx) :
    (blockStart c e).voice v = if v.toNat < 6 then latch c e v else e.voice v := by
  have h := voice_foldl (f := pull c) (new := latch c) (fun _ v => voicesWritten_pull v) (fun _ v v' => voice_pull v v')
    (fun _ _ _ hwritten hv => latch_congr hwritten.samePullSource hv) nodup_renderedVoices (blockBegun e) v
  simp only [mem_renderedVoices, latch_congr (samePullSource_blockBegun e) rfl] at h
  exact h

theorem blockStart_diag :
    ((∃ v : VoiceIx, v.toNat < 6 ∧ FaultyPull c e v) → (blockStart c e).diag = e.diag ||| 2#4)
    ∧ ((∀ v : VoiceIx, v.toNat < 6 → ¬FaultyPull c e v) → (blockStart c e).diag = e.diag) := by
  have h := foldl_diag (f := pull c) (F := FaultyPull c) (fun _ v => voicesWritten_pull v) (fun _ v => pull_diag v)
    (fun _ _ _ v => faultyPull_congr (samePullSource_voices _ _ _) v) renderedVoices (blockBegun e)
  simp only [mem_renderedVoices, faultyPull_congr (samePullSource_blockBegun e)] at h
  exact h

theorem step_period (h : s.inputs = .period :: rest) (hidle : s.hw.busy = false) :
    step s = .next { s with hw := blockStart s.cfg s.hw, inputs := rest } := by
  rw [step_of_inputs_cons h, runInput, periodSignal, hidle]
  rfl

/-- Settles O45: the six pulls write six different voices, and none reads what another one has written. -/
theorem blockStartPullsTheRenderedVoices : Obligations.BlockStartPullsTheRenderedVoices := by
  intro s rest ctx hs hidle hctx
  obtain rfl : ctx = pullContext s.hw := funext hctx
  obtain ⟨hset, hkept⟩ := blockStart_diag (c := s.cfg) (e := s.hw)
  refine ⟨blockStart s.cfg s.hw, step_period hs hidle, blockStart_eq, hset, hkept, fun v hv => ?_,
    fun v value hv hvalue => ?_⟩
  · rw [voice_blockStart, if_neg (by omega)]
  · rw [voice_blockStart, if_pos hv]
    exact latch_eq v hvalue

/-- Settles O46: the guard of the period signal is the busy flag. -/
theorem periodSignalDuringABlockHasNoStep : Obligations.PeriodSignalDuringABlockHasNoStep := by
  intro s rest hs hbusy
  rw [step_of_inputs_cons hs, runInput, periodSignal, hbusy]
  rfl

/-! A strike: `SetPitch`, then `Trigger` (44_oscillator.md R166; 45_envelope.md R185). -/

/-- The registers of a voice struck at a pitch. -/
def struck (c : Config) (e : Engine) (v : VoiceIx) (pitch : BitVec 14) : Instrument :=
  { latch c e v with
    pitch := pitch, phaseInc := computePhaseIncrement c pitch, seg := .attack, envPhase := 0#32, oscPhase := 0#32 }

/-- The pitch of a note: its low seven bits in semitones. -/
def notePitch (note : Byte) : BitVec 14 := note.extractLsb' 0 7 ++ 0#7

theorem toNat_notePitch (note : Byte) : (notePitch note).toNat = note.toNat % 128 * 128 := by
  revert note
  decide

theorem notePitch_unique {note : Byte} {pitch : BitVec 14} (h : pitch.toNat = note.toNat % 128 * 128) :
    pitch = notePitch note := BitVec.eq_of_toNat_eq (h.trans (toNat_notePitch note).symm)

theorem voicesWritten_strike (v : VoiceIx) (note : Byte) : VoicesWritten e (trigger c (setPitch c v note e) v) :=
  (voicesWritten_setPitch v note).trans (voicesWritten_trigger v)

theorem latch_setPitch (v : VoiceIx) (note : Byte) :
    latch c (setPitch c v note e) v
      = { latch c e v with pitch := notePitch note, phaseInc := computePhaseIncrement c (notePitch note) } := by
  simp only [latch, pullParam_congr (voicesWritten_setPitch v note).samePullSource, voice_setPitch, if_true, notePitch]

theorem voice_strike (v v' : VoiceIx) (note : Byte) :
    (trigger c (setPitch c v note e) v).voice v' = if v' = v then struck c e v (notePitch note) else e.voice v' := by
  rw [voice_trigger, voice_setPitch, latch_setPitch]
  split_ifs <;> rfl

theorem struck_congr (h : VoicesWritten e e') {v : VoiceIx} (hv : e'.voice v = e.voice v) (pitch : BitVec 14) :
    struck c e' v pitch = struck c e v pitch := by
  rw [struck, struck, latch_congr h.samePullSource hv]

theorem strike_diag (v : VoiceIx) (note : Byte) :
    (FaultyPull c e v → (trigger c (setPitch c v note e) v).diag = e.diag ||| 2#4)
    ∧ (¬FaultyPull c e v → (trigger c (setPitch c v note e) v).diag = e.diag) := by
  rw [← faultyPull_congr (voicesWritten_setPitch (c := c) v note).samePullSource]
  exact pull_diag (e := setPitch c v note e) v

/-! Tick (48_render_sequencer.md R208). -/

/-- The state in which a tick's strikes begin. -/
def stepPlayed (e : Engine) : Engine := { e with playStep := e.curStep, playValid := true }

/-- The state after a tick's strikes. -/
def ticked (c : Config) (e : Engine) : Engine := allVoices.foldl (tickVoice c e.curStep) (stepPlayed e)

theorem tick_eq_ticked : tick c e = { ticked c e with curStep := (ticked c e).curStep + 1#4 } := rfl

theorem voicesWritten_tickVoice (g : GridIx) (v : VoiceIx) : VoicesWritten e (tickVoice c g e v) := by
  rw [tickVoice]
  split
  · exact voicesWritten_strike v _
  · exact .refl e

theorem voicesWritten_ticked : VoicesWritten (stepPlayed e) (ticked c e) :=
  .foldl (fun _ v => voicesWritten_tickVoice _ v) allVoices _

/-- A tick writes registers, `DIAG`, the position and the step context alone. -/
theorem tick_eq :
    tick c e = { e with
      x := (tick c e).x, curStep := e.curStep + 1#4, playStep := e.curStep, playValid := true,
      diag := (tick c e).diag } := by
  have h : VoicesWritten (stepPlayed e) (ticked c e) := voicesWritten_ticked
  rw [tick_eq_ticked]
  generalize ticked c e = e' at h ⊢
  rw [h]
  rfl

/-- The registers that a tick at grid step g gives a voice. -/
def tickedVoice (c : Config) (g : GridIx) (e : Engine) (v : VoiceIx) : Instrument :=
  if e.trig v g then struck c e v (notePitch (e.gnote v g)) else e.voice v

theorem voice_tickVoice (g : GridIx) (v v' : VoiceIx) :
    (tickVoice c g e v).voice v' = if v' = v then tickedVoice c g e v else e.voice v' := by
  rw [tickVoice, tickedVoice]
  split
  · exact voice_strike v v' _
  · split_ifs with hv
    · rw [hv]
    · rfl

theorem gnote_congr_voices (h : VoicesWritten e e') (v : VoiceIx) (g : GridIx) : e'.gnote v g = e.gnote v g := by
  rw [h]
  rfl

theorem tickedVoice_congr (h : VoicesWritten e e') {v : VoiceIx} (hv : e'.voice v = e.voice v) (g : GridIx) :
    tickedVoice c g e' v = tickedVoice c g e v := by
  have htrig : e'.trigMem = e.trigMem := by rw [h]
  rw [tickedVoice, tickedVoice, Silence.trig_congr htrig, gnote_congr_voices h, struck_congr h hv, hv]

theorem voice_tick (v : VoiceIx) : (tick c e).voice v = tickedVoice c e.curStep (stepPlayed e) v := by
  have h := voice_foldl (f := tickVoice c e.curStep) (new := tickedVoice c e.curStep)
    (fun _ v => voicesWritten_tickVoice _ v) (fun _ v v' => voice_tickVoice _ v v')
    (fun _ _ _ hwritten hv => tickedVoice_congr hwritten hv _) nodup_allVoices (stepPlayed e) v
  rw [if_pos (mem_allVoices v), ← ticked] at h
  rw [tick_eq_ticked]
  generalize ticked c e = e' at h ⊢
  exact h

/-- A pass of a tick finds a corrupt list. -/
def TickFaults (c : Config) (g : GridIx) (e : Engine) (v : VoiceIx) : Prop :=
  e.trig v g = true ∧ FaultyPull c e v

theorem tickVoice_diag (g : GridIx) (v : VoiceIx) :
    (TickFaults c g e v → (tickVoice c g e v).diag = e.diag ||| 2#4)
    ∧ (¬TickFaults c g e v → (tickVoice c g e v).diag = e.diag) := by
  rw [TickFaults, tickVoice]
  split
  · rename_i htrig
    simpa only [htrig, true_and] using strike_diag v _
  · rename_i htrig
    exact ⟨fun h => absurd h.1 htrig, fun _ => rfl⟩

/-- In a tick the step context is the step being played (45_envelope.md R186). -/
theorem tickFaults_stepPlayed (g : GridIx) (v : VoiceIx) :
    TickFaults c g (stepPlayed e) v
      ↔ e.trig v g = true ∧ PullFaults c e v (some (e.curPat v, e.curStep.setWidth 6)) :=
  and_congr_right fun _ => pullFaults_congr (e := e) (e' := stepPlayed e) rfl rfl rfl v _

theorem tick_diag :
    ((∃ v, TickFaults c e.curStep (stepPlayed e) v) → (tick c e).diag = e.diag ||| 2#4)
    ∧ ((∀ v, ¬TickFaults c e.curStep (stepPlayed e) v) → (tick c e).diag = e.diag) := by
  have h := foldl_diag (f := tickVoice c e.curStep) (F := TickFaults c e.curStep)
    (fun _ v => voicesWritten_tickVoice _ v) (fun _ v => tickVoice_diag _ v)
    (fun _ _ _ v => and_congr_right fun _ => faultyPull_congr (samePullSource_voices _ _ _) v) allVoices (stepPlayed e)
  rw [← ticked] at h
  simp only [mem_allVoices, true_and, true_imp_iff] at h
  rw [tick_eq_ticked]
  generalize ticked c e = e' at h ⊢
  exact h

/-- Settles O48: the strikes of a tick are of sixteen different voices, and none reads what another one has written. -/
theorem tickTriggersTheVoicesOfTheStep : Obligations.TickTriggersTheVoicesOfTheStep := by
  rintro c e _ _ rfl rfl
  obtain ⟨hset, hkept⟩ := tick_diag (c := c) (e := e)
  simp only [tickFaults_stepPlayed] at hset hkept
  refine ⟨?_, ?_, hset, fun h => hkept fun v ⟨htrig, hfault⟩ => h v htrig hfault, fun v pitch hpitch => ?_⟩
  · have hcurStep : (tick c e).curStep = e.curStep + 1#4 := by rw [tick_eq]
    rw [hcurStep]
    exact tick_eq
  · rw [tick_eq]
    exact BitVec.toNat_add _ _
  · rw [voice_tick, notePitch_unique hpitch]
    rfl

/-! BlockEnd (48_render_sequencer.md R212). -/

theorem blockEnd_of_pending (h : e.pendingNote = true) :
    blockEnd c e = { trigger c (setPitch c e.selVoice e.pendingNoteValue e) e.selVoice with
      pendingNote := false, busy := false } := by
  rw [blockEnd]
  dsimp only
  rw [if_pos h]

theorem blockEnd_of_not_pending (h : e.pendingNote = false) : blockEnd c e = { e with busy := false } := by
  rw [blockEnd]
  dsimp only
  rw [if_neg (by rw [h]; decide)]

/-- BlockEnd writes registers, `DIAG`, the request and the busy flag alone. -/
theorem blockEnd_eq :
    blockEnd c e
      = { e with x := (blockEnd c e).x, diag := (blockEnd c e).diag, pendingNote := false, busy := false } := by
  cases hpending : e.pendingNote with
  | true =>
    have h := voicesWritten_strike (c := c) (e := e) e.selVoice e.pendingNoteValue
    rw [blockEnd_of_pending hpending]
    generalize trigger c (setPitch c e.selVoice e.pendingNoteValue e) e.selVoice = e' at h ⊢
    rw [h]
  | false =>
    rw [blockEnd_of_not_pending hpending, ← hpending]

theorem voice_blockEnd (v : VoiceIx) :
    (blockEnd c e).voice v
      = if e.pendingNote = true ∧ v = e.selVoice then struck c e v (notePitch e.pendingNoteValue) else e.voice v := by
  cases hpending : e.pendingNote with
  | true =>
    have h := voice_strike (c := c) (e := e) e.selVoice v e.pendingNoteValue
    rw [blockEnd_of_pending hpending]
    simp only [true_and]
    split_ifs with hv
    · rw [if_pos hv, ← hv] at h
      rw [← hv]
      exact h
    · rw [if_neg hv] at h
      exact h
  | false =>
    rw [blockEnd_of_not_pending hpending]
    rfl

theorem blockEnd_diag :
    (e.pendingNote = true ∧ FaultyPull c e e.selVoice → (blockEnd c e).diag = e.diag ||| 2#4)
    ∧ (e.pendingNote = false ∨ ¬FaultyPull c e e.selVoice → (blockEnd c e).diag = e.diag) := by
  cases hpending : e.pendingNote with
  | true =>
    have h := strike_diag (c := c) (e := e) e.selVoice e.pendingNoteValue
    rw [blockEnd_of_pending hpending]
    simpa using h
  | false =>
    rw [blockEnd_of_not_pending hpending]
    simp

theorem step_render (h : s.inputs = .render :: rest) :
    step s = .next { s with hw := renderStep s.cfg s.hw, inputs := rest } := step_of_inputs_cons h

theorem renderStep_frame (hbusy : e.busy = true) (h : e.frameIdx.val < 128) : renderStep c e = frame c e := by
  rw [renderStep, if_pos hbusy, if_pos (show e.frameIdx.val < blockN from h)]

theorem renderStep_blockEnd (hbusy : e.busy = true) (h : e.frameIdx.val = 128) : renderStep c e = blockEnd c e := by
  rw [renderStep, if_pos hbusy, if_neg (show ¬e.frameIdx.val < blockN by rw [h]; decide)]

/-- Settles O50: BlockEnd is a strike of the selected voice where a note is pending. -/
theorem blockEndStrikesTheManualNote : Obligations.BlockEndStrikesTheManualNote := by
  intro s rest ctx hs hbusy hframes hctx
  obtain rfl : ctx = pullContext s.hw s.hw.selVoice := hctx
  obtain ⟨hset, hkept⟩ := blockEnd_diag (c := s.cfg) (e := s.hw)
  refine ⟨blockEnd s.cfg s.hw, ?_, blockEnd_eq, hset, hkept, fun v pitch hpitch => ?_⟩
  · rw [step_render hs, renderStep_blockEnd hbusy hframes]
  · rw [voice_blockEnd, notePitch_unique hpitch]
    rfl

end Sys2Proof.RenderVoices
end


section
/-!
PROOFS. One Frame (O47, O49, O53): what the sequencer's part, the mix and the output write, and with the first of them
where the ticks fall.
-/

namespace Sys2Proof.FrameStep

open Sys2Proof Sys2Proof.Machine Sys2Proof.Laws Sys2Proof.Filter Sys2Proof.VoiceChain Sys2Proof.Silence
open Sys2Proof.MemorySpaces Sys2Proof.RenderVoices

variable {c : Config} {e e' : Engine} {v : VoiceIx}

/-! The mix (47_gain_mixer.md R202): every rendered voice advances by its own frame and adds its scaled sample. -/

/-- What a voice's frame adds to the sum. -/
def scaledSample (c : Config) (r : Instrument) : Int := (voiceSample c r).1 * (c.mixCoeff.toNat : Int) / 32768

theorem mixVoice_eq (acc : Engine × Int) (v : VoiceIx) :
    mixVoice c acc v
      = (acc.1.setVoice v (voiceSample c (acc.1.voice v)).2, acc.2 + scaledSample c (acc.1.voice v)) := by
  rw [mixVoice, scaledSample, ← asr_fifteen]

theorem foldl_mixVoice_written (l : List VoiceIx) (acc : Engine × Int) :
    (l.foldl (mixVoice c) acc).1 = { acc.1 with x := (l.foldl (mixVoice c) acc).1.x } := by
  induction l generalizing acc with
  | nil => rfl
  | cons u l ih =>
    rw [List.foldl_cons, ih]
    rfl

/-- No voice that the loop has passed bears on a later one. -/
theorem foldl_mixVoice {l : List VoiceIx} (hl : l.Nodup) (acc : Engine × Int) :
    (∀ v, (l.foldl (mixVoice c) acc).1.voice v
      = if v ∈ l then (voiceSample c (acc.1.voice v)).2 else acc.1.voice v)
    ∧ (l.foldl (mixVoice c) acc).2 = acc.2 + (l.map fun v => scaledSample c (acc.1.voice v)).sum := by
  induction l generalizing acc with
  | nil => exact ⟨fun _ => rfl, (add_zero _).symm⟩
  | cons u l ih =>
    obtain ⟨hu, hrest⟩ := List.nodup_cons.1 hl
    have hother : ∀ v, v ≠ u → (mixVoice c acc u).1.voice v = acc.1.voice v := fun v hv => by
      rw [mixVoice_eq, voice_setVoice, if_neg hv]
    obtain ⟨hvoices, hsum⟩ := ih hrest (mixVoice c acc u)
    refine ⟨fun v => ?_, ?_⟩
    · rw [List.foldl_cons, hvoices]
      by_cases hv : v = u
      · subst hv
        rw [if_neg hu, if_pos List.mem_cons_self, mixVoice_eq, voice_setVoice_same]
      · simp only [List.mem_cons, hv, false_or, hother v hv]
    · have hlater : (l.map fun v => scaledSample c ((mixVoice c acc u).1.voice v))
          = l.map fun v => scaledSample c (acc.1.voice v) :=
        List.map_congr_left fun v hv => by rw [hother v fun h => hu (h ▸ hv)]
      rw [List.foldl_cons, hsum, hlater, mixVoice_eq, List.map_cons, List.sum_cons, add_assoc]

/-- The sum of the rendered voices' scaled samples. -/
def mixedSum (c : Config) (e : Engine) : Int := (renderedVoices.map fun v => scaledSample c (e.voice v)).sum

theorem mix_eq : mix c e = ({ e with x := (mix c e).1.x }, mixedSum c e) := by
  refine Prod.ext (foldl_mixVoice_written renderedVoices (e, 0)) ?_
  exact (foldl_mixVoice nodup_renderedVoices (e, 0)).2.trans (zero_add _)

theorem voice_mix (v : VoiceIx) :
    (mix c e).1.voice v = if v.toNat < 6 then (voiceSample c (e.voice v)).2 else e.voice v := by
  have h := (foldl_mixVoice (c := c) nodup_renderedVoices (e, 0)).1 v
  rw [← mix] at h
  simpa only [mem_renderedVoices] using h

/-! The output (47_gain_mixer.md R203). -/

theorem emit_eq (acc : Int) :
    emit e acc = { e with audioMem := (emit e acc).audioMem, frameIdx := e.frameIdx + 1 } := by
  rw [emit]
  generalize toSample (sat16 acc) = out
  generalize e.frameIdx + 1 = frameIdx
  rfl

/-- Both channels of the current frame take the output, no other frame. -/
theorem audio_emit_eq (acc : Int) (n : Nat) (right : Bool) :
    (emit e acc).audio n right = if n = e.frameIdx.val then toSample (sat16 acc) else e.audio n right := by
  split_ifs with hn
  · rw [hn, audio_emit]
  · rw [emit]
    generalize toSample (sat16 acc) = out
    generalize e.frameIdx + 1 = frameIdx
    have hkept : ((e.setAudio e.frameIdx.val false out).setAudio e.frameIdx.val true out).audio n right
        = e.audio n right := by simp [audio_setAudio, hn]
    exact hkept

/-! The whole Frame (48_render_sequencer.md R207). -/

/-- After the sequencer's part, a Frame writes registers, AUDIO and the frame count alone. -/
theorem frame_eq :
    frame c e = { sequencerStep c e with
      x := (frame c e).x, audioMem := (frame c e).audioMem, frameIdx := e.frameIdx + 1 } := by
  have hindex : (sequencerStep c e).frameIdx = e.frameIdx := congrArg Prod.fst outputPart_sequencerStep
  have hframe : frame c e = emit (mix c (sequencerStep c e)).1 (mix c (sequencerStep c e)).2 := rfl
  rw [hframe, ← hindex]
  generalize sequencerStep c e = e1
  rw [mix_eq]
  exact emit_eq _

theorem voice_frame (v : VoiceIx) :
    (frame c e).voice v
      = if v.toNat < 6 then (voiceSample c ((sequencerStep c e).voice v)).2 else (sequencerStep c e).voice v := by
  rw [frame, ← voice_mix]
  exact voice_emit _ v

theorem audio_frame (n : Nat) (right : Bool) :
    (frame c e).audio n right
      = if n = e.frameIdx.val then toSample (sat16 (mixedSum c (sequencerStep c e))) else e.audio n right := by
  have hpart : outputPart (mix c (sequencerStep c e)).1 = outputPart e := outputPart_mix.trans outputPart_sequencerStep
  have hsum : (mix c (sequencerStep c e)).2 = mixedSum c (sequencerStep c e) := by rw [mix_eq]
  have hframe : frame c e = emit (mix c (sequencerStep c e)).1 (mix c (sequencerStep c e)).2 := rfl
  obtain ⟨hindex, haudio⟩ := Prod.mk.inj hpart
  rw [hframe, audio_emit_eq, hsum, Engine.audio, hindex, haudio, Engine.audio]

theorem frameIdx_frame (h : e.frameIdx.val < 128) : (frame c e).frameIdx.val = e.frameIdx.val + 1 := by
  have hindex : (frame c e).frameIdx = e.frameIdx + 1 := by rw [frame_eq]
  rw [hindex]
  exact Fin.val_add_one_of_lt (Fin.lt_def.2 h)

/-- Settles O47: a Frame is the sequencer's part, the mix and the output, each of which is said above. -/
theorem frameMixesTheRenderedVoices : Obligations.FrameMixesTheRenderedVoices := by
  intro s rest hs hbusy hframes e1 out he1 hout
  obtain rfl : e1 = sequencerStep s.cfg s.hw := he1.trans sequencerStep_eq.symm
  obtain rfl : out = sat16 (mixedSum s.cfg (sequencerStep s.cfg s.hw)) := hout
  have hframe : frame s.cfg s.hw = { sequencerStep s.cfg s.hw with
      x := (frame s.cfg s.hw).x, audioMem := (frame s.cfg s.hw).audioMem, frameIdx := s.hw.frameIdx + 1 } := frame_eq
  have hindex : (frame s.cfg s.hw).frameIdx = s.hw.frameIdx + 1 := by rw [hframe]
  refine ⟨frame s.cfg s.hw, ?_, ?_, frameIdx_frame hframes, voice_frame, fun n right => ?_⟩
  · rw [step_render hs, renderStep_frame hbusy hframes]
  · rw [hindex]
    exact hframe
  · rw [audio_frame]
    split_ifs
    · exact toInt_toSample_sat16 _
    · rfl

/-! Voices that a Frame leaves alone (48_render_sequencer.md R210, R211). -/

/-- The sequencer's part leaves a voice that it does not trigger. -/
theorem voice_sequencerStep (h : e.playing = false ∨ 1 < e.countdown.toNat ∨ e.trig v e.curStep = false) :
    (sequencerStep c e).voice v = e.voice v := by
  have htick : e.trig v e.curStep = false → (tick c e).voice v = e.voice v := fun huntriggered => by
    have hkept : (stepPlayed e).trig v e.curStep = false := huntriggered
    rw [voice_tick, tickedVoice, hkept]
    rfl
  rw [sequencerStep_eq]
  generalize tick c e = e' at htick ⊢
  split_ifs with hplaying hdue
  · obtain hstopped | hcounting | huntriggered := h
    · exact absurd (hstopped.symm.trans hplaying) Bool.false_ne_true
    · omega
    · exact htick huntriggered
  · rfl
  · rfl

/-- Settles O53: the sequencer's part leaves the voice, and the mix renders none but `SYNTH` voices below 6. -/
theorem onlyRenderedSynthVoicesAdvance : Obligations.OnlyRenderedSynthVoicesAdvance := by
  intro c e v hvoice huntriggered
  rw [voice_frame, voice_sequencerStep huntriggered]
  split_ifs with hrendered
  · rw [voiceSample_of_ne_synth _ (hvoice.resolve_right (by omega))]
  · rfl

/-! Where the ticks fall (48_render_sequencer.md R209). -/

/-- The registers of the sequencer that a Frame's countdown reads and writes. -/
def clock (e : Engine) : GridIx × BitVec 32 × Bool × BitVec 32 := (e.curStep, e.countdown, e.playing, e.samplesPerStep)

theorem clock_frame : clock (frame c e) = clock (sequencerStep c e) := by
  rw [frame_eq]
  rfl

theorem clock_tick : clock (tick c e) = (e.curStep + 1#4, e.countdown, e.playing, e.samplesPerStep) := by
  rw [tick_eq]
  rfl

/-- A frame with a tick: the countdown is reloaded. -/
theorem clock_frame_due (hplaying : e.playing = true) (hdue : e.countdown.toNat ≤ 1) :
    clock (frame c e) = (e.curStep + 1#4, e.samplesPerStep, true, e.samplesPerStep) := by
  have htick : clock (tick c e) = (e.curStep + 1#4, e.countdown, e.playing, e.samplesPerStep) := clock_tick
  rw [clock_frame, sequencerStep_eq, if_pos hplaying, if_pos hdue]
  generalize tick c e = e' at htick ⊢
  simp only [clock, Prod.mk.injEq] at htick ⊢
  simp [htick, hplaying]

/-- A frame between two ticks: the countdown falls by 1. -/
theorem clock_frame_counting (hplaying : e.playing = true) (hcounting : ¬e.countdown.toNat ≤ 1) :
    clock (frame c e) = (e.curStep, e.countdown - 1#32, true, e.samplesPerStep) := by
  rw [clock_frame, sequencerStep_eq, if_pos hplaying, if_neg hcounting, clock, hplaying]

/-- Ticks so far n frames after a frame whose next tick is the `first`-th from there. -/
def ticksAfter (first period n : Nat) : Nat := if n < first then 0 else (n - first) / period + 1

/-- The countdown then, from the value `start`. -/
def countdownAfter (start first period n : Nat) : Nat := if n < first then start - n else period - (n - first) % period

/-- One more number either crosses a multiple of the period or counts one more within it. -/
theorem div_mod_succ {m period : Nat} (hperiod : 1 ≤ period) :
    (period - m % period ≤ 1 → (m + 1) / period = m / period + 1 ∧ (m + 1) % period = 0)
    ∧ (¬period - m % period ≤ 1 → (m + 1) / period = m / period ∧ (m + 1) % period = m % period + 1) := by
  have hlt := Nat.mod_lt m hperiod
  have hsplit := Nat.mod_add_div m period
  constructor <;> intro h <;> rw [Nat.div_mod_unique hperiod]
  · rw [Nat.mul_succ]
    omega
  · omega

/-- A due countdown: the next frame ticks and reloads it. -/
theorem ticksAfter_succ_due {start first period n : Nat} (hfirst : first = max 1 start) (hperiod : 1 ≤ period)
    (h : countdownAfter start first period n ≤ 1) :
    ticksAfter first period (n + 1) = ticksAfter first period n + 1
    ∧ countdownAfter start first period (n + 1) = period := by
  rw [countdownAfter] at h
  rw [ticksAfter, ticksAfter, countdownAfter]
  split_ifs at h with hn
  · have hlast : n + 1 = first := by omega
    simp [hlast, hn]
  · obtain ⟨hdiv, hmod⟩ := (div_mod_succ hperiod).1 h
    rw [if_neg (by omega), if_neg hn, if_neg (by omega), Nat.sub_add_comm (by omega), hdiv, hmod]
    exact ⟨rfl, Nat.sub_zero _⟩

/-- A countdown that is not due: the next frame counts down. -/
theorem ticksAfter_succ_counting {start first period n : Nat} (hfirst : first = max 1 start) (hperiod : 1 ≤ period)
    (h : ¬countdownAfter start first period n ≤ 1) :
    ticksAfter first period (n + 1) = ticksAfter first period n
    ∧ countdownAfter start first period (n + 1) = countdownAfter start first period n - 1 := by
  rw [countdownAfter] at h
  rw [ticksAfter, ticksAfter, countdownAfter, countdownAfter]
  split_ifs at h with hn
  · rw [if_pos (by omega), if_pos hn, if_pos (by omega), if_pos hn]
    exact ⟨rfl, by omega⟩
  · obtain ⟨hdiv, hmod⟩ := (div_mod_succ hperiod).2 h
    rw [if_neg (by omega), if_neg hn, if_neg (by omega), if_neg hn, Nat.sub_add_comm (by omega), hdiv, hmod]
    exact ⟨rfl, by omega⟩

/-- The clock n frames on, from any countdown. -/
theorem clock_frames (hplaying : e.playing = true) {first period : Nat} (hfirst : first = max 1 e.countdown.toNat)
    (hperiod : period = e.samplesPerStep.toNat) (hpos : 1 ≤ period) (n : Nat) :
    ∃ countdown : BitVec 32, countdown.toNat = countdownAfter e.countdown.toNat first period n
      ∧ clock ((frame c)^[n] e)
        = (e.curStep + BitVec.ofNat 4 (ticksAfter first period n), countdown, true, e.samplesPerStep) := by
  induction n with
  | zero =>
    refine ⟨e.countdown, ?_, ?_⟩
    · rw [countdownAfter, if_pos (by omega), Nat.sub_zero]
    · rw [ticksAfter, if_pos (by omega), BitVec.add_zero, Function.iterate_zero, id, clock, hplaying]
  | succ n ih =>
    obtain ⟨countdown, hcountdown, hclock⟩ := ih
    rw [Function.iterate_succ_apply']
    generalize (frame c)^[n] e = e' at hclock ⊢
    simp only [clock, Prod.mk.injEq] at hclock
    obtain ⟨hcurStep, rfl, hplaying', hperiod'⟩ := hclock
    by_cases hdue : e'.countdown.toNat ≤ 1
    · obtain ⟨hticks, hreload⟩ := ticksAfter_succ_due hfirst hpos (hcountdown ▸ hdue)
      refine ⟨e.samplesPerStep, by rw [hreload, hperiod], ?_⟩
      rw [clock_frame_due hplaying' hdue, hcurStep, hperiod', hticks, BitVec.ofNat_add, BitVec.add_assoc]
    · obtain ⟨hticks, hless⟩ := ticksAfter_succ_counting hfirst hpos (hcountdown ▸ hdue)
      refine ⟨e'.countdown - 1#32, by rw [hless, ← hcountdown]; bv_omega, ?_⟩
      rw [clock_frame_counting hplaying' hdue, hcurStep, hperiod', hticks]

/-- While the sequencer is stopped a Frame moves neither the position nor the countdown nor the step context. -/
theorem frame_stopped (h : e.playing = false) :
    (frame c e).curStep = e.curStep ∧ (frame c e).countdown = e.countdown ∧ (frame c e).playStep = e.playStep := by
  have hseq : sequencerStep c e = e := by
    rw [sequencerStep_eq, if_neg (by rw [h]; decide)]
  rw [frame_eq, hseq]
  exact ⟨rfl, rfl, rfl⟩

/-- Settles O49: by induction on the frames, each of which ticks where the countdown is due and else counts it down. -/
theorem ticksAreOnePeriodApart : Obligations.TicksAreOnePeriodApart := by
  refine ⟨fun c e n first period hplaying hfirst hperiod hpos => ?_, fun c e => frame_stopped, fun c e e' he => ?_⟩
  · obtain ⟨countdown, hcountdown, hclock⟩ := clock_frames (c := c) hplaying hfirst hperiod hpos n
    simp only [clock, Prod.mk.injEq] at hclock
    obtain ⟨hcurStep, rfl, hplaying', hperiod'⟩ := hclock
    exact ⟨hcurStep, hcountdown, hplaying', hperiod'⟩
  · obtain rfl | rfl := he
    · rw [blockStart_eq]
      exact ⟨rfl, rfl, rfl, rfl⟩
    · rw [blockEnd_eq]
      exact ⟨rfl, rfl, rfl, rfl⟩

end Sys2Proof.FrameStep
end


section
/-!
PROOFS. The DIAG bits are sticky (O56). The pass over the commands also says that no command is refused by name, which
O51 needs.
-/

namespace Sys2Proof.StickyDiag

open Sys2Proof Sys2Proof.Machine Sys2Proof.Laws Sys2Proof.Schedule Sys2Proof.RenderFrame

variable {c : Config} {e e' e'' : Engine} {s t : State} {v : VoiceIx} {p q : PatternIx}

/-- Every `DIAG` bit of `e` is set in `e'` too. -/
def KeepsDiag (e e' : Engine) : Prop := e.diag &&& e'.diag = e.diag

theorem KeepsDiag.of_eq (h : e'.diag = e.diag) : KeepsDiag e e' := by rw [KeepsDiag, h, BitVec.and_self]

theorem KeepsDiag.refl (e : Engine) : KeepsDiag e e := .of_eq rfl

theorem KeepsDiag.trans (h : KeepsDiag e e') (h' : KeepsDiag e' e'') : KeepsDiag e e'' := by
  rw [KeepsDiag] at h h' ⊢
  rw [← h, BitVec.and_assoc, h']

theorem and_or_absorb (d cause : BitVec 4) : d &&& (d ||| cause) = d := by
  revert d cause
  decide

/-- Raising a diagnostic clears none. -/
theorem keepsDiag_raiseDiag (cause : BitVec 4) : KeepsDiag e (raiseDiag cause e) := and_or_absorb e.diag cause

theorem keepsDiag_raiseCycleIf (fault : Bool) : KeepsDiag e (raiseCycleIf fault e) := by
  cases fault with
  | false => exact .refl e
  | true => exact keepsDiag_raiseDiag _

/-- The render agent raises LIST_CYCLE or nothing. -/
theorem keepsDiag_of_renderWrites (h : RenderWrites e e') : KeepsDiag e e' := by
  obtain hsame | hraised := h.cause
  · exact .of_eq hsame
  · rw [KeepsDiag, hraised]
    exact and_or_absorb _ _

/-! The walks over lock lists: what they write but for a raised diagnostic is not `DIAG`. -/

theorem storeLock_keepsDiag {st id val : Byte} {status : Status} (h : storeLock c e v p st id val = .ok (status, e')) :
    KeepsDiag e e' := by
  rw [storeLock] at h
  split at h
  · cases h
    exact keepsDiag_raiseDiag _
  · cases h
    exact .of_eq rfl
  · rcases allocate_cases c e with ⟨_, heq⟩ | ⟨_, _, heq⟩ | ⟨_, _, heq⟩ <;> rw [heq] at h <;> cases h
    · exact keepsDiag_raiseDiag _
    · exact .of_eq rfl

theorem release_keepsDiag (i : PoolIx) : KeepsDiag e (release c e i) := .of_eq rfl

theorem unlink_keepsDiag (prev nxt : PoolIx) : KeepsDiag e (unlink c e v p prev nxt) := by
  rw [unlink]
  split <;> exact .of_eq rfl

theorem clearFrom_keepsDiag (fuel : Nat) (cur : PoolIx) (e : Engine) (n : Nat) :
    KeepsDiag e (clearFrom c fuel cur e n).2.2 := by
  induction fuel generalizing cur e n with
  | zero =>
    rw [clearFrom]
    split
    · exact .refl e
    · exact keepsDiag_raiseDiag _
  | succ fuel ih =>
    rw [clearFrom]
    split
    · exact .refl e
    · split
      · dsimp only
        split
        · exact (release_keepsDiag cur).trans (keepsDiag_raiseDiag _)
        · exact (release_keepsDiag cur).trans (ih _ _ _)
      · exact keepsDiag_raiseDiag _

theorem clearLocks_keepsDiag : KeepsDiag e (clearLocks c e v p).2.2 :=
  (clearFrom_keepsDiag _ _ e _).trans (.of_eq rfl)

theorem removeFrom_keepsDiag {st : Byte} (fuel : Nat) (prev cur : PoolIx) (e : Engine) (n : Nat) :
    KeepsDiag e (removeFrom c v p st fuel prev cur e n).2.2 := by
  induction fuel generalizing prev cur e n with
  | zero =>
    rw [removeFrom]
    split
    · exact .refl e
    · exact keepsDiag_raiseDiag _
  | succ fuel ih =>
    rw [removeFrom]
    split
    · exact .refl e
    · split
      · dsimp only
        split
        · exact keepsDiag_raiseDiag _
        · split
          · exact ((unlink_keepsDiag _ _).trans (release_keepsDiag cur)).trans (ih _ _ _ _)
          · exact ih _ _ _ _
      · exact keepsDiag_raiseDiag _

theorem copyFrom_keepsDiag {fuel : Nat} {cur : PoolIx} {dropped dropped' : Nat} {acc status : Status}
    (h : copyFrom c v q fuel cur e dropped acc = .ok (status, dropped', e')) : KeepsDiag e e' := by
  induction fuel generalizing cur e dropped acc with
  | zero =>
    rw [copyFrom] at h
    split at h <;> cases h
    · exact .refl _
    · exact keepsDiag_raiseDiag _
  | succ fuel ih =>
    rw [copyFrom] at h
    split at h
    · cases h
      exact .refl _
    · split at h
      · dsimp only at h
        split at h
        · cases h
        · rename_i hstore
          cases h
          exact storeLock_keepsDiag hstore
        all_goals
          rename_i hstore
          refine (storeLock_keepsDiag hstore).trans ?_
          split at h
          · cases h
            exact keepsDiag_raiseDiag _
          · exact ih h
      · cases h
        exact keepsDiag_raiseDiag _

/-! The loops over pattern slots. -/

theorem KeepsDiag.foldl {α : Type} {f : Engine → α → Engine} (hf : ∀ e a, KeepsDiag e (f e a)) (l : List α)
    (e : Engine) : KeepsDiag e (l.foldl f e) := by
  induction l generalizing e with
  | nil => exact .refl e
  | cons a l ih => exact (hf e a).trans (ih (f e a))

theorem doubleSlot_keepsDiag (len i : Nat) : KeepsDiag e (doubleSlot v p len e i) := .of_eq rfl

theorem copySlot_keepsDiag (i : Nat) : KeepsDiag e (copySlot v p q e i) := .of_eq rfl

theorem doublePattern_keepsDiag : KeepsDiag e (doublePattern e v p) := by
  rw [doublePattern]
  split
  · exact (KeepsDiag.foldl (fun _ => doubleSlot_keepsDiag _) _ e).trans (.of_eq rfl)
  · exact .refl e

theorem copyPattern_keepsDiag : KeepsDiag e (copyPattern e v p q) := by
  rw [copyPattern]
  split
  · exact .refl e
  · have hslots : KeepsDiag e ((List.range maxSteps).foldl (copySlot v p q) e) :=
      .foldl (fun _ => copySlot_keepsDiag) _ e
    generalize (List.range maxSteps).foldl (copySlot v p q) e = copied at hslots ⊢
    exact hslots.trans (.of_eq rfl)

/-! What a command answers. -/

/-- The result is no refusal, and a next state has every `DIAG` bit that `s` has. -/
def AnswersKeepingDiag (s : State) : Result → Prop
  | .next t => KeepsDiag s.hw t.hw
  | .fault _ => True
  | .refused _ => False

theorem keepingDiag_respond (h : KeepsDiag s.hw e) (status : Status) (data : Word) :
    AnswersKeepingDiag s (respond s e status data) := h

/-- A command that does not write `DIAG`. -/
theorem keepingDiag_respond_same (h : e = { e with diag := s.hw.diag }) {status : Status} {data : Word} :
    AnswersKeepingDiag s (respond s e status data) := KeepsDiag.of_eq (by rw [h])

theorem keepingDiag_refuseOperand : AnswersKeepingDiag s (refuseOperand s) := keepsDiag_raiseDiag _

theorem keepingDiag_refuseIllegal : AnswersKeepingDiag s (refuseIllegal s) := keepsDiag_raiseDiag _

/-- A command behind an operand check (30_encoding.md R84, R88 (b)). -/
theorem keepingDiag_checked {check : Bool} {r : Result} (h : check = true → AnswersKeepingDiag s r) :
    AnswersKeepingDiag s (if check then r else refuseOperand s) := by
  split
  · rename_i hcheck
    exact h hcheck
  · exact keepingDiag_refuseOperand

theorem lockSt_keepingDiag (st : StepIx) (id : ParamId) (val : Byte) :
    AnswersKeepingDiag s (execLockSt v p st id val s) := by
  refine keepingDiag_checked fun _ => ?_
  split
  · rename_i hstore
    exact keepingDiag_respond (storeLock_keepsDiag hstore) _ _
  · trivial

theorem lockCpy_keepingDiag : AnswersKeepingDiag s (execLockCpy v p q s) := by
  rw [execLockCpy]
  split
  · rename_i hcopy
    exact keepingDiag_respond (copyFrom_keepsDiag hcopy) _ _
  · trivial

theorem patInfo_keepingDiag (sel : BitVec 1) : AnswersKeepingDiag s (execPatInfo v p sel s) := by
  rw [execPatInfo]
  split <;> exact keepingDiag_respond_same rfl

theorem voiceRd_keepingDiag (sel : BitVec 2) : AnswersKeepingDiag s (execVoiceRd v sel s) := by
  rw [execVoiceRd]
  split <;> exact keepingDiag_respond_same rfl

theorem seqRd_keepingDiag (sel : BitVec 2) : AnswersKeepingDiag s (execSeqRd sel s) := by
  rw [execSeqRd]
  split <;> exact keepingDiag_respond_same rfl

theorem poolRd_keepingDiag (ix : PoolIx) (w : BitVec 1) : AnswersKeepingDiag s (execPoolRd ix w s) := by
  rw [execPoolRd]
  split
  · exact keepingDiag_refuseOperand
  · split <;> exact keepingDiag_respond_same rfl

theorem play_keepingDiag (on : BitVec 1) : AnswersKeepingDiag s (execPlay on s) := by
  rw [execPlay]
  split
  · rw [startSequencer]
    split <;> exact keepingDiag_respond_same rfl
  · exact keepingDiag_respond_same rfl

/-- Every command but the two that clear `DIAG` bits answers with none cleared (60_exceptions.md R224, R229). -/
theorem exec_keepingDiag {i : Instr} (hreset : i ≠ .softReset) (hclear : ∀ mask, i ≠ .diagClr mask) :
    AnswersKeepingDiag s (exec i s) := by
  cases i with
  | nop => exact keepingDiag_respond_same rfl
  | paramWr v id val => exact keepingDiag_checked fun _ => keepingDiag_respond_same rfl
  | paramRd v id => exact keepingDiag_checked fun _ => keepingDiag_respond_same rfl
  | resolve v p st id => exact keepingDiag_checked fun _ => keepingDiag_respond (keepsDiag_raiseCycleIf _) _ _
  | lockSt v p st id val => exact lockSt_keepingDiag st id val
  | lockClr v p => exact keepingDiag_respond clearLocks_keepsDiag _ _
  | lockRms v p st => exact keepingDiag_respond (removeFrom_keepsDiag _ _ _ _ _) _ _
  | lockCpy v p q => exact lockCpy_keepingDiag
  | lockHas v p st => exact keepingDiag_respond (keepsDiag_raiseCycleIf _) _ _
  | noteSet v p st val => exact keepingDiag_respond_same rfl
  | keySet v p st val => exact keepingDiag_respond_same rfl
  | noteGet v p st => exact keepingDiag_respond_same rfl
  | plenSet v p val => exact keepingDiag_checked fun _ => keepingDiag_respond_same rfl
  | prateSet v p val => exact keepingDiag_respond_same rfl
  | patDbl v p => exact keepingDiag_respond doublePattern_keepsDiag _ _
  | patCpy v p q => exact keepingDiag_respond copyPattern_keepsDiag _ _
  | patInfo v p sel => exact patInfo_keepingDiag sel
  | typeSet v val => exact keepingDiag_checked fun _ => keepingDiag_respond_same rfl
  | patSel v p => exact keepingDiag_respond_same rfl
  | gridTrig v g m => exact keepingDiag_checked fun _ => keepingDiag_respond_same rfl
  | gridNote v g val => exact keepingDiag_respond_same rfl
  | gridRd v g => exact keepingDiag_respond_same rfl
  | voiceRd v sel => exact voiceRd_keepingDiag sel
  | play on => exact play_keepingDiag on
  | selVoice v => exact keepingDiag_respond_same rfl
  | modeSet m => exact keepingDiag_respond_same rfl
  | tempoSet bpm => exact keepingDiag_checked fun _ => keepingDiag_respond_same rfl
  | noteReq note => exact keepingDiag_respond_same rfl
  | seqRd sel => exact seqRd_keepingDiag sel
  | poolRd ix w => exact poolRd_keepingDiag ix w
  | poolStat => exact keepingDiag_respond_same rfl
  | diagRd => exact keepingDiag_respond_same rfl
  | diagClr mask => exact absurd rfl (hclear mask)
  | softReset => exact absurd rfl hreset

/-- No command is refused by name (log 6: the only refusal is of a period signal). -/
theorem exec_ne_refused (i : Instr) (s : State) (r : Refusal) : exec i s ≠ .refused r := by
  intro h
  have hanswers : i ≠ .softReset → (∀ mask, i ≠ .diagClr mask) → AnswersKeepingDiag s (exec i s) := exec_keepingDiag
  rw [h] at hanswers
  cases i with
  | softReset => cases h
  | diagClr mask => cases h
  | _ => exact hanswers (by simp) (by simp)

theorem runCommand_ne_refused (w : Word) (s : State) (r : Refusal) : runCommand w s ≠ .refused r := by
  rw [runCommand]
  split
  · exact exec_ne_refused _ s r
  · nofun

theorem runCommand_keepsDiag {w : Word} (hw : decode w ≠ .ok .softReset ∧ ∀ mask, decode w ≠ .ok (.diagClr mask)) :
    AnswersKeepingDiag s (runCommand w s) := by
  obtain ⟨hreset, hclear⟩ := hw
  rw [runCommand]
  split
  · rename_i i hi
    rw [hi] at hreset hclear
    exact exec_keepingDiag (fun h => hreset (h ▸ rfl)) fun mask h => hclear mask (h ▸ rfl)
  · exact keepingDiag_refuseIllegal

theorem renderEvent_keepsDiag
    (hinputs : s.inputs = [] ∨ (∃ rest, s.inputs = .render :: rest) ∨ ∃ rest, s.inputs = .period :: rest)
    (h : step s = .next t) : KeepsDiag s.hw t.hw := by
  obtain ⟨e, hwrites, rfl⟩ := renderEvent_writes hinputs h
  exact keepsDiag_of_renderWrites hwrites

/-- Settles O56, by the events of the schedule: the render agent's and the transport's raise LIST_CYCLE at most, and a
command that clears no bit by its meaning clears none. -/
theorem diagnosticsAreSticky : Obligations.DiagnosticsAreSticky := by
  intro s t hnext hcommand hreset
  cases hinputs : s.inputs with
  | nil => exact renderEvent_keepsDiag (.inl hinputs) hnext
  | cons i rest =>
    cases i with
    | command w =>
      have hkeeps := runCommand_keepsDiag (s := { s with inputs := rest }) (hcommand w rest hinputs)
      rw [step_of_inputs_cons hinputs] at hnext
      rw [show runCommand w { s with inputs := rest } = .next t from hnext] at hkeeps
      exact hkeeps
    | period => exact renderEvent_keepsDiag (.inr (.inr ⟨rest, hinputs⟩)) hnext
    | render => exact renderEvent_keepsDiag (.inr (.inl ⟨rest, hinputs⟩)) hnext
    | hardReset => exact absurd hinputs (hreset rest)

end Sys2Proof.StickyDiag
end

section
/-!
PROOFS. The reset state of every legal implementation meets the invariants and the canonical form (O59).
-/

namespace Sys2Proof.ResetSound

open Sys2Proof Sys2Proof.Machine Sys2Proof.Laws Sys2Proof.Invariant

theorem resetOf_sound {c : Config} (hc : c.valid) : Sound (State.resetOf c) := by
  obtain ⟨hreset, _⟩ := reset_keepsHw hc (Engine.reset c)
  exact ⟨hc, hreset.pool, hreset.noteCounts, hreset.fields, hreset.blocks⟩

/-- The reference parameters are legal (log 1). -/
theorem referenceConfig_valid : referenceConfig.valid := by decide

/-- Settles O59, the second part as the case of the reference parameters. -/
theorem resetStateIsSound : Obligations.ResetStateIsSound :=
  ⟨fun c hc => ⟨resetOf_sound hc, reset_canonical c⟩, resetOf_sound referenceConfig_valid,
    reset_canonical referenceConfig⟩

end Sys2Proof.ResetSound
end


section
/-!
PROOFS. A block is produced whole (O51): what k turns of the render agent leave of a block, which no command touches.
-/

namespace Sys2Proof.WholeBlock

open Sys2Proof Sys2Proof.Machine Sys2Proof.Laws Sys2Proof.Schedule Sys2Proof.RenderVoices Sys2Proof.FrameStep

variable {c : Config} {e e' : Engine} {s t : State} {rest : List Input} {k : Nat}

/-- The block state after BlockStart and k turns of the render agent. -/
structure BlockAt (k : Nat) (e : Engine) : Prop where
  busy : e.busy = true ↔ k < 129
  frames : e.frameIdx.val = min k 128
  channels : ∀ n, n < min k 128 → e.audio n true = e.audio n false

/-- After the 129th turn the block is whole, and the transport's. -/
theorem BlockAt.finished (h : BlockAt 129 e) :
    e.busy = false ∧ e.frameIdx.val = 128 ∧ ∀ n, n < 128 → e.audio n true = e.audio n false :=
  have hframes : min 129 128 = 128 := by decide
  ⟨Bool.eq_false_iff.2 fun hbusy => Nat.lt_irrefl 129 (h.busy.1 hbusy), h.frames.trans hframes,
    fun n hn => h.channels n (hframes.symm ▸ hn)⟩

/-- The block state is in `busy`, `frameIdx` and AUDIO alone. -/
def SameBlock (e e' : Engine) : Prop :=
  e'.busy = e.busy ∧ e'.frameIdx = e.frameIdx ∧ e'.audioMem = e.audioMem

theorem BlockAt.congr (h : BlockAt k e) (hsame : SameBlock e e') : BlockAt k e' := by
  obtain ⟨hbusy, hframeIdx, haudio⟩ := hsame
  refine ⟨hbusy ▸ h.busy, hframeIdx ▸ h.frames, fun n hn => ?_⟩
  rw [Engine.audio, Engine.audio, haudio]
  exact h.channels n hn

/-! The render agent's steps. -/

theorem blockAt_blockStart : BlockAt 0 (blockStart c e) := by
  rw [blockStart_eq]
  exact ⟨by simp, rfl, fun n hn => absurd hn (Nat.not_lt_zero n)⟩

theorem busy_frame : (frame c e).busy = e.busy := Invariant.renderPart_frame.busy

theorem blockAt_frame (h : BlockAt k e) (hk : k < 128) : BlockAt (k + 1) (frame c e) := by
  have hindex : e.frameIdx.val = k := by rw [h.frames, min_eq_left hk.le]
  have hframes : (frame c e).frameIdx.val = k + 1 := by rw [frameIdx_frame (hindex ▸ hk), hindex]
  have hbusy : e.busy = true := h.busy.2 (by omega)
  refine ⟨?_, ?_, fun n hn => ?_⟩
  · rw [busy_frame, hbusy]
    simp only [true_iff]
    omega
  · omega
  · rw [audio_frame, audio_frame]
    split_ifs with hlast
    · rfl
    · exact h.channels n (by omega)

theorem blockAt_blockEnd (h : BlockAt 128 e) : BlockAt 129 (blockEnd c e) := by
  have hframes := h.frames
  have hchannels := h.channels
  rw [blockEnd_eq]
  exact ⟨by simp, hframes, hchannels⟩

theorem renderStep_last (h : BlockAt 128 e) : renderStep c e = blockEnd c e :=
  renderStep_blockEnd (h.busy.2 (by decide)) h.frames

theorem blockAt_renderStep (h : BlockAt k e) (hk : k < 129) : BlockAt (k + 1) (renderStep c e) := by
  by_cases hlast : k = 128
  · subst hlast
    rw [renderStep_last h]
    exact blockAt_blockEnd h
  · have hframes : e.frameIdx.val < 128 := by
      rw [h.frames]
      omega
    rw [renderStep_frame (h.busy.2 hk) hframes]
    exact blockAt_frame h (by omega)

/-! Commands: none writes the block state, and from a sound state each answers. -/

/-- `SOFT_RESET` keeps the block (43_sequencer_cmds.md R156), and no other command writes it. -/
theorem runCommand_sameBlock {w : Word} (h : runCommand w s = .next t) :
    SameBlock s.hw t.hw ∧ t.cfg = s.cfg ∧ t.inputs = s.inputs := by
  rw [runCommand] at h
  split at h
  · rename_i i _
    obtain ⟨hwrites, hcfg, hinputs, _⟩ := CommandFrame.commandsWriteNoRenderState i s t h
    refine ⟨?_, hcfg, hinputs⟩
    by_cases hi : i = .softReset
    · subst hi
      cases h
      exact ⟨rfl, rfl, rfl⟩
    · obtain ⟨hbusy, hframeIdx, haudio, _⟩ := (hwrites hi).blocks
      exact ⟨hbusy, hframeIdx, haudio⟩
  · cases h
    exact ⟨⟨rfl, rfl, rfl⟩, rfl, rfl⟩

theorem runCommand_next (hs : Sound s) (w : Word) : ∃ t, runCommand w s = .next t ∧ Sound t := by
  have hkeeps := Invariant.runCommand_keepsSound hs w
  cases hresult : runCommand w s with
  | next t =>
    rw [hresult] at hkeeps
    exact ⟨t, rfl, hkeeps.1⟩
  | fault f =>
    rw [hresult] at hkeeps
    exact hkeeps.elim
  | refused r => exact absurd hresult (StickyDiag.runCommand_ne_refused w s r)

/-! Schedules. -/

theorem runSteps_succ (h : step s = .next t) (n : Nat) : runSteps (n + 1) s = runSteps n t := by
  rw [runSteps, h]

theorem sound_renderStep (hs : Sound s) : Sound { s with hw := renderStep s.cfg s.hw } :=
  (Invariant.renderTurn_keepsSound hs).1

/-- One event of a block: a turn of the render agent takes the block one further, a command leaves it. -/
theorem step_blockAt {i : Input} (hs : Sound s) (hat : BlockAt k s.hw) (hinputs : s.inputs = i :: rest)
    (hi : i = .render ∨ ∃ w, i = .command w) (hk : k + [i].count .render ≤ 129) :
    ∃ t, step s = .next t ∧ t.inputs = rest ∧ t.cfg = s.cfg ∧ Sound t ∧ BlockAt (k + [i].count .render) t.hw := by
  obtain rfl | ⟨w, rfl⟩ := hi
  · exact ⟨_, step_render hinputs, rfl, rfl, Invariant.sound_withInputs (sound_renderStep hs) rest,
      blockAt_renderStep hat hk⟩
  · obtain ⟨t, hnext, hsound⟩ := runCommand_next (Invariant.sound_withInputs hs rest) w
    obtain ⟨hblock, hcfg, hrest⟩ := runCommand_sameBlock hnext
    exact ⟨t, (step_of_inputs_cons hinputs).trans hnext, hrest, hcfg, hsound, hat.congr hblock⟩

/-- The events of a block, commands among the turns. -/
theorem runSteps_blockAt {turns : List Input} (hturns : ∀ i ∈ turns, i = .render ∨ ∃ w, i = .command w) (hs : Sound s)
    (hat : BlockAt k s.hw) (hinputs : s.inputs = turns ++ rest) (hk : k + turns.count .render ≤ 129) :
    ∃ t, runSteps turns.length s = .next t ∧ t.inputs = rest ∧ t.cfg = s.cfg ∧ Sound t
      ∧ BlockAt (k + turns.count .render) t.hw := by
  induction turns generalizing s k with
  | nil => exact ⟨s, rfl, hinputs, rfl, hs, hat⟩
  | cons i turns ih =>
    have hcount : (i :: turns).count .render = [i].count .render + turns.count .render :=
      List.count_append (l₁ := [i])
    rw [hcount, ← Nat.add_assoc] at hk ⊢
    obtain ⟨hi, hlater⟩ := List.forall_mem_cons.1 hturns
    obtain ⟨t, hstep, hrest, hcfg, hsound, hat'⟩ := step_blockAt hs hat hinputs hi (by omega)
    obtain ⟨t', hrun, hrest', hcfg', hsound', hat''⟩ := ih hlater hsound hat' hrest hk
    exact ⟨t', (runSteps_succ hstep _).trans hrun, hrest', hcfg'.trans hcfg, hsound', hat''⟩

/-- With no command among the turns the render agent's steps follow one another, from any state. -/
theorem runSteps_renders (n : Nat) (h : s.inputs = List.replicate n Input.render ++ rest) :
    runSteps n s = .next { s with hw := (renderStep s.cfg)^[n] s.hw, inputs := rest } := by
  induction n generalizing s with
  | zero =>
    obtain rfl : s.inputs = rest := h
    rfl
  | succ n ih =>
    rw [runSteps_succ (step_render h), ih rfl, Function.iterate_succ_apply]

theorem blockAt_renderSteps (h : BlockAt 0 e) {n : Nat} (hn : n ≤ 129) : BlockAt n ((renderStep c)^[n] e) := by
  induction n with
  | zero => exact h
  | succ n ih =>
    rw [Function.iterate_succ_apply']
    exact blockAt_renderStep (ih (by omega)) hn

theorem pendingNote_renderSteps (h : BlockAt 0 e) : ((renderStep c)^[129] e).pendingNote = false := by
  have hlast : (renderStep c)^[129] e = renderStep c ((renderStep c)^[128] e) := Function.iterate_succ_apply' _ 128 e
  rw [hlast, renderStep_last (blockAt_renderSteps h (by decide)), blockEnd_eq]

theorem blockStart_sound (hs : Sound s) (hidle : s.hw.busy = false) :
    Sound { s with hw := blockStart s.cfg s.hw } := by
  have hkeeps := Invariant.periodSignal_keepsSound hs
  rw [periodSignal, hidle] at hkeeps
  exact hkeeps.1

/-- Settles O51: BlockStart stands at turn 0 of the block, and from there by induction on the schedule. -/
theorem aBlockIsProducedWhole : Obligations.ABlockIsProducedWhole := by
  refine ⟨fun s turns rest k hs hidle hturns hk hle hinputs => ?_, fun s rest hidle hinputs => ?_⟩
  · subst hk
    obtain ⟨t, hrun, hrest, hcfg, hsound, hat⟩ := runSteps_blockAt (s := { s with
      hw := blockStart s.cfg s.hw, inputs := turns ++ rest }) (k := 0) hturns
      (Invariant.sound_withInputs (blockStart_sound hs hidle) _) blockAt_blockStart rfl (by omega)
    rw [Nat.zero_add] at hat
    exact ⟨t, (runSteps_succ (step_period hinputs hidle) _).trans hrun, hrest, hcfg, hsound, hat.busy, hat.frames,
      hat.channels⟩
  · have hat : BlockAt 129 ((renderStep s.cfg)^[129] (blockStart s.cfg s.hw)) :=
      blockAt_renderSteps blockAt_blockStart le_rfl
    have hpending : ((renderStep s.cfg)^[129] (blockStart s.cfg s.hw)).pendingNote = false :=
      pendingNote_renderSteps blockAt_blockStart
    have hrun : runSteps 130 s = .next { s with
        hw := (renderStep s.cfg)^[129] (blockStart s.cfg s.hw), inputs := rest } :=
      (runSteps_succ (step_period hinputs hidle) 129).trans (runSteps_renders 129 rfl)
    generalize (renderStep s.cfg)^[129] (blockStart s.cfg s.hw) = e at hat hpending hrun
    obtain ⟨hidle', hframes, hchannels⟩ := hat.finished
    exact ⟨_, hrun, rfl, rfl, rfl, hidle', hframes, hpending, hchannels⟩

end Sys2Proof.WholeBlock
end
